-- ==== Sys2Proof/Word.lean ====
section
/-! DEFINITION. What a word is, and the addressing modes' names. A word is a signed integer (R6), held as an `Int`; all arithmetic is on
mathematical integers and checked against the word range where a result is stored (R132; `Config.isWord` in Machine/Ops.lean). A valid
address counts words from 0 (R40, R41) and is a `Nat`; an address still being computed is an exact `Int` (R117). -/

namespace Sys2Proof

/-- `WORD_MIN` for words of `w` bits (R5). -/
def wordMin (w : Nat) : Int := -2 ^ (w - 1)

/-- `WORD_MAX` for words of `w` bits (R5). -/
def wordMax (w : Nat) : Int := 2 ^ (w - 1) - 1

/-- The three addressing modes (R73); the digit of each is in `Decode.lean`. -/
inductive Mode where
  | position
  | immediate
  | relative
deriving DecidableEq, Repr

end Sys2Proof
end

