-- ==== Sys2Proof/Syntax.lean ====
section
/-! DEFINITION. The decoded instruction: one constructor per row of the opcode table (R76). -/

namespace Sys2Proof

/-- A decoded instruction is its opcode and the modes of parameters 1, 2, 3, also of parameters the opcode does not have: the decoder
gives all three for every word (R84, R103). Parameter words are not part of it; the operand resolver reads them (R112). -/
inductive Instr where
  /-- opcode 1 (R130) -/
  | add (m1 m2 m3 : Mode)
  /-- opcode 2 (R131) -/
  | mul (m1 m2 m3 : Mode)
  /-- opcode 3 (R140) -/
  | input (m1 m2 m3 : Mode)
  /-- opcode 4 (R141) -/
  | output (m1 m2 m3 : Mode)
  /-- opcode 5 (R170) -/
  | jumpIfTrue (m1 m2 m3 : Mode)
  /-- opcode 6 (R171) -/
  | jumpIfFalse (m1 m2 m3 : Mode)
  /-- opcode 7 (R180) -/
  | lessThan (m1 m2 m3 : Mode)
  /-- opcode 8 (R181) -/
  | equals (m1 m2 m3 : Mode)
  /-- opcode 9 (R190) -/
  | adjustBase (m1 m2 m3 : Mode)
  /-- opcode 99 (R191) -/
  | halt (m1 m2 m3 : Mode)
deriving DecidableEq, Repr

end Sys2Proof
end

