-- ==== Sys2Proof/WellFormed.lean ====
section
/-! DEFINITION. Which decoded instructions the encoding admits. -/

namespace Sys2Proof

/-- The mode of the write operand, for the opcodes that have one: parameter 3 of ADD, MUL, LESS-THAN, EQUALS, parameter 1 of INPUT
(R76, R82). -/
def Instr.writeMode : Instr → Option Mode
  | .add _ _ m3 => some m3
  | .mul _ _ m3 => some m3
  | .input m1 _ _ => some m1
  | .output _ _ _ => none
  | .jumpIfTrue _ _ _ => none
  | .jumpIfFalse _ _ _ => none
  | .lessThan _ _ m3 => some m3
  | .equals _ _ m3 => some m3
  | .adjustBase _ _ _ => none
  | .halt _ _ _ => none

/-- The legal modes of R77: every mode of every parameter, but not Immediate for a write operand (R82). -/
def Instr.wellFormed (i : Instr) : Bool :=
  i.writeMode != some .immediate

end Sys2Proof
end

