-- ==== Sys2Proof/Decode.lean ====
section
/-! DEFINITION. The instruction decoder (R103 to R105) and the encoder, from the encoding tables of 30_encoding.md. Fields are decimal
digits, not bits (R70). -/

namespace Sys2Proof

/-- `digit(w, i)` of R7. -/
def digit (w i : Nat) : Nat := w / 10 ^ i % 10

/-- The mode a digit selects (R73); 3 to 9 select none (R81). -/
def modeOfDigit (d : Nat) : Option Mode :=
  if d = 0 then some .position
  else if d = 1 then some .immediate
  else if d = 2 then some .relative
  else none

/-- The opcode map (R76): the values 0 and 10 to 98 name no instruction (R79). -/
def instrOfOpcode (op : Nat) : Option (Mode → Mode → Mode → Instr) :=
  if op = 1 then some .add
  else if op = 2 then some .mul
  else if op = 3 then some .input
  else if op = 4 then some .output
  else if op = 5 then some .jumpIfTrue
  else if op = 6 then some .jumpIfFalse
  else if op = 7 then some .lessThan
  else if op = 8 then some .equals
  else if op = 9 then some .adjustBase
  else if op = 99 then some .halt
  else none

/-- Why an instruction word is illegal (R79 to R82). -/
inductive DecodeError where
  | unknownOpcode
  | invalidMode
  | immediateWriteTarget
deriving DecidableEq, Repr

/-- The decoder: a function of the one word fetched at IP (R103). The checks stand in the order of R105; a negative word is never taken
apart into digits (R80), and digits at 10^5 and above are not looked at (R83). -/
def decode (w : Int) : Except DecodeError Instr :=
  if w < 0 then .error .unknownOpcode
  else
    match instrOfOpcode (w.toNat % 100) with
    | none => .error .unknownOpcode
    | some mk =>
      match modeOfDigit (digit w.toNat 2), modeOfDigit (digit w.toNat 3), modeOfDigit (digit w.toNat 4) with
      | some m1, some m2, some m3 =>
        if (mk m1 m2 m3).wellFormed then .ok (mk m1 m2 m3) else .error .immediateWriteTarget
      | _, _, _ => .error .invalidMode

/-- The digit of a mode (R73). -/
def Mode.digit : Mode → Nat
  | .position => 0
  | .immediate => 1
  | .relative => 2

/-- The opcode of an instruction (R76). -/
def Instr.opcode : Instr → Nat
  | .add _ _ _ => 1
  | .mul _ _ _ => 2
  | .input _ _ _ => 3
  | .output _ _ _ => 4
  | .jumpIfTrue _ _ _ => 5
  | .jumpIfFalse _ _ _ => 6
  | .lessThan _ _ _ => 7
  | .equals _ _ _ => 8
  | .adjustBase _ _ _ => 9
  | .halt _ _ _ => 99

/-- The modes of parameters 1, 2, 3. -/
def Instr.modes : Instr → Mode × Mode × Mode
  | .add m1 m2 m3 => (m1, m2, m3)
  | .mul m1 m2 m3 => (m1, m2, m3)
  | .input m1 m2 m3 => (m1, m2, m3)
  | .output m1 m2 m3 => (m1, m2, m3)
  | .jumpIfTrue m1 m2 m3 => (m1, m2, m3)
  | .jumpIfFalse m1 m2 m3 => (m1, m2, m3)
  | .lessThan m1 m2 m3 => (m1, m2, m3)
  | .equals m1 m2 m3 => (m1, m2, m3)
  | .adjustBase m1 m2 m3 => (m1, m2, m3)
  | .halt m1 m2 m3 => (m1, m2, m3)

/-- The number of parameter words (R72): formats F0 to F3. -/
def Instr.paramCount : Instr → Nat
  | .add _ _ _ => 3
  | .mul _ _ _ => 3
  | .input _ _ _ => 1
  | .output _ _ _ => 1
  | .jumpIfTrue _ _ _ => 2
  | .jumpIfFalse _ _ _ => 2
  | .lessThan _ _ _ => 3
  | .equals _ _ _ => 3
  | .adjustBase _ _ _ => 1
  | .halt _ _ _ => 0

/-- The canonical instruction word, the one below 100000 (R71, R83). -/
def encodeWord (i : Instr) : Int :=
  i.opcode + 100 * i.modes.1.digit + 1000 * i.modes.2.1.digit + 10000 * i.modes.2.2.digit

/-- The words of an instruction with its parameters (R70, R72). -/
def encode (i : Instr) (params : List Int) : List Int :=
  encodeWord i :: params

/-- What decoding a stream of words can find wrong: an illegal instruction word, or fewer words than the instruction has. -/
inductive StreamError where
  | illegal (e : DecodeError)
  | tooShort
deriving DecidableEq, Repr

/-- Decoding the head of a stream of words: the instruction, its parameters, and the words that follow it. The opcode alone fixes
the length (R75). (The machine does not use this: it reads a parameter only when the resolver comes to it, R113.) -/
def decodeWords : List Int → Except StreamError (Instr × List Int × List Int)
  | [] => .error .tooShort
  | w :: rest =>
    match decode w with
    | .error e => .error (.illegal e)
    | .ok i =>
      if i.paramCount ≤ rest.length then .ok (i, rest.take i.paramCount, rest.drop i.paramCount)
      else .error .tooShort

/-- Word `k` of an instruction given as one number of bits, word 0 in the 64 least significant bits, each word in 64-bit two's complement
(R6, PRESUMED there; entry 16); bits at `nbits` and above are 0. -/
def wordOfBits (nbits bits k : Nat) : Int :=
  let n : Nat := bits % 2 ^ nbits / 2 ^ (64 * k) % 2 ^ 64
  if n < 2 ^ 63 then (n : Int) else (n : Int) - 2 ^ 64

/-- The instruction the decoder reads from an instruction given as bits; it looks at the first word only (R103). -/
def decodeTableWord (nbits w : Nat) : Option Instr :=
  match decode (wordOfBits nbits w 0) with
  | .ok i => some i
  | .error _ => none

end Sys2Proof
end

