-- ==== Sys2Proof/Config.lean ====
section
/-! DEFINITION. The parameters of the core (R5). They are fixed for the life of an instance (R32); a State carries them, so that a
statement about every state is one about every value of the parameters. The spec leaves no value free inside the core (R14), so
there is no opaque constant here. -/

namespace Sys2Proof

/-- Which I/O channel implementation answers the core's transactions (R148). -/
inductive ChannelKind where
  | interactive
  | buffered
  | device
deriving DecidableEq, Repr

/-- The parameters of one VM instance (R5). `none` is "unbounded" throughout. -/
structure Config where
  /-- `W`, the width of a word in bits (D1); unbounded is the admitted alternative that reproduces the source. -/
  width : Option Nat := some 64
  /-- `MEM_CAP`, the number of addressable words (D3). -/
  memCap : Option Nat := none
  /-- `CHANNEL_KIND` (D15). OPEN in the spec; the default is a DESIGN CHOICE (entry 2). -/
  channelKind : ChannelKind := .buffered
  /-- `INQ_CAP` (D16). -/
  inqCap : Option Nat := none
  /-- `OUTQ_CAP` (D16, U9). -/
  outqCap : Option Nat := none
deriving DecidableEq, Repr

end Sys2Proof
end

