-- ==== Sys2Proof/Machine/State.lean ====
section
/-! DEFINITION. The whole state of one VM instance (10_state.md), as plain data, and its reset value (R35, R240). -/

namespace Sys2Proof.Machine

/-- The reasons a step can stop OUTSIDE the spec's own run states. There is none: every error the spec gives the machine is the
transition to its terminal state Fatal (R204), which is a next state (entry 11). No meaning raises a fault. -/
inductive Fault where
deriving DecidableEq, Repr

/-- The reasons an instruction has no meaning in the model. -/
inductive Refusal where
  /-- Raised by `exec` alone, for an instruction the model gives no meaning yet; safe. Every instruction has its meaning, so no arm
  raises it. -/
  | notModelled (mnemonic : String)
deriving DecidableEq, Repr

/-- `RUN_STATE` (R26). -/
inductive RunState where
  | running
  | halted
  | awaitingInput
  | fatal
deriving DecidableEq, Repr

/-- The values of `FAULT_CAUSE` other than 0, in the order of their codes 1 to 7 (R205). -/
inductive FaultCause where
  | unknownOpcode
  | negativeAddress
  | immediateWriteTarget
  | invalidMode
  | arithmeticOverflow
  | capacityExceeded
  | deviceError
deriving DecidableEq, Repr

/-- What a channel answers to the read transaction (R146). -/
inductive ReadAnswer where
  | value (v : Int)
  | empty
  | error (e : Int)
deriving DecidableEq, Repr

/-- What a channel answers to the write transaction (R147). -/
inductive WriteAnswer where
  | ok
  | error (e : Int)
deriving DecidableEq, Repr

/-- The attached I/O channel's state (R30): the queues of a Buffered channel, and the environment's side of the other two kinds. The last
four fields are the model's own: the spec leaves the answers to the environment (R14), and the model holds the answers still to come
as lists, so that a statement about every state is one about every environment (entries 5 and 8). -/
structure Channel where
  /-- `INQ`, the head is the next value to be read (R30). -/
  inq : List Int := []
  /-- `OUTQ`, the last value written is at the end (R30). -/
  outq : List Int := []
  /-- Interactive: the values the prompt will supply, in order (R150). -/
  prompt : List Int := []
  /-- Device: the answers `provide_input` will give, in order (R153). -/
  deviceReads : List ReadAnswer := []
  /-- Device: the answers `accept_output` will give, in order (R153). -/
  deviceWrites : List WriteAnswer := []
  /-- Interactive and Device: the values the consumer has accepted, in order (R157). -/
  emitted : List Int := []
deriving DecidableEq, Repr

/-- The memory array `M` (R24), as the list of its non-zero cells by rising address; a cell not listed reads 0. `Memory.wf` in `Ops.lean` is
the canonical form. A cell is a whole word: the core has no bytes (R41, R48; entry 15). -/
abbrev Memory := List (Nat × Int)

/-- The state of one VM instance. -/
structure State where
  /-- The parameters of the instance (R5, R32); no step changes them. -/
  cfg : Config
  /-- The instruction pointer (R21). -/
  ip : Nat
  /-- The relative base (R23). -/
  rb : Int
  /-- The memory array (R24). -/
  mem : Memory
  /-- `LEN`, the current length of the memory array (R25). -/
  len : Nat
  /-- `RUN_STATE` (R26). -/
  runState : RunState
  /-- `FAULT_CAUSE` (R27); `none` is its value 0. -/
  faultCause : Option FaultCause
  /-- `FAULT_INFO` (R28). -/
  faultInfo : Int
  /-- The state of the attached channel (R30). -/
  chan : Channel
deriving DecidableEq, Repr

/-- The state after construction from the empty Program with a fresh channel (R35, R240, R241): nothing is loaded. A Program comes in
through `construct` (Machine/Driver.lean; entry 4). The configuration is the default one (entry 2). -/
def State.reset : State :=
  { cfg := {}, ip := 0, rb := 0, mem := [], len := 0, runState := .running, faultCause := none, faultInfo := 0, chan := {} }

end Sys2Proof.Machine
end

