-- ==== Sys2Proof/Machine/Ops.lean ====
section
/-! DEFINITION. The shared operations: memory cells, address checks, the word range, the two access primitives, and the transitions of
RUN_STATE, taking a fatal condition among them. -/

namespace Sys2Proof

/-! The parameters' derived values. -/

/-- `WORD_MIN <= v <= WORD_MAX` (R5, R6); with `W` unbounded every integer is a word. -/
def Config.isWord (c : Config) (v : Int) : Bool :=
  match c.width with
  | none => true
  | some w => decide (wordMin w ≤ v) && decide (v ≤ wordMax w)

/-- The bound addresses are checked against: `MEM_CAP`, which is at most `2^(W-1)` when `W` is finite, and is read as that when it is unbounded
(R5, R46; entry 3). -/
def Config.cap (c : Config) : Option Nat :=
  match c.width, c.memCap with
  | none, m => m
  | some w, none => some (2 ^ (w - 1))
  | some w, some n => some (min n (2 ^ (w - 1)))

/-- Whether `n` is below a bound; `none` is no bound. -/
def below (n : Nat) : Option Nat → Bool
  | none => true
  | some b => decide (n < b)

end Sys2Proof

namespace Sys2Proof.Machine

/-! Cells. -/

/-- `M[a]` without side effect: a cell not listed reads 0 (R24). -/
def Memory.read : Memory → Nat → Int
  | [], _ => 0
  | (b, u) :: rest, a => if a = b then u else Memory.read rest a

/-- `M[a] <- v`, keeping the list canonical: a cell that becomes 0 is not listed. -/
def Memory.write : Memory → Nat → Int → Memory
  | [], a, v => if v = 0 then [] else [(a, v)]
  | (b, u) :: rest, a, v =>
    if a < b then (if v = 0 then (b, u) :: rest else (a, v) :: (b, u) :: rest)
    else if a = b then (if v = 0 then rest else (a, v) :: rest)
    else (b, u) :: Memory.write rest a v

/-- Every listed address is at least `low`, addresses rise strictly, and no listed value is 0. -/
def Memory.wfFrom : Nat → Memory → Bool
  | _, [] => true
  | low, (b, u) :: rest => decide (low ≤ b) && decide (u ≠ 0) && Memory.wfFrom (b + 1) rest

/-- The canonical form: equal contents are equal lists. -/
def Memory.wf (m : Memory) : Bool := Memory.wfFrom 0 m

/-- `ws` written to consecutive cells from `a` on. -/
def Memory.writeWords : Memory → Nat → List Int → Memory
  | m, _, [] => m
  | m, a, w :: ws => Memory.writeWords (Memory.write m a w) (a + 1) ws

/-! Fatal conditions and the transitions of RUN_STATE. -/

/-- What `raise Fatal(cause, info)` carries (R8). -/
structure FatalEvent where
  cause : FaultCause
  info : Int
deriving DecidableEq, Repr

/-- Taking a fatal condition, the core's only "trap entry" (R204): RUN_STATE, FAULT_CAUSE and FAULT_INFO are written and nothing else. There is
no return from it (R208). -/
def State.enterFatal (s : State) (e : FatalEvent) : State :=
  { s with runState := .fatal, faultCause := some e.cause, faultInfo := e.info }

/-- Suspend, the entry to AwaitingInput (R212). -/
def State.suspend (s : State) : State := { s with runState := .awaitingInput }

/-- Resume, what Step and Run do first in AwaitingInput (R213). -/
def State.resume (s : State) : State :=
  match s.runState with
  | .awaitingInput => { s with runState := .running }
  | .running => s
  | .halted => s
  | .fatal => s

/-- The transition to Halted (R201). -/
def State.halt (s : State) : State := { s with runState := .halted }

/-- The fixed advance of IP (R22); IP never wraps (R21). -/
def State.advance (s : State) (n : Nat) : State := { s with ip := s.ip + n }

/-- The end of a step that either commits a new state or raises: nothing of a raising step is kept, since the fatal condition is taken in the
state `s` the step began in (R102). -/
def commit (s : State) : Except FatalEvent State → Host.Outcome State Fault Refusal
  | .ok t => .next t
  | .error e => .next (s.enterFatal e)

/-! Memory accesses. -/

/-- The range check of MemRead and MemWrite (R42, R45, R46). -/
def checkAddr (c : Config) (a : Int) : Except FatalEvent Nat :=
  if a < 0 then .error ⟨.negativeAddress, a⟩
  else if below a.toNat c.cap then .ok a.toNat
  else .error ⟨.capacityExceeded, a⟩

/-- Growth of LEN by an access at `a` (R47). -/
def State.touch (s : State) (a : Nat) : State := { s with len := max s.len (a + 1) }

/-- `MemRead(a)` (R43): the word, and the state with LEN grown. -/
def memRead (a : Int) (s : State) : Except FatalEvent (Int × State) :=
  match checkAddr s.cfg a with
  | .ok n => .ok (s.mem.read n, s.touch n)
  | .error e => .error e

/-- `MemWrite(a, v)` (R44) at an address that has passed the range check. -/
def State.memWrite (s : State) (a : Nat) (v : Int) : State :=
  { s.touch a with mem := s.mem.write a v }

/-- The instruction word: the word at IP (R21). -/
def State.instrWord (s : State) : Int := s.mem.read s.ip

/-- `word(r)` (R132): `r` if it is a word, else ArithmeticOverflow with the instruction word. -/
def wordResult (s : State) (r : Int) : Except FatalEvent Int :=
  if s.cfg.isWord r then .ok r else .error ⟨.arithmeticOverflow, s.instrWord⟩

/-! The codes software sees in the status registers. -/

/-- The 2-bit encoding of RUN_STATE (R26). -/
def RunState.code : RunState → BitVec 2
  | .running => 0
  | .halted => 1
  | .awaitingInput => 2
  | .fatal => 3

/-- The code of FAULT_CAUSE (R205). -/
def faultCauseCode : Option FaultCause → Nat
  | none => 0
  | some .unknownOpcode => 1
  | some .negativeAddress => 2
  | some .immediateWriteTarget => 3
  | some .invalidMode => 4
  | some .arithmeticOverflow => 5
  | some .capacityExceeded => 6
  | some .deviceError => 7

end Sys2Proof.Machine
end

