-- ==== Sys2Proof/Machine/Operands.lean ====
section
/-! DEFINITION. The operand resolver (R110 to R117): the three addressing modes, for read and write operands. -/

namespace Sys2Proof.Machine

/-- The parameter word of operand `k` (R112), without the access's check and growth. -/
def State.param (s : State) (k : Nat) : Int := s.mem.read (s.ip + k)

/-- The effective address a mode makes of a parameter word (R114); Immediate makes none. The sum is exact (R117). -/
def effectiveAddress (rb : Int) (m : Mode) (p : Int) : Option Int :=
  match m with
  | .position => some p
  | .immediate => none
  | .relative => some (rb + p)

/-- `val(k)` (R110). -/
def readOperand (m : Mode) (k : Nat) (s : State) : Except FatalEvent (Int × State) :=
  match memRead (s.ip + k : Nat) s with
  | .error e => .error e
  | .ok (p, s1) =>
    match effectiveAddress s.rb m p with
    | none => .ok (p, s1)
    | some a => memRead a s1

/-- `addr(k)` (R111): the destination is range-checked here, and written only in the execute phase. An Immediate write operand never passes the
decoder (R105); given one all the same, the condition R82 names is raised (entry 12). -/
def writeOperand (m : Mode) (k : Nat) (s : State) : Except FatalEvent (Nat × State) :=
  match memRead (s.ip + k : Nat) s with
  | .error e => .error e
  | .ok (p, s1) =>
    match effectiveAddress s.rb m p with
    | none => .error ⟨.immediateWriteTarget, s.instrWord⟩
    | some a =>
      match checkAddr s.cfg a with
      | .error e => .error e
      | .ok n => .ok (n, s1)

/-- The effective address of operand `k` in state `s`. -/
def State.operandAddress (s : State) (m : Mode) (k : Nat) : Option Int :=
  effectiveAddress s.rb m (s.param k)

/-- The value of read operand `k` when its addresses are valid (R114). -/
def State.operandValue (s : State) (m : Mode) (k : Nat) : Int :=
  match s.operandAddress m k with
  | none => s.param k
  | some a => s.mem.read a.toNat

/-- The addresses resolving operand `k` looks at, in order (R114): its parameter word, and its effective address where there is one. -/
def State.operandAccesses (s : State) (m : Mode) (k : Nat) : List Int :=
  match s.operandAddress m k with
  | none => [((s.ip + k : Nat) : Int)]
  | some a => [((s.ip + k : Nat) : Int), a]

/-! The operand frames instructions share. Operands are resolved in order, each completely before the next, all before the execute
phase (R113). -/

/-- Two read operands and a write operand; `f` is the execute phase's result, stored at the destination (R100, format F3). -/
def readReadWrite (f : State → Int → Int → Except FatalEvent Int) (m1 m2 m3 : Mode) (s : State) : Except FatalEvent State :=
  match readOperand m1 1 s with
  | .error e => .error e
  | .ok (a, s1) =>
    match readOperand m2 2 s1 with
    | .error e => .error e
    | .ok (b, s2) =>
      match writeOperand m3 3 s2 with
      | .error e => .error e
      | .ok (d, s3) =>
        match f s3 a b with
        | .error e => .error e
        | .ok r => .ok ((s3.memWrite d r).advance 4)

/-- Two read operands, the value tested and the target; the jump is taken when `cond` holds (format F2). A taken jump to a negative target
raises at the jump (R172); any other target is accepted (R173). -/
def readReadJump (cond : Int → Bool) (m1 m2 : Mode) (s : State) : Except FatalEvent State :=
  match readOperand m1 1 s with
  | .error e => .error e
  | .ok (a, s1) =>
    match readOperand m2 2 s1 with
    | .error e => .error e
    | .ok (t, s2) =>
      if cond a then
        if t < 0 then .error ⟨.negativeAddress, t⟩ else .ok { s2 with ip := t.toNat }
      else .ok (s2.advance 3)

end Sys2Proof.Machine
end

