-- ==== Sys2Proof/Machine/Arithmetic.lean ====
section
/-! DEFINITION. ADD and MUL (41_arithmetic.md). -/

namespace Sys2Proof.Machine

/-- ADD (R130): `dst = a + b`, exact or fatal (R132). -/
def execAdd (m1 m2 m3 : Mode) (s : State) : Host.Outcome State Fault Refusal :=
  commit s (readReadWrite (fun s3 a b => wordResult s3 (a + b)) m1 m2 m3 s)

/-- MUL (R131): `dst = a * b`, exact or fatal (R132). -/
def execMul (m1 m2 m3 : Mode) (s : State) : Host.Outcome State Fault Refusal :=
  commit s (readReadWrite (fun s3 a b => wordResult s3 (a * b)) m1 m2 m3 s)

end Sys2Proof.Machine
end

