-- ==== Sys2Proof/Machine/BaseHalt.lean ====
section
/-! DEFINITION. ADJUST-BASE and HALT (45_base_halt.md). -/

namespace Sys2Proof.Machine

/-- The execute phase of ADJUST-BASE on its resolved operand. -/
def adjustBaseBy (a : Int) (s1 : State) : Except FatalEvent State :=
  match wordResult s1 (s1.rb + a) with
  | .error e => .error e
  | .ok r => .ok ({ s1 with rb := r }.advance 2)

/-- ADJUST-BASE (R190): `RelativeBase += a`, exact or fatal (R132). In Relative mode the operand is read with the old RB. -/
def execAdjustBase (m1 : Mode) (s : State) : Host.Outcome State Fault Refusal :=
  match readOperand m1 1 s with
  | .error e => commit s (.error e)
  | .ok (a, s1) => commit s (adjustBaseBy a s1)

/-- HALT (R191): RUN_STATE becomes Halted and nothing else changes, IP included. -/
def execHalt (s : State) : Host.Outcome State Fault Refusal :=
  .next s.halt

end Sys2Proof.Machine
end

