-- ==== Sys2Proof/Machine/Flags.lean ====
section
/-! DEFINITION. The core has no flags and no condition codes (R29). What stands in their place: the words the comparisons write and the tests
the jumps make (R133, R135). -/

namespace Sys2Proof.Machine

/-- The result of LESS-THAN, a signed comparison of whole words (R180). -/
def lessThanWord (a b : Int) : Int := if a < b then 1 else 0

/-- The result of EQUALS (R181). -/
def equalsWord (a b : Int) : Int := if a = b then 1 else 0

/-- What JUMP-IF-TRUE tests: any word but 0, negative ones included (R170). -/
def testNonZero (a : Int) : Bool := a != 0

/-- What JUMP-IF-FALSE tests: exactly the word 0 (R171). -/
def testZero (a : Int) : Bool := a == 0

end Sys2Proof.Machine
end

