-- ==== Sys2Proof/Machine/Compare.lean ====
section
/-! DEFINITION. LESS-THAN and EQUALS (44_compare.md). -/

namespace Sys2Proof.Machine

/-- LESS-THAN (R180). Its result is always a word, so it raises nothing of its own. -/
def execLessThan (m1 m2 m3 : Mode) (s : State) : Host.Outcome State Fault Refusal :=
  commit s (readReadWrite (fun _ a b => .ok (lessThanWord a b)) m1 m2 m3 s)

/-- EQUALS (R181). -/
def execEquals (m1 m2 m3 : Mode) (s : State) : Host.Outcome State Fault Refusal :=
  commit s (readReadWrite (fun _ a b => .ok (equalsWord a b)) m1 m2 m3 s)

end Sys2Proof.Machine
end

