-- ==== Sys2Proof/Machine/Io.lean ====
section
/-! DEFINITION. The I/O interface arbiter (R145 to R159), INPUT and OUTPUT (42_io.md). -/

namespace Sys2Proof.Machine

/-- `ChanRead()` (R146), answered by the channel kind of the instance (R148): the answer and the channel after it. `none`: the channel has not
answered yet (R150). A Buffered channel answers Empty exactly when INQ is empty (R151, R159); an Interactive one never answers Empty
(R150); a Device answers anything (R153). -/
def chanRead (kind : ChannelKind) (c : Channel) : Option (ReadAnswer × Channel) :=
  match kind with
  | .interactive =>
    match c.prompt with
    | [] => none
    | v :: rest => some (.value v, { c with prompt := rest })
  | .buffered =>
    match c.inq with
    | [] => some (.empty, c)
    | v :: rest => some (.value v, { c with inq := rest })
  | .device =>
    match c.deviceReads with
    | [] => none
    | a :: rest => some (a, { c with deviceReads := rest })

/-- `ChanWrite(v)` (R147): the answer and the channel after it. `none`: the channel holds the value back (a Device that has not answered, or a
Buffered channel whose queue has a finite capacity and is full: R147, U9). -/
def chanWrite (cfg : Config) (v : Int) (c : Channel) : Option (WriteAnswer × Channel) :=
  match cfg.channelKind with
  | .interactive => some (.ok, { c with emitted := c.emitted ++ [v] })
  | .buffered => if below c.outq.length cfg.outqCap then some (.ok, { c with outq := c.outq ++ [v] }) else none
  | .device =>
    match c.deviceWrites with
    | [] => none
    | .ok :: rest => some (.ok, { c with deviceWrites := rest, emitted := c.emitted ++ [v] })
    | .error e :: rest => some (.error e, { c with deviceWrites := rest })

/-- The execute phase of INPUT: `s` is the state the step began in, `s1` the state after the destination `d` was resolved. On Empty and on Error
nothing of the instruction is kept (R102, R154, R212); the answer itself has been given (entry 7). With no answer the step is held and
nothing changes (R150, R215; entry 6). -/
def inputTo (d : Nat) (s1 s : State) : State :=
  match chanRead s.cfg.channelKind s.chan with
  | none => s
  | some (.value v, c) => { s1.memWrite d v with chan := c }.advance 2
  | some (.empty, c) => { s with chan := c }.suspend
  | some (.error e, c) => { s with chan := c }.enterFatal ⟨.deviceError, e⟩

/-- INPUT (R140). The destination is resolved and range-checked before the channel is asked (R113). -/
def execInput (m1 : Mode) (s : State) : Host.Outcome State Fault Refusal :=
  match writeOperand m1 1 s with
  | .error e => commit s (.error e)
  | .ok (d, s1) => .next (inputTo d s1 s)

/-- The execute phase of OUTPUT, as `inputTo`. OUTPUT never suspends (R141). -/
def outputWord (a : Int) (s1 s : State) : State :=
  match chanWrite s.cfg a s.chan with
  | none => s
  | some (.ok, c) => { s1 with chan := c }.advance 2
  | some (.error e, c) => { s with chan := c }.enterFatal ⟨.deviceError, e⟩

/-- OUTPUT (R141). -/
def execOutput (m1 : Mode) (s : State) : Host.Outcome State Fault Refusal :=
  match readOperand m1 1 s with
  | .error e => commit s (.error e)
  | .ok (a, s1) => .next (outputWord a s1 s)

end Sys2Proof.Machine
end

