-- ==== Sys2Proof/Machine/Jumps.lean ====
section
/-! DEFINITION. JUMP-IF-TRUE and JUMP-IF-FALSE (43_jumps.md). -/

namespace Sys2Proof.Machine

/-- JUMP-IF-TRUE (R170). -/
def execJumpIfTrue (m1 m2 : Mode) (s : State) : Host.Outcome State Fault Refusal :=
  commit s (readReadJump testNonZero m1 m2 s)

/-- JUMP-IF-FALSE (R171). -/
def execJumpIfFalse (m1 m2 : Mode) (s : State) : Host.Outcome State Fault Refusal :=
  commit s (readReadJump testZero m1 m2 s)

end Sys2Proof.Machine
end

