-- ==== Sys2Proof/Machine/Fetch.lean ====
section
/-! DEFINITION. The step of R100 in the state Running: fetch, decode with its checks, and the instruction. -/

namespace Sys2Proof.Machine

/-- Phase 1 of R100. The fetch's own growth of LEN is left to the instruction: a fetch at or beyond LEN reads 0 and faults, which keeps no
growth (R102, R173), and every parameter read grows LEN past IP (entry 9). -/
def fetchWord (s : State) : Except FatalEvent Int :=
  match checkAddr s.cfg s.ip with
  | .ok n => .ok (s.mem.read n)
  | .error e => .error e

/-- The cause code of each way a word can be illegal (R205). -/
def decodeCause : DecodeError → FaultCause
  | .unknownOpcode => .unknownOpcode
  | .invalidMode => .invalidMode
  | .immediateWriteTarget => .immediateWriteTarget

/-- One step of a Running instance (R100). -/
def stepRunning (s : State) : Host.Outcome State Fault Refusal :=
  match fetchWord s with
  | .error e => commit s (.error e)
  | .ok w =>
    match decode w with
    | .error e => commit s (.error ⟨decodeCause e, w⟩)
    | .ok i => exec i s

/-- The host's Step command (R247): resume first, one step if Running, nothing in a terminal state. -/
def stepCommand (s : State) : Host.Outcome State Fault Refusal :=
  match s.runState with
  | .running => stepRunning s
  | .awaitingInput => stepRunning s.resume
  | .halted => .next s
  | .fatal => .next s

/-- The four words of an instruction given as bits, stored where the next step fetches; LEN grows to hold them, and the instance is Running, for
a terminal one fetches nothing (entry 16). -/
def placeWords (s : State) (nbits w : Nat) : State :=
  { s with
    mem := s.mem.writeWords s.ip [wordOfBits nbits w 0, wordOfBits nbits w 1, wordOfBits nbits w 2, wordOfBits nbits w 3]
    len := max s.len (s.ip + 4)
    runState := .running }

end Sys2Proof.Machine
end

