-- ==== Sys2Proof/Machine/Step.lean ====
section
/-! DEFINITION. The machine's step: the host's Step command (R247), which executes one whole instruction (R100). -/

namespace Sys2Proof.Machine

/-- One step (R247). It always answers a next state: errors and the end of a run are run states (R101; entry 11). -/
def step (s : State) : Host.Outcome State Fault Refusal := stepCommand s

/-- `s` with an instruction, given as bits, stored where `step` fetches next. -/
def State.withFetchWord (s : State) (nbits w : Nat) : State := placeWords s nbits w

end Sys2Proof.Machine
end

