-- ==== Sys2Proof/Machine/Driver.lean ====
section
/-! DEFINITION. The host's side of one instance (70_reset_and_hazards.md): the program loader, Construct, Run, ReadState, AppendInput,
TakeOutput, and the arrival of the environment's answers. Step is `step`. No command writes IP, RB or M of a constructed instance and none
clears Fatal (R246). -/

namespace Sys2Proof.Machine

/-! The program text: `int ("," int)*` and an optional final line feed, `int` an optional `-` and one or more decimal digits (R243). -/

/-- The value of a decimal digit. -/
def digitValue (c : Char) : Option Nat :=
  if 48 ≤ c.toNat ∧ c.toNat ≤ 57 then some (c.toNat - 48) else none

/-- Decimal digits read onto `acc`, the most significant first. -/
def parseDigits : Nat → List Char → Option Nat
  | acc, [] => some acc
  | acc, c :: cs =>
    match digitValue c with
    | none => none
    | some d => parseDigits (acc * 10 + d) cs

/-- One or more decimal digits. -/
def parseNatural (cs : List Char) : Option Nat :=
  if cs = [] then none else parseDigits 0 cs

/-- One `int` of R243. Leading zeros and `-0` match the grammar and are read as the numbers they write. -/
def parseInteger : List Char → Option Int
  | [] => none
  | c :: cs =>
    if c = '-' then (parseNatural cs).map (fun (n : Nat) => -(n : Int))
    else (parseNatural (c :: cs)).map (fun (n : Nat) => (n : Int))

/-- The pieces between commas; an empty text is one empty piece. -/
def splitCommas : List Char → List (List Char)
  | [] => [[]]
  | c :: cs =>
    if c = ',' then [] :: splitCommas cs
    else
      match splitCommas cs with
      | [] => [[c]]
      | p :: ps => (c :: p) :: ps

/-- The text without one final line feed. -/
def dropFinalNewline : List Char → List Char
  | [] => []
  | c :: cs => if c = '\n' ∧ cs = [] then [] else c :: dropFinalNewline cs

/-- Every piece as an integer, or none. -/
def parsePieces : List (List Char) → Option (List Int)
  | [] => some []
  | p :: ps =>
    match parseInteger p, parsePieces ps with
    | some v, some vs => some (v :: vs)
    | _, _ => none

/-- The Program a text stands for: its i-th integer is `P[i]` (R243). -/
def parseProgram (text : List Char) : Option (List Int) :=
  parsePieces (splitCommas (dropFinalNewline text))

/-- Why a loader constructs no instance (R244). This is a host-side error, not a state of the core. The names, and which is reported when
several apply, are the model's choice (entry 27). -/
inductive LoadRefusal where
  | badText
  | notAWord
  | tooLong
  /-- A value the channel is to hold is not a word (R155). -/
  | channelNotWords
deriving DecidableEq, Repr

/-- Whether a Program fits: every element a word, and no more elements than addresses (R244). R244 names no error: that a Program which is both
is reported as not words is the model's choice (entry 27). -/
def checkProgram (cfg : Config) (prog : List Int) : Except LoadRefusal (List Int) :=
  if prog.all cfg.isWord = false then .error .notAWord
  else
    match cfg.cap with
    | none => .ok prog
    | some n => if prog.length ≤ n then .ok prog else .error .tooLong

/-- Whether a read answer carries a word (R154, R155). -/
def readAnswerOk (c : Config) : ReadAnswer → Bool
  | .value v => c.isWord v
  | .empty => true
  | .error e => c.isWord e

/-- Whether a write answer carries a word (R154). -/
def writeAnswerOk (c : Config) : WriteAnswer → Bool
  | .ok => true
  | .error e => c.isWord e

/-- Whether everything a channel holds, or will be answered, is a word (R154, R155). -/
def channelIsWords (cfg : Config) (c : Channel) : Bool :=
  c.inq.all cfg.isWord && c.outq.all cfg.isWord && c.prompt.all cfg.isWord && c.deviceReads.all (readAnswerOk cfg) &&
    c.deviceWrites.all (writeAnswerOk cfg) && c.emitted.all cfg.isWord

/-- Reset from a Program and a channel configuration (R240). The Program is copied into memory (R245). -/
def construct (cfg : Config) (chan : Channel) (prog : List Int) : State :=
  { State.reset with cfg := cfg, chan := chan, mem := Memory.writeWords [] 0 prog, len := prog.length }

/-- The Construct command (R246): reset from a Program that may be loaded (R244) and a channel that holds words (R155). Initial
queues longer than a finite capacity, of which the spec says nothing, are accepted (the model's choice, entry 26). -/
def constructCommand (cfg : Config) (chan : Channel) (prog : List Int) : Except LoadRefusal State :=
  match checkProgram cfg prog with
  | .error e => .error e
  | .ok ws => if channelIsWords cfg chan then .ok (construct cfg chan ws) else .error .channelNotWords

/-- Loading a program text and constructing an instance from it (R242 to R244). -/
def constructFromText (cfg : Config) (chan : Channel) (text : List Char) : Except LoadRefusal State :=
  match parseProgram text with
  | none => .error .badText
  | some prog => constructCommand cfg chan prog

/-! Run. -/

/-- How a Run under fuel ends. The fuel is no part of the architecture, and running out of it is no RUN_STATE (R248, U13; entry 14). -/
inductive RunResult where
  /-- Run returned: RUN_STATE is not Running. -/
  | returned (s : State)
  /-- The fuel ran out while the instance was Running. -/
  | outOfFuel (s : State)
  /-- A step was refused; no step is (entry 11). -/
  | refused (r : Refusal)
deriving DecidableEq, Repr

/-- `while RUN_STATE = Running: step()` (R248). -/
def runLoop : Nat → State → RunResult
  | 0, s => if s.runState = .running then .outOfFuel s else .returned s
  | k + 1, s =>
    if s.runState = .running then
      match stepRunning s with
      | .next t => runLoop k t
      | .refused r => .refused r
      | .fault r => nomatch r
    else .returned s

/-- Run (R248). -/
def run (fuel : Nat) (s : State) : RunResult := runLoop fuel s.resume

/-! ReadState, AppendInput, TakeOutput (R246). -/

/-- What ReadState returns (R246), the registers as their codes (R26, R205) and the whole memory array. -/
structure View where
  ip : Nat
  rb : Int
  runState : BitVec 2
  faultCause : Nat
  faultInfo : Int
  len : Nat
  cells : List Int
deriving DecidableEq, Repr

/-- ReadState of any one `M[a]` (R246), at LEN and beyond too; it grows nothing. `none`: there is no such address (R42). -/
def readCell (s : State) (a : Int) : Option Int :=
  match checkAddr s.cfg a with
  | .ok n => some (s.mem.read n)
  | .error _ => none

/-- ReadState (R246); it has no side effect and does not grow LEN. -/
def readState (s : State) : View :=
  { ip := s.ip, rb := s.rb, runState := s.runState.code, faultCause := faultCauseCode s.faultCause, faultInfo := s.faultInfo,
    len := s.len, cells := (List.range s.len).map s.mem.read }

/-- AppendInput (R156, R246): at the tail of INQ. `none`: the host has no such command, for the channel is not Buffered, or the value is not a word
(R155), or the queue is at its capacity (entry 17). -/
def appendInput (v : Int) (s : State) : Option State :=
  if s.cfg.channelKind = .buffered ∧ s.cfg.isWord v = true ∧ below s.chan.inq.length s.cfg.inqCap = true then
    some { s with chan := { s.chan with inq := s.chan.inq ++ [v] } }
  else none

/-- What TakeOutput reports (R246), for an instance (`σ` is State) and for a member of a network. -/
inductive TakeResult (σ : Type) where
  | taken (v : Int) (s : σ)
  | queueEmpty
  /-- The channel is not Buffered: the host has no such command. -/
  | notAvailable
deriving DecidableEq, Repr

/-- TakeOutput (R156, R246): the head of OUTQ. -/
def takeOutput (s : State) : TakeResult State :=
  if s.cfg.channelKind = .buffered then
    match s.chan.outq with
    | [] => .queueEmpty
    | v :: rest => .taken v { s with chan := { s.chan with outq := rest } }
  else .notAvailable

/-! The environment's answers arriving, each after the ones already there (entry 5). Values and codes are words (R154, R155). -/

/-- The user at the prompt supplies a value (R150). -/
def supplyPrompt (v : Int) (s : State) : Option State :=
  if s.cfg.channelKind = .interactive ∧ s.cfg.isWord v = true then
    some { s with chan := { s.chan with prompt := s.chan.prompt ++ [v] } }
  else none

/-- The device answers a `provide_input` (R153). -/
def supplyDeviceRead (a : ReadAnswer) (s : State) : Option State :=
  if s.cfg.channelKind = .device ∧ readAnswerOk s.cfg a = true then
    some { s with chan := { s.chan with deviceReads := s.chan.deviceReads ++ [a] } }
  else none

/-- The device answers an `accept_output` (R153). -/
def supplyDeviceWrite (a : WriteAnswer) (s : State) : Option State :=
  if s.cfg.channelKind = .device ∧ writeAnswerOk s.cfg a = true then
    some { s with chan := { s.chan with deviceWrites := s.chan.deviceWrites ++ [a] } }
  else none

end Sys2Proof.Machine
end

