-- ==== Sys2Proof/Machine/Network.lean ====
section
/-! DEFINITION. Several instances wired through shared queues (R59, R152, R224). Instances share queues and nothing else; the host's one
controlling thread issues the commands, and with CONCURRENT_INSTANCES any interleaving of whole steps is allowed (D28; entry 19). A network
the spec does not have (`accepted`) is refused by every command (entries 19 and 23). -/

namespace Sys2Proof.Machine

/-- The queues a Buffered instance is wired to, by number (R152): the one it reads and the one it writes. -/
structure Wiring where
  inQueue : Nat
  outQueue : Nat
deriving DecidableEq, Repr

/-- An instance of a network. A wired one has its queues in the network and its own `inq` and `outq` are not used (R30); one that is not wired,
of any kind, keeps its own channel and takes no part in any queue. -/
structure Member where
  vm : State
  wiring : Option Wiring := none
deriving DecidableEq, Repr

/-- A network of instances (R224) and its queues; the wiring is fixed when it is built (R152). -/
structure Network where
  members : List Member
  queues : List (List Int)
  /-- `CONCURRENT_INSTANCES` (R5, D28). -/
  concurrent : Bool := false
deriving DecidableEq, Repr

/-! Which networks there are. -/

/-- The contents of queue `k`. A network has no queue of a number at or above `queues.length`; that such a number reads as an empty queue
is the model's choice and is never used: `accepted` refuses a member wired to it (entry 23). -/
def Network.queue (n : Network) (k : Nat) : List Int := n.queues.getD k []

/-- The queues the members read, one entry for each wired member. -/
def Network.readers (n : Network) : List Nat := n.members.filterMap (fun m => m.wiring.map Wiring.inQueue)

/-- The queues the members write, one entry for each wired member. -/
def Network.writers (n : Network) : List Nat := n.members.filterMap (fun m => m.wiring.map Wiring.outQueue)

/-- Every queue has at most one writer and at most one reader among the instances (R152). -/
def Network.exclusive (n : Network) : Bool := decide n.readers.Nodup && decide n.writers.Nodup

/-- A wired member is Buffered (R30, R152) and its queues exist. The spec has no wiring to a queue that does not exist; refusing it is the
model's choice (entry 23). -/
def Network.wired (n : Network) (m : Member) : Bool :=
  match m.wiring with
  | none => true
  | some w =>
    decide (m.vm.cfg.channelKind = .buffered) && decide (w.inQueue < n.queues.length) && decide (w.outQueue < n.queues.length)

/-- What `m` writes is a word for `m'`, if `m'` reads it (R155): the two have one width (entry 23). -/
def Member.sameWidth (m m' : Member) : Bool :=
  match m.wiring, m'.wiring with
  | some w, some w' => decide (w.outQueue = w'.inQueue → m.vm.cfg.width = m'.vm.cfg.width)
  | some _, none => true
  | none, _ => true

/-- The networks the model has. The discipline of R152 is asked of every network, CONCURRENT_INSTANCES or not (U8 asks it of the
concurrent ones). An instance that reads the queue it writes is accepted: it is that queue's one writer and one reader, but R152 speaks of another
instance's input only, so this is the model's choice (entry 29). -/
def Network.accepted (n : Network) : Bool :=
  n.exclusive && n.members.all n.wired && n.members.all (fun m => n.members.all m.sameWidth)

/-- What stands in a member's queues are words of its width (R155). -/
def Network.queuesAreWords (n : Network) : Bool :=
  n.members.all fun m =>
    match m.wiring with
    | none => true
    | some w => (n.queue w.inQueue).all m.vm.cfg.isWord && (n.queue w.outQueue).all m.vm.cfg.isWord

/-- Why a host cannot build a network; a host-side error like R244's. A wrong wiring is reported first (entry 27). -/
inductive WiringRefusal where
  /-- The wiring is none the spec has (`accepted`). -/
  | badWiring
  /-- A queue holds a value that is not a word (R155). -/
  | notAWord
deriving DecidableEq, Repr

/-- The host builds the instances' network, with the initial values of its queues (R152). Initial values beyond a finite capacity of the
instances wired to the queue, of which the spec says nothing, are accepted (the model's choice, entry 26). -/
def Network.build (members : List Member) (queues : List (List Int)) (concurrent : Bool) : Except WiringRefusal Network :=
  let n : Network := { members := members, queues := queues, concurrent := concurrent }
  if n.accepted = false then .error .badWiring
  else if n.queuesAreWords = false then .error .notAWord
  else .ok n

/-! A step of one member. -/

/-- A member's instance, with the shared queues in the place of its channel's if it is wired. -/
def Network.attach (n : Network) (m : Member) : State :=
  match m.wiring with
  | none => m.vm
  | some w => { m.vm with chan := { m.vm.chan with inq := n.queue w.inQueue, outq := n.queue w.outQueue } }

/-- The queues after a step from `attach` to `t`: what the member took is gone from its input queue, and what it wrote stands at the end of
its output queue (the same queue may be both, by the model's choice in `accepted`; entry 29). -/
def Network.queuesAfter (n : Network) (w : Wiring) (t : State) : List (List Int) :=
  let taken := n.queues.set w.inQueue t.chan.inq
  let written := t.chan.outq.drop (n.queue w.outQueue).length
  taken.set w.outQueue (taken.getD w.outQueue [] ++ written)

/-- The network after member `i`, that was `m`, stepped from `attach` to state `t`. Of a queue that does not exist nothing would be kept; no
accepted network has a member wired to one (entry 23). -/
def Network.detach (n : Network) (i : Nat) (m : Member) (t : State) : Network :=
  match m.wiring with
  | none => { n with members := n.members.set i { m with vm := t } }
  | some w =>
    { n with
      members := n.members.set i { m with vm := { t with chan := { t.chan with inq := m.vm.chan.inq, outq := m.vm.chan.outq } } }
      queues := n.queuesAfter w t }

/-- One step of member `i`, without asking whether the network is accepted; nothing for a member that does not exist. -/
def Network.stepMember (n : Network) (i : Nat) : Network :=
  match n.members[i]? with
  | none => n
  | some m =>
    match Sys2Proof.Machine.step (n.attach m) with
    | .next t => n.detach i m t
    | .refused _ => n
    | .fault r => nomatch r

/-! The host's commands to member `i`. `none`: the host has no such command (the network is not accepted, or there is no such member). -/

/-- The network is accepted and has a member `i`. -/
def Network.admits (n : Network) (i : Nat) : Bool := n.accepted && decide (i < n.members.length)

/-- The Step command (R247). -/
def Network.step (n : Network) (i : Nat) : Option Network :=
  if n.admits i then some (n.stepMember i) else none

/-- The ReadState command (R246). -/
def Network.readState (n : Network) (i : Nat) : Option View :=
  if n.admits i then n.members[i]?.map (fun m => Sys2Proof.Machine.readState m.vm) else none

/-- ReadState of any one cell `M[a]` (R246). `none` too where there is no such address (R42). -/
def Network.readCell (n : Network) (i : Nat) (a : Int) : Option Int :=
  if n.admits i then n.members[i]?.bind (fun m => Sys2Proof.Machine.readCell m.vm a) else none

/-- The AppendInput command (R156, R246), at the tail of the queue the member reads; as for a lone instance, the value is a
word. That the host may append at any time, and to a queue an instance writes, is the model's choice: R152 speaks of initial values only (entry
28). -/
def Network.appendInput (n : Network) (i : Nat) (v : Int) : Option Network :=
  if n.admits i then
    match n.members[i]? with
    | none => none
    | some m =>
      match Sys2Proof.Machine.appendInput v (n.attach m), m.wiring with
      | none, _ => none
      | some t, none => some { n with members := n.members.set i { m with vm := t } }
      | some t, some w => some { n with queues := n.queues.set w.inQueue t.chan.inq }
  else none

/-- The host appends to queue `k`, an initial value or a further one (R152, R156; entry 28): AppendInput to the member that
reads it. -/
def Network.append (n : Network) (k : Nat) (v : Int) : Option Network :=
  match n.members.findIdx? (fun m => decide (m.wiring.map Wiring.inQueue = some k)) with
  | none => none
  | some i => n.appendInput i v

/-- The TakeOutput command (R156, R246): the head of the queue the member writes. If an instance reads that queue the word is gone from its INQ
too, for the two are one queue (R152; entry 24). -/
def Network.takeOutput (n : Network) (i : Nat) : TakeResult Network :=
  if n.admits i then
    match n.members[i]? with
    | none => .notAvailable
    | some m =>
      match Sys2Proof.Machine.takeOutput (n.attach m), m.wiring with
      | .taken v t, none => .taken v { n with members := n.members.set i { m with vm := t } }
      | .taken v t, some w => .taken v { n with queues := n.queues.set w.outQueue t.chan.outq }
      | .queueEmpty, _ => .queueEmpty
      | .notAvailable, _ => .notAvailable
  else .notAvailable

/-! Run. -/

/-- How a Run of a member ends (entry 14). -/
inductive NetworkRun where
  /-- Run returned: the member is not Running. -/
  | returned (n : Network)
  /-- The fuel ran out (U13). -/
  | outOfFuel (n : Network)
  /-- The host has no such command. -/
  | refused
deriving DecidableEq, Repr

/-- Member `i`'s RUN_STATE; a member that does not exist is read as Halted, and no command gets that far (`admits`). -/
def Network.runStateOf (n : Network) (i : Nat) : RunState :=
  match n.members[i]? with
  | none => .halted
  | some m => m.vm.runState

/-- Resume member `i` (R213); nothing for a member that does not exist. -/
def Network.resume (n : Network) (i : Nat) : Network :=
  match n.members[i]? with
  | none => n
  | some m => { n with members := n.members.set i { m with vm := m.vm.resume } }

/-- `while RUN_STATE = Running: step()` for member `i`. -/
def Network.runLoop : Nat → Nat → Network → NetworkRun
  | 0, i, n => if n.runStateOf i = .running then .outOfFuel n else .returned n
  | k + 1, i, n => if n.runStateOf i = .running then Network.runLoop k i (n.stepMember i) else .returned n

/-- The Run command (R248) for member `i`. -/
def Network.run (fuel i : Nat) (n : Network) : NetworkRun :=
  if n.admits i then Network.runLoop fuel i (n.resume i) else .refused

/-- The host's one controlling thread running members in the order of a list; repeated lists are its round robin (R59, R224). -/
def Network.runEach (fuel : Nat) : List Nat → Network → NetworkRun
  | [], n => .returned n
  | i :: is, n =>
    match Network.run fuel i n with
    | .returned n' => Network.runEach fuel is n'
    | .outOfFuel n' => .outOfFuel n'
    | .refused => .refused

/-- Concurrent instances: one step of the named member at a time, in any order (D28). `none` when the network is not one that may run so. -/
def Network.interleave (n : Network) (schedule : List Nat) : Option Network :=
  if n.concurrent = true ∧ n.accepted = true then some (schedule.foldl Network.stepMember n) else none

/-! The end of a network's run. -/

/-- The network's run has ended successfully (R251): every instance is Halted. -/
def Network.finished (n : Network) : Bool := n.members.all (fun m => decide (m.vm.runState = .halted))

/-- Whether a member is AwaitingInput with an empty input queue, its own or a shared one. R224 speaks of input queues only: that a Device member,
which has none and whose device may answer later, is never counted as such is the model's choice (entry 25). -/
def Network.starved (n : Network) (m : Member) : Bool :=
  decide (m.vm.runState = .awaitingInput) && decide (m.vm.cfg.channelKind = .buffered) && decide ((n.attach m).chan.inq = [])

/-- No Run can make progress (R224): some instance is not Halted, and every such one is AwaitingInput with an empty input queue. -/
def Network.deadlocked (n : Network) : Bool :=
  !n.finished && n.members.all (fun m => decide (m.vm.runState = .halted) || n.starved m)

end Sys2Proof.Machine
end

