-- ==== Sys2Proof/Safety.lean ====
section
/-! DEFINITION. The words statements are written in: valid addresses, the accesses and the first fault of an instruction as the spec lists
them (independently of how the meanings thread the state), the invariant of a VM instance, and how a run ends. -/

namespace Sys2Proof.Machine

/-! How a run ends (R251). A Fatal state is never a successful end (R208), and AwaitingInput is no end. -/

/-- The run has ended as the program meant it. -/
def State.succeeded (s : State) : Bool := decide (s.runState = .halted)

/-- The run was aborted. -/
def State.failed (s : State) : Bool := decide (s.runState = .fatal)

/-! Addresses and accesses. -/

/-- A valid address (R42). -/
abbrev ValidAddr (c : Config) (a : Int) : Prop := 0 ≤ a ∧ below a.toNat c.cap = true

/-- A read operand whose accesses are all valid. -/
abbrev ReadLegal (s : State) (m : Mode) (k : Nat) : Prop := ∀ a ∈ s.operandAccesses m k, ValidAddr s.cfg a

/-- A write operand whose accesses are all valid; its mode is not Immediate (R82). -/
abbrev WriteLegal (s : State) (m : Mode) (k : Nat) : Prop := m ≠ .immediate ∧ ReadLegal s m k

/-- The address of write operand `k` once it is known to be valid (R111). -/
def State.destination (s : State) (m : Mode) (k : Nat) : Nat := ((s.operandAddress m k).getD 0).toNat

/-- The modes of the operands an instruction has, by position, in the order they are resolved (R76, R113). -/
def Instr.operands : Instr → List (Mode × Nat)
  | .add m1 m2 m3 => [(m1, 1), (m2, 2), (m3, 3)]
  | .mul m1 m2 m3 => [(m1, 1), (m2, 2), (m3, 3)]
  | .input m1 _ _ => [(m1, 1)]
  | .output m1 _ _ => [(m1, 1)]
  | .jumpIfTrue m1 m2 _ => [(m1, 1), (m2, 2)]
  | .jumpIfFalse m1 m2 _ => [(m1, 1), (m2, 2)]
  | .lessThan m1 m2 m3 => [(m1, 1), (m2, 2), (m3, 3)]
  | .equals m1 m2 m3 => [(m1, 1), (m2, 2), (m3, 3)]
  | .adjustBase m1 _ _ => [(m1, 1)]
  | .halt _ _ _ => []

/-- The addresses an instruction accesses, in order: the fetch, then each operand's (R50). The store of a write operand is the last access its
position lists. -/
def accesses (i : Instr) (s : State) : List Int :=
  (s.ip : Int) :: (Instr.operands i).flatMap (fun p => s.operandAccesses p.1 p.2)

/-- LEN after accesses at valid addresses commit: the maximum of the old LEN and `a + 1` over all of them (R47). -/
def State.lenAfter (s : State) (as : List Int) : Nat := as.foldl (fun l a => max l (a.toNat + 1)) s.len

/-- The address an instruction stores to, for the instructions that have a write operand (R50, R111). -/
def storedAddress (i : Instr) (s : State) : Option Int :=
  match i with
  | .add _ _ m3 => s.operandAddress m3 3
  | .mul _ _ m3 => s.operandAddress m3 3
  | .input m1 _ _ => s.operandAddress m1 1
  | .output _ _ _ => none
  | .jumpIfTrue _ _ _ => none
  | .jumpIfFalse _ _ _ => none
  | .lessThan _ _ m3 => s.operandAddress m3 3
  | .equals _ _ m3 => s.operandAddress m3 3
  | .adjustBase _ _ _ => none
  | .halt _ _ _ => none

/-! The order of faults (R118, R207). -/

/-- What an access at `a` raises, if anything (R45, R46). -/
def addrFault (c : Config) (a : Int) : Option FatalEvent :=
  if ValidAddr c a then none
  else if a < 0 then some ⟨.negativeAddress, a⟩
  else some ⟨.capacityExceeded, a⟩

/-- What a result raises when it is stored (R132). -/
def overflowFault (s : State) (r : Int) : Option FatalEvent :=
  if s.cfg.isWord r = true then none else some ⟨.arithmeticOverflow, s.instrWord⟩

/-- What a jump raises when it is taken to `t` (R172). -/
def targetFault (taken : Prop) [Decidable taken] (t : Int) : Option FatalEvent :=
  if taken ∧ t < 0 then some ⟨.negativeAddress, t⟩ else none

/-- The execute phase's own condition, the channel's aside (R118 item 4). -/
def executeFault (i : Instr) (s : State) : Option FatalEvent :=
  match i with
  | .add m1 m2 _ => overflowFault s (s.operandValue m1 1 + s.operandValue m2 2)
  | .mul m1 m2 _ => overflowFault s (s.operandValue m1 1 * s.operandValue m2 2)
  | .input _ _ _ => none
  | .output _ _ _ => none
  | .jumpIfTrue m1 m2 _ => targetFault (s.operandValue m1 1 ≠ 0) (s.operandValue m2 2)
  | .jumpIfFalse m1 m2 _ => targetFault (s.operandValue m1 1 = 0) (s.operandValue m2 2)
  | .lessThan _ _ _ => none
  | .equals _ _ _ => none
  | .adjustBase m1 _ _ => overflowFault s (s.rb + s.operandValue m1 1)
  | .halt _ _ _ => none

/-- The first condition met in the order of R118 items 3 and 4: operands 1, 2, 3, each its parameter read and then its effective address, then the
execute phase. `none` is no fault before the channel is asked. -/
def firstFault (i : Instr) (s : State) : Option FatalEvent :=
  (((Instr.operands i).flatMap (fun p => s.operandAccesses p.1 p.2)).map (addrFault s.cfg) ++ [executeFault i s]).findSome? id

/-- The words with opcode `op` and the mode digits of `i` decode to `i` (R71, R76). -/
def EncodedAs (op : Int) (i : Instr) : Prop :=
  ∀ w : Int, 0 ≤ w → w % 100 = op → w / 100 % 10 = i.modes.1.digit → w / 1000 % 10 = i.modes.2.1.digit →
    w / 10000 % 10 = i.modes.2.2.digit → decode w = .ok i

/-- `t` differs from `s` at most in the answers a device has given (entry 7): the architectural state is the same. -/
def SameButAnswers (s t : State) : Prop :=
  ∃ reads writes, t = { s with chan := { s.chan with deviceReads := reads, deviceWrites := writes } }

/-! The program text (R243), written out rather than parsed. -/

/-- One `int` of R243: an optional `-` and decimal digits, most significant first. -/
structure IntText where
  negative : Bool
  digits : List (Fin 10)
deriving DecidableEq, Repr

/-- Its characters. -/
def IntText.chars (t : IntText) : List Char :=
  (if t.negative then ['-'] else []) ++ t.digits.map (fun d => Char.ofNat (48 + d.val))

/-- The integer it writes. -/
def IntText.value (t : IntText) : Int :=
  let n : Nat := t.digits.foldl (fun acc d => 10 * acc + d.val) 0
  if t.negative then -(n : Int) else n

/-- Pieces with a comma between each and the next. -/
def joinCommas : List (List Char) → List Char
  | [] => []
  | [p] => p
  | p :: q :: rest => p ++ ',' :: joinCommas (q :: rest)

/-! The invariant of a VM instance. -/

/-- The widths the invariant is about (entry 1): with `W >= 3`, 0 and 1 are words and FAULT_INFO's `W+1` bits hold every address. -/
abbrev Config.WidthOk (c : Config) : Prop := ∀ w, c.width = some w → 3 ≤ w

/-- Everything the channel holds is a word (R155, R154). -/
structure ChannelWords (c : Config) (ch : Channel) : Prop where
  inq : ∀ v ∈ ch.inq, c.isWord v = true
  outq : ∀ v ∈ ch.outq, c.isWord v = true
  prompt : ∀ v ∈ ch.prompt, c.isWord v = true
  reads : ∀ a ∈ ch.deviceReads, readAnswerOk c a = true
  writes : ∀ a ∈ ch.deviceWrites, writeAnswerOk c a = true
  emitted : ∀ v ∈ ch.emitted, c.isWord v = true

/-- What the spec says of every state an instance can be in. -/
structure State.Inv (s : State) : Prop where
  width : Config.WidthOk s.cfg
  /-- the memory list is canonical -/
  memory : s.mem.wf = true
  /-- R24: `M[a] = 0` for all `a >= LEN` -/
  cellsBelowLen : ∀ p ∈ s.mem, p.1 < s.len
  /-- R6, R44: every cell holds a word -/
  cellsAreWords : ∀ p ∈ s.mem, s.cfg.isWord p.2 = true
  /-- R42, R244: LEN never passes the capacity -/
  lenWithinCap : ∀ n, s.cfg.cap = some n → s.len ≤ n
  /-- R21: `IP <= WORD_MAX + 4` -/
  ipRange : ∀ w, s.cfg.width = some w → (s.ip : Int) ≤ wordMax w + 4
  /-- R23 -/
  rbIsWord : s.cfg.isWord s.rb = true
  /-- R27: FAULT_CAUSE is 0 exactly while RUN_STATE is not Fatal -/
  causeIffFatal : s.faultCause ≠ none ↔ s.runState = .fatal
  /-- R28: FAULT_INFO is 0 while RUN_STATE is not Fatal -/
  infoZero : s.runState ≠ .fatal → s.faultInfo = 0
  /-- R28: FAULT_INFO has `W+1` bits -/
  infoRange : ∀ w, s.cfg.width = some w → -2 ^ w ≤ s.faultInfo ∧ s.faultInfo < 2 ^ w
  channel : ChannelWords s.cfg s.chan
  /-- R150: an instance on an Interactive channel never enters AwaitingInput -/
  interactiveNeverWaits : s.cfg.channelKind = .interactive → s.runState ≠ .awaitingInput
  /-- R212, R213: a suspended instance stands at an INPUT whose destination was resolved -/
  waitsAtInput : s.runState = .awaitingInput →
    ValidAddr s.cfg s.ip ∧ ∃ m1 m2 m3, decode s.instrWord = .ok (.input m1 m2 m3) ∧ WriteLegal s m1 1
  /-- R201: a halted instance stands at a HALT -/
  haltedAtHalt : s.runState = .halted →
    ValidAddr s.cfg s.ip ∧ ∃ m1 m2 m3, decode s.instrWord = .ok (.halt m1 m2 m3)

/-- What holds of a network: its wiring is one the spec has (R152), and every instance, its queues in place, meets the invariant. -/
structure Network.Inv (n : Network) : Prop where
  accepted : n.accepted = true
  members : ∀ m ∈ n.members, (n.attach m).Inv

end Sys2Proof.Machine
end

