-- ==== Sys2Proof/Certificates/Slice0/Obligations.lean ====
section
/-! DEFINITION. The statements for the provers. Each is a whole rule of the spec, or a property that follows from its rules; the docstring says
which. `firstFault`, `accesses`, `EncodedAs` and the other words are in Safety.lean. -/

open Sys2Proof Sys2Proof.Machine

/-! Encoding and decoding. -/

/-- Words of the decoder table of 95_test_vectors.md section 2, one or more for every instruction, decode as that table says. -/
def Obligations.SampleWordsDecode : Prop :=
  decode 1 = .ok (.add .position .position .position) ∧
  decode 22201 = .ok (.add .relative .relative .relative) ∧
  decode 1002 = .ok (.mul .position .immediate .position) ∧
  decode 203 = .ok (.input .relative .position .position) ∧
  decode 10004 = .ok (.output .position .position .immediate) ∧
  decode 2205 = .ok (.jumpIfTrue .relative .relative .position) ∧
  decode 1006 = .ok (.jumpIfFalse .position .immediate .position) ∧
  decode 1107 = .ok (.lessThan .immediate .immediate .position) ∧
  decode 21108 = .ok (.equals .immediate .immediate .relative) ∧
  decode 109 = .ok (.adjustBase .immediate .position .position) ∧
  decode 22299 = .ok (.halt .relative .relative .relative) ∧
  decode 100001 = .ok (.add .position .position .position) ∧
  decode 398 = .error .unknownOpcode ∧
  decode (-99) = .error .unknownOpcode ∧
  decode 30103 = .error .invalidMode ∧
  decode 103 = .error .immediateWriteTarget

/-- A word decodes to an instruction exactly when the instruction is well formed and the word is its canonical word with any digits at 10^5 and above (R71:
"Equivalently `w = opcode + 100*mode1 + 1000*mode2 + 10000*mode3 + 100000*h` with `h >= 0`"). -/
def Obligations.DecodeInvertsEncode : Prop :=
  ∀ (w : Int) (i : Instr), decode w = .ok i ↔ i.wellFormed = true ∧ ∃ h : Nat, w = encodeWord i + 100000 * h

/-- R83: the decimal digits at positions 5 and above have no effect, legal word or not, and the canonical word of an instruction is below 100000. -/
def Obligations.HighDigitsHaveNoEffect : Prop :=
  (∀ w : Int, 0 ≤ w → decode w = decode (w % 100000)) ∧
  (∀ i : Instr, 0 ≤ encodeWord i ∧ encodeWord i < 100000)

/-- R105: of the ways a word can be illegal, the first in the order negative, opcode, mode digits, write operand decides the cause; the step raises it
with the word, touching no parameter and keeping all else (R79 to R82); a word none of these applies to is an instruction. -/
def Obligations.IllegalWordFaultsInOrder : Prop :=
  ∀ s : State, s.runState = .running → ValidAddr s.cfg s.ip →
    let w := s.instrWord
    let known := w % 100 ∈ ([1, 2, 3, 4, 5, 6, 7, 8, 9, 99] : List Int)
    let modesOk := w / 100 % 10 ≤ 2 ∧ w / 1000 % 10 ≤ 2 ∧ w / 10000 % 10 ≤ 2
    let immediateWrite := (w % 100 ∈ ([1, 2, 7, 8] : List Int) ∧ w / 10000 % 10 = 1) ∨ (w % 100 = 3 ∧ w / 100 % 10 = 1)
    (w < 0 → step s = .next (s.enterFatal ⟨.unknownOpcode, w⟩)) ∧
    (0 ≤ w → ¬ known → step s = .next (s.enterFatal ⟨.unknownOpcode, w⟩)) ∧
    (0 ≤ w → known → ¬ modesOk → step s = .next (s.enterFatal ⟨.invalidMode, w⟩)) ∧
    (0 ≤ w → known → modesOk → immediateWrite → step s = .next (s.enterFatal ⟨.immediateWriteTarget, w⟩)) ∧
    (0 ≤ w → known → modesOk → ¬ immediateWrite → ∃ i, decode w = .ok i ∧ step s = exec i s)

/-- An instruction with its parameters, wherever it stands in a stream of words, decodes to itself, its parameters and the words after it; it has as many
parameters as its format says (R70, R72, R75, R76). -/
def Obligations.StreamDecodeReturnsOperandsAndRest : Prop :=
  (∀ m1 m2 m3 : Mode,
    (∀ i ∈ [Instr.add m1 m2 m3, .mul m1 m2 m3, .lessThan m1 m2 m3, .equals m1 m2 m3], i.paramCount = 3) ∧
    (∀ i ∈ [Instr.jumpIfTrue m1 m2 m3, .jumpIfFalse m1 m2 m3], i.paramCount = 2) ∧
    (∀ i ∈ [Instr.input m1 m2 m3, .output m1 m2 m3, .adjustBase m1 m2 m3], i.paramCount = 1) ∧
    (Instr.halt m1 m2 m3).paramCount = 0) ∧
  (∀ (i : Instr) (params rest : List Int), i.wellFormed = true → params.length = i.paramCount →
    (encode i params).length = 1 + i.paramCount ∧ decodeWords (encode i params ++ rest) = .ok (i, params, rest))

/-! The step. -/

/-- When the word at IP decodes, a step is the decoded instruction's meaning; an AwaitingInput instance is Running first (R100, R213, R247). -/
def Obligations.StepRunsTheDecodedInstruction : Prop :=
  ∀ (s : State) (i : Instr), ValidAddr s.cfg s.ip → decode s.instrWord = .ok i →
    (s.runState = .running → step s = exec i s) ∧
    (s.runState = .awaitingInput → step s = exec i { s with runState := .running })

/-- R101: a step of a Running instance has exactly one of four outcomes, told apart by the new RUN_STATE. What a suspended or faulted step leaves is the
state before it, but for RUN_STATE, the fault registers, and the answer a device has given (the model's own lists, entry 7). -/
def Obligations.StepHasOneOfFourOutcomes : Prop :=
  ∀ s : State, s.runState = .running → ∃ t, step s = .next t ∧
    ((t.runState = .running ∧ t.faultCause = s.faultCause ∧ t.faultInfo = s.faultInfo ∧ t.cfg = s.cfg) ∨
     (t = { s with runState := .halted } ∧ ∃ m1 m2 m3, decode s.instrWord = .ok (.halt m1 m2 m3)) ∨
     (∃ c, chanRead s.cfg.channelKind s.chan = some (.empty, c) ∧ t = { s with runState := .awaitingInput, chan := c } ∧
        SameButAnswers { s with runState := .awaitingInput } t ∧ ∃ m1 m2 m3, decode s.instrWord = .ok (.input m1 m2 m3)) ∨
     (∃ e, SameButAnswers (s.enterFatal e) t))

/-- R201: Halted is entered only by HALT, and all state is kept. -/
def Obligations.HaltedOnlyByHalt : Prop :=
  ∀ s t : State, s.runState ≠ .halted → step s = .next t →
    (t.runState = .halted ↔ (s.runState = .running ∨ s.runState = .awaitingInput) ∧ ValidAddr s.cfg s.ip ∧
      ∃ m1 m2 m3, decode s.instrWord = .ok (.halt m1 m2 m3)) ∧
    (t.runState = .halted → t = { s with runState := .halted })

/-- A Fatal transition keeps M, LEN, IP, RB, INQ and OUTQ as before the step, and the parameters (R102 (c), R204). -/
def Obligations.FaultedStepKeepsEverything : Prop :=
  ∀ s t : State, s.runState ≠ .fatal → step s = .next t → t.runState = .fatal →
    ∃ e : FatalEvent, t.faultCause = some e.cause ∧ t.faultInfo = e.info ∧ SameButAnswers (s.enterFatal e) t

/-- Halted and Fatal are terminal: any number of Steps and any Run leave them as they are (R200, R247, R248). -/
def Obligations.TerminalStatesNeverChange : Prop :=
  ∀ s : State, s.runState = .halted ∨ s.runState = .fatal →
    (∀ n, Host.Core.run Sys2Proof.core n s = .next s) ∧ (∀ fuel, run fuel s = .returned s)

/-- R118: the full order in which one step can fault. The fetch first; then the decoder's checks (their order is `IllegalWordFaultsInOrder`'s); then the
accesses of operands 1, 2, 3 and the execute phase in the order `firstFault` lists; last the channel, whose Error answer is then a fault and the only one, and
whose Empty answer to INPUT is a suspension and the only one. -/
def Obligations.FirstConditionMetIsReported : Prop :=
  ∀ s : State, s.runState = .running →
    (¬ ValidAddr s.cfg s.ip → step s = .next (s.enterFatal ⟨.capacityExceeded, s.ip⟩)) ∧
    (ValidAddr s.cfg s.ip → ∀ e, decode s.instrWord = .error e → step s = .next (s.enterFatal ⟨decodeCause e, s.instrWord⟩)) ∧
    (ValidAddr s.cfg s.ip → ∀ i, decode s.instrWord = .ok i →
      (∀ e, firstFault i s = some e → step s = .next (s.enterFatal e)) ∧
      let answersError (e : Int) : Prop :=
        ((∃ m1 m2 m3, i = .input m1 m2 m3) ∧ ∃ c, chanRead s.cfg.channelKind s.chan = some (.error e, c)) ∨
          ∃ m1 m2 m3 c, i = .output m1 m2 m3 ∧ chanWrite s.cfg (s.operandValue m1 1) s.chan = some (.error e, c)
      (firstFault i s = none → ∃ t, step s = .next t ∧
        (∀ e, answersError e → t.runState = .fatal ∧ t.faultCause = some .deviceError ∧ t.faultInfo = e) ∧
        (t.runState = .fatal → ∃ e, answersError e) ∧
        (t.runState = .awaitingInput ↔ (∃ m1 m2 m3, i = .input m1 m2 m3) ∧ ∃ c, chanRead s.cfg.channelKind s.chan = some (.empty, c))))

/-- Which instruction can raise which cause (the table of R206), for the conditions after the decoder. -/
def Obligations.InstructionsRaiseOnlyTheirCauses : Prop :=
  ∀ (s t : State) (i : Instr), i.wellFormed = true → s.runState = .running → exec i s = .next t → t.runState = .fatal →
    match i with
    | .add _ _ _ => t.faultCause ∈ [some .negativeAddress, some .arithmeticOverflow, some .capacityExceeded]
    | .mul _ _ _ => t.faultCause ∈ [some .negativeAddress, some .arithmeticOverflow, some .capacityExceeded]
    | .input _ _ _ => t.faultCause ∈ [some .negativeAddress, some .capacityExceeded, some .deviceError]
    | .output _ _ _ => t.faultCause ∈ [some .negativeAddress, some .capacityExceeded, some .deviceError]
    | .jumpIfTrue _ _ _ => t.faultCause ∈ [some .negativeAddress, some .capacityExceeded]
    | .jumpIfFalse _ _ _ => t.faultCause ∈ [some .negativeAddress, some .capacityExceeded]
    | .lessThan _ _ _ => t.faultCause ∈ [some .negativeAddress, some .capacityExceeded]
    | .equals _ _ _ => t.faultCause ∈ [some .negativeAddress, some .capacityExceeded]
    | .adjustBase _ _ _ => t.faultCause ∈ [some .negativeAddress, some .arithmeticOverflow, some .capacityExceeded]
    | .halt _ _ _ => False

/-! Memory. -/

/-- R43 and R44: an access at a negative address, or at the capacity or above, raises and changes nothing; any other access reads the cell or stores the word
there, and LEN grows to hold the address; the cells LEN grows over hold 0. A store leaves every other cell alone and the memory canonical. -/
def Obligations.MemoryAccessesReadStoreAndGrow : Prop :=
  ∀ (s : State) (a : Int),
    (a < 0 → memRead a s = .error ⟨.negativeAddress, a⟩ ∧ checkAddr s.cfg a = .error ⟨.negativeAddress, a⟩) ∧
    (∀ cap : Nat, s.cfg.cap = some cap → cap ≤ a →
      memRead a s = .error ⟨.capacityExceeded, a⟩ ∧ checkAddr s.cfg a = .error ⟨.capacityExceeded, a⟩) ∧
    (s.Inv → ∀ b, s.len ≤ b → s.mem.read b = 0) ∧
    (0 ≤ a → (∀ cap : Nat, s.cfg.cap = some cap → a < cap) →
      memRead a s = .ok (s.mem.read a.toNat, { s with len := max s.len (a.toNat + 1) }) ∧ checkAddr s.cfg a = .ok a.toNat ∧
      (s.mem.wf = true → ∀ v, (s.memWrite a.toNat v).mem.read a.toNat = v ∧ (s.memWrite a.toNat v).mem.wf = true ∧
        (∀ b, b ≠ a.toNat → (s.memWrite a.toNat v).mem.read b = s.mem.read b) ∧
        s.memWrite a.toNat v = { s with mem := (s.memWrite a.toNat v).mem, len := max s.len (a.toNat + 1) }))

/-! The instructions. Each statement is the whole instruction: its encoding, its first fault, and its effect, with everything else unchanged. -/

/-- R130. -/
def Obligations.AddStoresTheSum : Prop :=
  ∀ (s : State) (m1 m2 m3 : Mode), m3 ≠ .immediate →
    let i : Instr := .add m1 m2 m3
    EncodedAs 1 i ∧
    (∀ e, firstFault i s = some e → exec i s = .next (s.enterFatal e)) ∧
    (firstFault i s = none → exec i s = .next { s with
      mem := s.mem.write (s.destination m3 3) (s.operandValue m1 1 + s.operandValue m2 2)
      len := s.lenAfter (accesses i s)
      ip := s.ip + 4 })

/-- R131. -/
def Obligations.MulStoresTheProduct : Prop :=
  ∀ (s : State) (m1 m2 m3 : Mode), m3 ≠ .immediate →
    let i : Instr := .mul m1 m2 m3
    EncodedAs 2 i ∧
    (∀ e, firstFault i s = some e → exec i s = .next (s.enterFatal e)) ∧
    (firstFault i s = none → exec i s = .next { s with
      mem := s.mem.write (s.destination m3 3) (s.operandValue m1 1 * s.operandValue m2 2)
      len := s.lenAfter (accesses i s)
      ip := s.ip + 4 })

/-- R140: the destination is resolved first; then the channel's answer decides, and `c` is the channel once it has answered; that a device's Empty
or Error answer is then used up is the model's (entry 7). -/
def Obligations.InputFollowsTheChannelsAnswer : Prop :=
  ∀ (s : State) (m1 m2 m3 : Mode), m1 ≠ .immediate →
    let i : Instr := .input m1 m2 m3
    EncodedAs 3 i ∧
    (∀ e, firstFault i s = some e → exec i s = .next (s.enterFatal e)) ∧
    (firstFault i s = none →
      (∀ v c, chanRead s.cfg.channelKind s.chan = some (.value v, c) → exec i s = .next { s with
        mem := s.mem.write (s.destination m1 1) v
        len := s.lenAfter (accesses i s)
        ip := s.ip + 2
        chan := c }) ∧
      (∀ c, chanRead s.cfg.channelKind s.chan = some (.empty, c) → exec i s = .next { s with runState := .awaitingInput, chan := c }) ∧
      (∀ e c, chanRead s.cfg.channelKind s.chan = some (.error e, c) → exec i s = .next { s with
        runState := .fatal, faultCause := some .deviceError, faultInfo := e, chan := c }))

/-- R141. `c` is the channel once it has answered; that a device's Error answer is then used up is the model's (entry 7). -/
def Obligations.OutputWritesToTheChannel : Prop :=
  ∀ (s : State) (m1 m2 m3 : Mode),
    let i : Instr := .output m1 m2 m3
    EncodedAs 4 i ∧
    (∀ e, firstFault i s = some e → exec i s = .next (s.enterFatal e)) ∧
    (firstFault i s = none →
      (∀ c, chanWrite s.cfg (s.operandValue m1 1) s.chan = some (.ok, c) → exec i s = .next { s with
        len := s.lenAfter (accesses i s)
        ip := s.ip + 2
        chan := c }) ∧
      (∀ e c, chanWrite s.cfg (s.operandValue m1 1) s.chan = some (.error e, c) → exec i s = .next { s with
        runState := .fatal, faultCause := some .deviceError, faultInfo := e, chan := c }))

/-- While a channel has not answered, the INPUT or OUTPUT is held and nothing changes (R147, R150, R215); that the held step is a step to the same state is the
model's (entry 6). -/
def Obligations.UnansweredTransactionsHold : Prop :=
  (∀ (s : State) (m1 m2 m3 : Mode), m1 ≠ .immediate → firstFault (.input m1 m2 m3) s = none →
    chanRead s.cfg.channelKind s.chan = none → exec (.input m1 m2 m3) s = .next s) ∧
  (∀ (s : State) (m1 m2 m3 : Mode), firstFault (.output m1 m2 m3) s = none →
    chanWrite s.cfg (s.operandValue m1 1) s.chan = none → exec (.output m1 m2 m3) s = .next s)

/-- R170, with R172: a taken negative target is among `firstFault`'s conditions. -/
def Obligations.JumpIfTrueJumpsOnNonZero : Prop :=
  ∀ (s : State) (m1 m2 m3 : Mode),
    let i : Instr := .jumpIfTrue m1 m2 m3
    EncodedAs 5 i ∧
    (∀ e, firstFault i s = some e → exec i s = .next (s.enterFatal e)) ∧
    (firstFault i s = none → exec i s = .next { s with
      len := s.lenAfter (accesses i s)
      ip := if s.operandValue m1 1 ≠ 0 then (s.operandValue m2 2).toNat else s.ip + 3 })

/-- R171, with R172. -/
def Obligations.JumpIfFalseJumpsOnZero : Prop :=
  ∀ (s : State) (m1 m2 m3 : Mode),
    let i : Instr := .jumpIfFalse m1 m2 m3
    EncodedAs 6 i ∧
    (∀ e, firstFault i s = some e → exec i s = .next (s.enterFatal e)) ∧
    (firstFault i s = none → exec i s = .next { s with
      len := s.lenAfter (accesses i s)
      ip := if s.operandValue m1 1 = 0 then (s.operandValue m2 2).toNat else s.ip + 3 })

/-- R180. -/
def Obligations.LessThanStoresOneOrZero : Prop :=
  ∀ (s : State) (m1 m2 m3 : Mode), m3 ≠ .immediate →
    let i : Instr := .lessThan m1 m2 m3
    EncodedAs 7 i ∧
    (∀ e, firstFault i s = some e → exec i s = .next (s.enterFatal e)) ∧
    (firstFault i s = none → exec i s = .next { s with
      mem := s.mem.write (s.destination m3 3) (if s.operandValue m1 1 < s.operandValue m2 2 then 1 else 0)
      len := s.lenAfter (accesses i s)
      ip := s.ip + 4 })

/-- R181. -/
def Obligations.EqualsStoresOneOrZero : Prop :=
  ∀ (s : State) (m1 m2 m3 : Mode), m3 ≠ .immediate →
    let i : Instr := .equals m1 m2 m3
    EncodedAs 8 i ∧
    (∀ e, firstFault i s = some e → exec i s = .next (s.enterFatal e)) ∧
    (firstFault i s = none → exec i s = .next { s with
      mem := s.mem.write (s.destination m3 3) (if s.operandValue m1 1 = s.operandValue m2 2 then 1 else 0)
      len := s.lenAfter (accesses i s)
      ip := s.ip + 4 })

/-- R190. -/
def Obligations.AdjustBaseAddsToRb : Prop :=
  ∀ (s : State) (m1 m2 m3 : Mode),
    let i : Instr := .adjustBase m1 m2 m3
    EncodedAs 9 i ∧
    (∀ e, firstFault i s = some e → exec i s = .next (s.enterFatal e)) ∧
    (firstFault i s = none → exec i s = .next { s with
      rb := s.rb + s.operandValue m1 1
      len := s.lenAfter (accesses i s)
      ip := s.ip + 2 })

/-- R191. -/
def Obligations.HaltChangesRunStateOnly : Prop :=
  ∀ (s : State) (m1 m2 m3 : Mode),
    EncodedAs 99 (.halt m1 m2 m3) ∧ exec (.halt m1 m2 m3) s = .next { s with runState := .halted }

/-! Frames: what an instruction leaves unchanged. -/

/-- ADD, MUL, LESS-THAN and EQUALS leave every cell but the one stored to, RB, the channel and the parameters alone; the status registers change only on
Fatal, and then IP and memory do not. -/
def Obligations.FrameOfStoringInstructions : Prop :=
  ∀ (s t : State) (i : Instr) (m1 m2 m3 : Mode), i ∈ [.add m1 m2 m3, .mul m1 m2 m3, .lessThan m1 m2 m3, .equals m1 m2 m3] →
    exec i s = .next t →
    t.cfg = s.cfg ∧ t.rb = s.rb ∧ t.chan = s.chan ∧
    (∀ b : Nat, storedAddress i s ≠ some (b : Int) → t.mem.read b = s.mem.read b) ∧
    ((t.runState = s.runState ∧ t.faultCause = s.faultCause ∧ t.faultInfo = s.faultInfo) ∨
     (t.runState = .fatal ∧ t.ip = s.ip ∧ t.mem = s.mem ∧ t.len = s.len))

/-- INPUT stores to its destination only and changes the read side of the channel only; OUTPUT changes no cell and the write side only. -/
def Obligations.FrameOfInputAndOutput : Prop :=
  (∀ (s t : State) (m1 m2 m3 : Mode), exec (.input m1 m2 m3) s = .next t →
    t.cfg = s.cfg ∧ t.rb = s.rb ∧ t.chan.outq = s.chan.outq ∧ t.chan.emitted = s.chan.emitted ∧
    t.chan.deviceWrites = s.chan.deviceWrites ∧
    (∀ b : Nat, storedAddress (.input m1 m2 m3) s ≠ some (b : Int) → t.mem.read b = s.mem.read b) ∧
    ((t.faultCause = s.faultCause ∧ t.faultInfo = s.faultInfo ∧ (t.runState = s.runState ∨ t.runState = .awaitingInput)) ∨
     (t.runState = .fatal ∧ t.ip = s.ip ∧ t.mem = s.mem ∧ t.len = s.len))) ∧
  (∀ (s t : State) (m1 m2 m3 : Mode), exec (.output m1 m2 m3) s = .next t →
    t.cfg = s.cfg ∧ t.rb = s.rb ∧ t.chan.inq = s.chan.inq ∧ t.chan.prompt = s.chan.prompt ∧
    t.chan.deviceReads = s.chan.deviceReads ∧
    (∀ b : Nat, t.mem.read b = s.mem.read b) ∧
    ((t.faultCause = s.faultCause ∧ t.faultInfo = s.faultInfo ∧ t.runState = s.runState) ∨
     (t.runState = .fatal ∧ t.ip = s.ip ∧ t.len = s.len)))

/-- The jumps, ADJUST-BASE and HALT store nothing and leave the channel and the parameters alone; of them only ADJUST-BASE writes RB, and HALT leaves IP and LEN
too. -/
def Obligations.FrameOfJumpsBaseAndHalt : Prop :=
  ∀ (s t : State) (i : Instr) (m1 m2 m3 : Mode),
    i ∈ [.jumpIfTrue m1 m2 m3, .jumpIfFalse m1 m2 m3, .adjustBase m1 m2 m3, .halt m1 m2 m3] → exec i s = .next t →
    t.cfg = s.cfg ∧ t.chan = s.chan ∧ (∀ b : Nat, t.mem.read b = s.mem.read b) ∧
    (i ≠ .adjustBase m1 m2 m3 → t.rb = s.rb) ∧
    (i = .halt m1 m2 m3 → t.ip = s.ip ∧ t.len = s.len) ∧
    ((t.faultCause = s.faultCause ∧ t.faultInfo = s.faultInfo ∧
        (t.runState = s.runState ∨ (i = .halt m1 m2 m3 ∧ t.runState = .halted))) ∨
     (t.runState = .fatal ∧ t.ip = s.ip ∧ t.rb = s.rb ∧ t.len = s.len))

/-! Registers and hidden state. -/

/-- RB is written only by ADJUST-BASE (R23), and no instruction without a Relative operand depends on it (R192). -/
def Obligations.RbIsReadOnlyByRelativeMode : Prop :=
  (∀ s t : State, step s = .next t → t.rb ≠ s.rb → ∃ m1 m2 m3, decode s.instrWord = .ok (.adjustBase m1 m2 m3)) ∧
  (∀ (s : State) (i : Instr) (r : Int), (∀ m1 m2 m3, i ≠ .adjustBase m1 m2 m3) → (∀ p ∈ Instr.operands i, p.1 ≠ .relative) →
    ∃ t, exec i s = .next t ∧ exec i { s with rb := r } = .next { t with rb := r })

/-- No instruction reads LEN (R25, R53): two instances that differ in LEN alone make steps that differ in LEN alone. -/
def Obligations.LenIsInvisibleToTheProgram : Prop :=
  ∀ (s : State) (n : Nat), ∃ t t', step s = .next t ∧ step { s with len := n } = .next t' ∧ { t with len := 0 } = { t' with len := 0 }

/-- Along any number of steps LEN never decreases (R25) and the parameters stay as they are (R32). -/
def Obligations.LenNeverDecreases : Prop :=
  ∀ (n : Nat) (s t : State), Host.Core.run Sys2Proof.core n s = .next t → s.len ≤ t.len ∧ t.cfg = s.cfg

/-- An instruction other than INPUT and OUTPUT neither depends on the channel, its state or its kind, nor changes it (R145, R148). -/
def Obligations.OnlyIoInstructionsSeeTheChannel : Prop :=
  ∀ (s : State) (i : Instr) (kind : ChannelKind) (c : Channel), (∀ m1 m2 m3, i ≠ .input m1 m2 m3) → (∀ m1 m2 m3, i ≠ .output m1 m2 m3) →
    ∃ t, exec i s = .next t ∧ t.chan = s.chan ∧
      exec i { s with cfg := { s.cfg with channelKind := kind }, chan := c } =
        .next { t with cfg := { t.cfg with channelKind := kind }, chan := c }

/-- INPUT depends on the kind of channel only through the answer (R148, R159): with the same answer it does the same to everything but the channel
and, in the parameters, its kind. -/
def Obligations.InputDependsOnTheAnswerAlone : Prop :=
  ∀ (s : State) (m1 m2 m3 : Mode) (kind : ChannelKind) (c : Channel) (a : ReadAnswer) (c1 c2 : Channel),
    chanRead s.cfg.channelKind s.chan = some (a, c1) → chanRead kind c = some (a, c2) →
    ∃ t t', exec (.input m1 m2 m3) s = .next t ∧
      exec (.input m1 m2 m3) { s with cfg := { s.cfg with channelKind := kind }, chan := c } = .next t' ∧
      { t with cfg := { t.cfg with channelKind := kind }, chan := {} } = { t' with cfg := { t'.cfg with channelKind := kind }, chan := {} }

/-! The channel. -/

/-- The three kinds' answers (R150, R151, R153): Interactive supplies a value or has not answered, and accepts every output; Buffered pops the head of INQ, or is
Empty, and appends to OUTQ, holding the value back while a finite OUTQ is full (U9; entry 17); a Device gives any answer, or has not answered. That answers to
come are lists, and that an answer not given is `none`, is the model's (entries 5 and 6); so is the record of accepted values (entry 8). -/
def Obligations.ChannelKindsAnswer : Prop :=
  (∀ c : Channel, c.prompt = [] → chanRead .interactive c = none) ∧
  (∀ (c : Channel) v rest, c.prompt = v :: rest → chanRead .interactive c = some (.value v, { c with prompt := rest })) ∧
  (∀ c : Channel, c.inq = [] → chanRead .buffered c = some (.empty, c)) ∧
  (∀ (c : Channel) v rest, c.inq = v :: rest → chanRead .buffered c = some (.value v, { c with inq := rest })) ∧
  (∀ (c : Channel) a rest, c.deviceReads = a :: rest → chanRead .device c = some (a, { c with deviceReads := rest })) ∧
  (∀ (cfg : Config) (c : Channel) v, cfg.channelKind = .interactive →
    chanWrite cfg v c = some (.ok, { c with emitted := c.emitted ++ [v] })) ∧
  (∀ c : Channel, c.deviceReads = [] → chanRead .device c = none) ∧
  (∀ (cfg : Config) (c : Channel) v, cfg.channelKind = .buffered → (∀ n, cfg.outqCap = some n → c.outq.length < n) →
    chanWrite cfg v c = some (.ok, { c with outq := c.outq ++ [v] })) ∧
  (∀ (cfg : Config) (c : Channel) v n, cfg.channelKind = .buffered → cfg.outqCap = some n → n ≤ c.outq.length → chanWrite cfg v c = none) ∧
  (∀ (cfg : Config) (c : Channel) v, cfg.channelKind = .device → c.deviceWrites = [] → chanWrite cfg v c = none) ∧
  (∀ (cfg : Config) (c : Channel) v rest, cfg.channelKind = .device → c.deviceWrites = .ok :: rest →
    chanWrite cfg v c = some (.ok, { c with deviceWrites := rest, emitted := c.emitted ++ [v] })) ∧
  (∀ (cfg : Config) (c : Channel) v e rest, cfg.channelKind = .device → c.deviceWrites = .error e :: rest →
    chanWrite cfg v c = some (.error e, { c with deviceWrites := rest }))

/-- Along any number of steps the queues keep their order (R58, R151, R157): the input still waiting is a final piece of what was waiting, and everything
output, to a queue or to a printer or device, stands after what was there. The clauses about `prompt` and `emitted` are about the model's own lists (entries 5
and 8). -/
def Obligations.QueuesKeepTheirOrder : Prop :=
  ∀ (n : Nat) (s t : State), Host.Core.run Sys2Proof.core n s = .next t →
    (∃ k, t.chan.inq = s.chan.inq.drop k ∧ k ≤ n) ∧ (∃ k, t.chan.prompt = s.chan.prompt.drop k ∧ k ≤ n) ∧
    (∃ ws, t.chan.outq = s.chan.outq ++ ws ∧ ws.length ≤ n) ∧ (∃ ws, t.chan.emitted = s.chan.emitted ++ ws ∧ ws.length ≤ n)

/-- R213: a Step or Run of an AwaitingInput instance is that of the Running one; its INPUT is attempted again, completes once if the channel now answers a
value, and returns to AwaitingInput with nothing changed if it answers Empty; that a device's Empty answer is then used up is the model's (entry 7). -/
def Obligations.ResumeReattemptsTheInput : Prop :=
  ∀ s : State, s.Inv → s.runState = .awaitingInput →
    step s = step { s with runState := .running } ∧
    (∀ fuel, run fuel s = run fuel { s with runState := .running }) ∧
    ∃ m1 m2 m3, decode s.instrWord = .ok (.input m1 m2 m3) ∧
      (∀ v c, chanRead s.cfg.channelKind s.chan = some (.value v, c) → ∃ t, step s = .next t ∧ t.runState = .running ∧
        t.mem.read (s.destination m1 1) = v ∧ (∀ b, b ≠ s.destination m1 1 → t.mem.read b = s.mem.read b) ∧
        t.ip = s.ip + 2 ∧ t.rb = s.rb ∧ t.chan = c) ∧
      (∀ c, chanRead s.cfg.channelKind s.chan = some (.empty, c) → step s = .next { s with chan := c })

/-- "Supplying a value and resuming completes that same instruction exactly once" (S7, R156, R213): on a Buffered channel with an empty queue. -/
def Obligations.SuppliedInputCompletesOnce : Prop :=
  ∀ (s s' : State) (v : Int), s.Inv → s.runState = .awaitingInput → s.cfg.channelKind = .buffered → s.chan.inq = [] →
    appendInput v s = some s' →
    ∃ t m1 m2 m3, decode s.instrWord = .ok (.input m1 m2 m3) ∧ step s' = .next t ∧ t.runState = .running ∧
      t.mem.read (s.destination m1 1) = v ∧ t.ip = s.ip + 2 ∧ t.chan.inq = [] ∧ t.chan.outq = s.chan.outq

/-- R173: every non-negative target is accepted by the jump; beyond MEM_CAP the next fetch raises CapacityExceeded, and between LEN and MEM_CAP it reads 0 and
raises UnknownOpcode, IP at the target and LEN not grown. -/
def Obligations.JumpTargetsAreJudgedByTheNextFetch : Prop :=
  (∀ (s : State) (m1 m2 m3 : Mode), ReadLegal s m1 1 → ReadLegal s m2 2 → 0 ≤ s.operandValue m2 2 →
    (s.operandValue m1 1 ≠ 0 → ∃ t, exec (.jumpIfTrue m1 m2 m3) s = .next t ∧ t.ip = (s.operandValue m2 2).toNat ∧ t.runState = s.runState) ∧
    (s.operandValue m1 1 = 0 → ∃ t, exec (.jumpIfFalse m1 m2 m3) s = .next t ∧ t.ip = (s.operandValue m2 2).toNat ∧ t.runState = s.runState)) ∧
  (∀ s : State, s.Inv → s.runState = .running →
    (¬ ValidAddr s.cfg s.ip → step s = .next (s.enterFatal ⟨.capacityExceeded, s.ip⟩)) ∧
    (ValidAddr s.cfg s.ip → s.len ≤ s.ip → step s = .next (s.enterFatal ⟨.unknownOpcode, 0⟩)))

/-- A run on an Interactive channel and one on a Buffered channel, of the same Program with the same values to come, agree after every number of steps on
memory, LEN, IP, RB, the values left and the values output, and on whether and why the run has ended (R14, R148). The values to come at the prompt and the
values it has printed are the model's own lists (entries 5 and 8), and where the Buffered instance waits the Interactive one is held (entry 6). -/
def Obligations.InteractiveAndBufferedRunsAgree : Prop :=
  ∀ (cfg : Config) (prog values : List Int) (n : Nat), cfg.outqCap = none →
    ∃ t u, Host.Core.run Sys2Proof.core n (construct { cfg with channelKind := .interactive } { prompt := values } prog) = .next t ∧
      Host.Core.run Sys2Proof.core n (construct { cfg with channelKind := .buffered } { inq := values } prog) = .next u ∧
      t.mem = u.mem ∧ t.len = u.len ∧ t.ip = u.ip ∧ t.rb = u.rb ∧ t.chan.prompt = u.chan.inq ∧ t.chan.emitted = u.chan.outq ∧
      (t.runState = .halted ↔ u.runState = .halted) ∧ (t.runState = .fatal ↔ u.runState = .fatal) ∧
      t.faultCause = u.faultCause ∧ t.faultInfo = u.faultInfo ∧ t.runState ≠ .awaitingInput

/-! The invariant. -/

/-- The invariant holds of the reset state. -/
def Obligations.ResetMeetsTheInvariant : Prop := State.reset.Inv

/-- Every step keeps the invariant: every stored value is a word (R6, R132), RB is a word (R23), no cell at or beyond LEN holds anything (R24), LEN stays within
MEM_CAP, IP and FAULT_INFO stay in their ranges (R21, R28), the fault registers are 0 exactly while not Fatal (R27, R28), the memory list stays
canonical, an Interactive instance never waits (R150), and a waiting or halted instance stands at its INPUT or HALT (R201, R212). -/
def Obligations.EveryStepKeepsTheInvariant : Prop :=
  ∀ s t : State, s.Inv → step s = .next t → t.Inv

/-- Construction from a Program of words that fits, with a channel of words, gives a state that meets the invariant; the Construct command gives no other. -/
def Obligations.ConstructionMeetsTheInvariant : Prop :=
  (∀ (cfg : Config) (chan : Channel) (prog ws : List Int), Config.WidthOk cfg → ChannelWords cfg chan → checkProgram cfg prog = .ok ws →
    (construct cfg chan ws).Inv) ∧
  (∀ (cfg : Config) (chan : Channel) (prog : List Int) (s : State), Config.WidthOk cfg → constructCommand cfg chan prog = .ok s → s.Inv)

/-- The host's commands and the environment's answers keep the invariant. -/
def Obligations.HostCommandsKeepTheInvariant : Prop :=
  ∀ s t : State, s.Inv →
    (∀ v, appendInput v s = some t → t.Inv) ∧ (∀ v, takeOutput s = .taken v t → t.Inv) ∧ (∀ v, supplyPrompt v s = some t → t.Inv) ∧
    (∀ a, supplyDeviceRead a s = some t → t.Inv) ∧ (∀ a, supplyDeviceWrite a s = some t → t.Inv) ∧ (s.resume = t → t.Inv)

/-- Two canonical memories that read alike are the same list. -/
def Obligations.MemoriesThatReadAlikeAreEqual : Prop :=
  ∀ m m' : Memory, m.wf = true → m'.wf = true → (∀ a, m.read a = m'.read a) → m = m'

/-! Reset, loading, and the host. -/

/-- R240: the state after construction from a Program. -/
def Obligations.ConstructLoadsTheProgram : Prop :=
  ∀ (cfg : Config) (chan : Channel) (prog : List Int),
    let s := construct cfg chan prog
    (∀ (a : Nat) (h : a < prog.length), s.mem.read a = prog[a]) ∧ (∀ a, prog.length ≤ a → s.mem.read a = 0) ∧
    s.len = prog.length ∧ s.ip = 0 ∧ s.rb = 0 ∧ s.runState = .running ∧ s.faultCause = none ∧ s.faultInfo = 0 ∧
    s.cfg = cfg ∧ s.chan = chan

/-- The empty Program's first step raises UnknownOpcode with the word 0 (R241). -/
def Obligations.EmptyProgramFaultsAtOnce : Prop :=
  step State.reset = .next (State.reset.enterFatal ⟨.unknownOpcode, 0⟩)

/-- R243: a text is a Program's exactly when it is integers separated by single commas with an optional final line feed, an integer being an optional `-` and one
or more decimal digits; the i-th integer is `P[i]`. -/
def Obligations.ProgramTextGrammar : Prop :=
  ∀ (text : List Char) (prog : List Int), parseProgram text = some prog ↔
    ∃ (items : List IntText) (lineFeed : Bool), items ≠ [] ∧ (∀ t ∈ items, t.digits ≠ []) ∧
      text = joinCommas (items.map IntText.chars) ++ (if lineFeed then ['\n'] else []) ∧ prog = items.map IntText.value

/-- R244: a text outside the grammar, an integer that is not a word, or a Program longer than MEM_CAP is refused and no instance is constructed; nor is one
whose channel would hold a value that is not a word (R155); any other text gives the constructed instance. R244 says only
that the load is refused: the names of the refusals, and that a value that is not a word is reported before the length and the channel last, are the model's
choice (entry 27), and so is accepting initial queues longer than a finite capacity (entry 26). -/
def Obligations.LoaderRefusesBadPrograms : Prop :=
  ∀ (cfg : Config) (chan : Channel) (text : List Char),
    (parseProgram text = none → constructFromText cfg chan text = .error .badText) ∧
    (∀ prog, parseProgram text = some prog →
      ((∃ v ∈ prog, cfg.isWord v = false) → constructFromText cfg chan text = .error .notAWord) ∧
      ((∀ v ∈ prog, cfg.isWord v = true) → ∀ n, cfg.cap = some n → n < prog.length →
        constructFromText cfg chan text = .error .tooLong) ∧
      ((∀ v ∈ prog, cfg.isWord v = true) → (∀ n, cfg.cap = some n → prog.length ≤ n) →
        (ChannelWords cfg chan → constructFromText cfg chan text = .ok (construct cfg chan prog)) ∧
        (¬ ChannelWords cfg chan → constructFromText cfg chan text = .error .channelNotWords)))

/-- Run returns only when the instance has left Running, after some number of Steps and with the state they lead to, and more fuel changes nothing; and it does
return, under as much fuel as there are steps, when the steps from the resumed state lead out of Running (R248; the fuel is the model's, entry 14). -/
def Obligations.RunReturnsOnlyOutsideRunning : Prop :=
  (∀ (fuel : Nat) (s t : State), run fuel s = .returned t →
    t.runState ≠ .running ∧ (∃ n, n ≤ fuel ∧ Host.Core.run Sys2Proof.core n s = .next t) ∧ ∀ more, run (fuel + more) s = .returned t) ∧
  (∀ (n : Nat) (s t : State), Host.Core.run Sys2Proof.core n s.resume = .next t → t.runState ≠ .running →
    (∀ k u, k < n → Host.Core.run Sys2Proof.core k s.resume = .next u → u.runState = .running) → run n s = .returned t)

/-- The codes of RUN_STATE (R26) and FAULT_CAUSE (R205), and what ReadState returns (R246), any one cell at a valid address included (R42). That an
address which is not valid has no such answer is the model's (entry 18). -/
def Obligations.StatusRegistersReadAsTheirCodes : Prop :=
  (RunState.running.code = 0 ∧ RunState.halted.code = 1 ∧ RunState.awaitingInput.code = 2 ∧ RunState.fatal.code = 3) ∧
  ([none, some .unknownOpcode, some .negativeAddress, some .immediateWriteTarget, some .invalidMode, some .arithmeticOverflow,
    some .capacityExceeded, some .deviceError].map faultCauseCode = [0, 1, 2, 3, 4, 5, 6, 7]) ∧
  (∀ s : State, (readState s).ip = s.ip ∧ (readState s).rb = s.rb ∧ (readState s).runState = s.runState.code ∧
    (readState s).faultCause = faultCauseCode s.faultCause ∧ (readState s).faultInfo = s.faultInfo ∧ (readState s).len = s.len ∧
    (readState s).cells.length = s.len ∧ ∀ a, a < s.len → (readState s).cells[a]? = some (s.mem.read a)) ∧
  (∀ (s : State) (a : Int), (ValidAddr s.cfg a → readCell s a = some (s.mem.read a.toNat)) ∧ (¬ ValidAddr s.cfg a → readCell s a = none))

/-- AppendInput adds at the tail of INQ and TakeOutput removes at the head of OUTQ, each on a Buffered channel only, and neither changes anything else (R156,
R246). On a Buffered channel AppendInput is there for every word while INQ is below its capacity, and TakeOutput gives the head of OUTQ or reports that it is
empty. A value that is not a word, a full queue, or a channel of another kind has no such command (R155; entries 17 and 18). -/
def Obligations.HostCommandsKeepQueueDiscipline : Prop :=
  (∀ (s s' : State) (v : Int), appendInput v s = some s' →
    s.cfg.channelKind = .buffered ∧ s.cfg.isWord v = true ∧ s'.chan.inq = s.chan.inq ++ [v] ∧
    { s' with chan := { s'.chan with inq := s.chan.inq } } = s) ∧
  (∀ (s : State) (v : Int), s.cfg.channelKind = .buffered → s.cfg.isWord v = true → (∀ n, s.cfg.inqCap = some n → s.chan.inq.length < n) →
    ∃ s', appendInput v s = some s') ∧
  (∀ (s : State) (v : Int), (∃ n, s.cfg.inqCap = some n ∧ n ≤ s.chan.inq.length) ∨ s.cfg.isWord v = false ∨ s.cfg.channelKind ≠ .buffered →
    appendInput v s = none) ∧
  (∀ (s s' : State) (v : Int), takeOutput s = .taken v s' →
    s.cfg.channelKind = .buffered ∧ s.chan.outq = v :: s'.chan.outq ∧ { s' with chan := { s'.chan with outq := s.chan.outq } } = s) ∧
  (∀ (s : State) (v : Int) rest, s.cfg.channelKind = .buffered → s.chan.outq = v :: rest →
    takeOutput s = .taken v { s with chan := { s.chan with outq := rest } }) ∧
  (∀ s : State, s.cfg.channelKind = .buffered → s.chan.outq = [] → takeOutput s = .queueEmpty) ∧
  (∀ s : State, s.cfg.channelKind ≠ .buffered → takeOutput s = .notAvailable)

/-! Several instances. -/

/-- A Step of one instance changes no other instance and no queue but the two it is wired to, nor its own wiring and parameters (R34, R224); and the host has the
command for every member of an accepted network. -/
def Obligations.InstancesShareOnlyQueues : Prop :=
  ∀ (n : Network) (i : Nat),
    (n.accepted = true → i < n.members.length → ∃ n', n.step i = some n') ∧
    (∀ n', n.step i = some n' →
      (∀ j, j ≠ i → n'.members[j]? = n.members[j]?) ∧
      (∀ k, (∀ m w, n.members[i]? = some m → m.wiring = some w → k ≠ w.inQueue ∧ k ≠ w.outQueue) → n'.queue k = n.queue k) ∧
      (∀ m, n'.members[i]? = some m → ∃ m0, n.members[i]? = some m0 ∧ m.wiring = m0.wiring ∧ m.vm.cfg = m0.vm.cfg) ∧
      n'.queues.length = n.queues.length ∧ n'.concurrent = n.concurrent)

/-- What an instance takes leaves the head of its input queue, and what it outputs arrives at the tail of its output queue, where the instance that reads that
queue finds it in the same order (R152); the two may be one queue, which the spec does not speak of (the model's choice, entry
29). An instance that is not wired steps as it does alone. -/
def Obligations.SharedQueuesChainInOrder : Prop :=
  ∀ (n : Network) (i : Nat) (m : Member), n.accepted = true → n.members[i]? = some m →
    ∃ t n' m', step (n.attach m) = .next t ∧ n.step i = some n' ∧ n'.members[i]? = some m' ∧
      m'.vm.mem = t.mem ∧ m'.vm.ip = t.ip ∧ m'.vm.rb = t.rb ∧ m'.vm.len = t.len ∧ m'.vm.runState = t.runState ∧
      m'.vm.faultCause = t.faultCause ∧ m'.vm.faultInfo = t.faultInfo ∧
      (m.wiring = none → n.attach m = m.vm ∧ m'.vm = t ∧ n'.queues = n.queues) ∧
      (∀ w, m.wiring = some w → (n.attach m).chan.inq = n.queue w.inQueue ∧ ∃ k ws, k ≤ 1 ∧ ws.length ≤ 1 ∧
        t.chan.inq = (n.queue w.inQueue).drop k ∧ t.chan.outq = n.queue w.outQueue ++ ws ∧
        (w.inQueue ≠ w.outQueue → n'.queue w.inQueue = (n.queue w.inQueue).drop k ∧ n'.queue w.outQueue = n.queue w.outQueue ++ ws) ∧
        (w.inQueue = w.outQueue → n'.queue w.inQueue = (n.queue w.inQueue).drop k ++ ws))

/-- A network in which two members read one queue or two write one queue is refused by every command, concurrent or not (R152, U8); so is one whose wiring is none
the spec has (entry 23). Every other network is accepted, one with an instance that reads the queue it writes among them (entry 29), each member steps on command, and its members' steps may be interleaved in any order exactly when it is
concurrent (D28; entry 19). -/
def Obligations.ConcurrencyNeedsExclusiveQueues : Prop :=
  ∀ n : Network,
    (n.accepted = true ↔ n.readers.Nodup ∧ n.writers.Nodup ∧
      (∀ m ∈ n.members, ∀ w, m.wiring = some w →
        m.vm.cfg.channelKind = .buffered ∧ w.inQueue < n.queues.length ∧ w.outQueue < n.queues.length) ∧
      (∀ m ∈ n.members, ∀ m' ∈ n.members, ∀ w w', m.wiring = some w → m'.wiring = some w' → w.outQueue = w'.inQueue →
        m.vm.cfg.width = m'.vm.cfg.width)) ∧
    (n.accepted = false → ∀ i v fuel schedule, n.step i = none ∧ n.run fuel i = .refused ∧ n.appendInput i v = none ∧
      n.takeOutput i = .notAvailable ∧ n.interleave schedule = none) ∧
    (n.accepted = true → ∀ i, i < n.members.length → n.step i = some (n.stepMember i)) ∧
    (n.concurrent = true → n.accepted = true → ∀ schedule, n.interleave schedule = some (schedule.foldl Network.stepMember n)) ∧
    (n.concurrent = false → ∀ schedule, n.interleave schedule = none)

/-- AppendInput to a member puts a word at the tail of the queue it reads, and TakeOutput takes the head of the queue it writes, or reports that it is empty;
neither changes another queue or, of a wired member, any instance (R156, R246). TakeOutput is there for every wired member of an accepted network, whatever its
RUN_STATE, and when an instance reads the queue too: that instance then no longer finds the word (R152; entry 24). AppendInput is
there at any time too, and when an instance writes the queue (entry 28). -/
def Obligations.NetworkCommandsKeepQueueDiscipline : Prop :=
  ∀ (n n' : Network) (i : Nat) (v : Int) (m : Member) (w : Wiring), n.members[i]? = some m → m.wiring = some w →
    (n.appendInput i v = some n' → m.vm.cfg.isWord v = true ∧ n' = { n with queues := n.queues.set w.inQueue (n.queue w.inQueue ++ [v]) }) ∧
    (n.accepted = true → m.vm.cfg.isWord v = true → (∀ c, m.vm.cfg.inqCap = some c → (n.queue w.inQueue).length < c) →
      ∃ n'', n.appendInput i v = some n'') ∧
    (n.takeOutput i = .taken v n' → ∃ rest, n.queue w.outQueue = v :: rest ∧ n' = { n with queues := n.queues.set w.outQueue rest }) ∧
    (n.accepted = true → ∀ rest, n.queue w.outQueue = v :: rest →
      n.takeOutput i = .taken v { n with queues := n.queues.set w.outQueue rest }) ∧
    (n.accepted = true → n.queue w.outQueue = [] → n.takeOutput i = .queueEmpty)

/-- A network the host builds from instances that meet the invariant meets it as a whole: its wiring is accepted, and every instance with its queues in place
meets the invariant, so every queue holds words (R155). -/
def Obligations.BuiltNetworksMeetTheInvariant : Prop :=
  ∀ (members : List Member) (queues : List (List Int)) (concurrent : Bool) (n : Network),
    (∀ m ∈ members, m.vm.Inv) → Network.build members queues concurrent = .ok n → n.Inv

/-- Every command to a network keeps its invariant: no step and no host command brings a value that is not a word into a queue or an instance (R155), and the
wiring stays one the spec has (R152). -/
def Obligations.NetworkCommandsKeepTheInvariant : Prop :=
  ∀ (n : Network), n.Inv →
    (∀ i n', n.step i = some n' → n'.Inv) ∧ (∀ i v n', n.appendInput i v = some n' → n'.Inv) ∧
    (∀ k v n', n.append k v = some n' → n'.Inv) ∧ (∀ i v n', n.takeOutput i = .taken v n' → n'.Inv) ∧
    (∀ fuel i n', n.run fuel i = .returned n' → n'.Inv) ∧ (∀ schedule n', n.interleave schedule = some n' → n'.Inv)
end

