-- ==== Sys2Proof/Laws/Memory.lean ====
section
/-! SUPPORT. Memory: reading after writing, the canonical form, and what a write does to the list of cells. -/

namespace Sys2Proof.Machine.Memory

@[simp] theorem read_nil (a : Nat) : read [] a = 0 := rfl

/-- Below every listed address, a memory reads 0. -/
theorem read_of_lt_low {m : Memory} {low a : Nat} (h : wfFrom low m = true) (ha : a < low) : m.read a = 0 := by
  induction m generalizing low with
  | nil => rfl
  | cons p rest ih =>
    obtain ⟨b, u⟩ := p
    simp only [wfFrom, Bool.and_eq_true, decide_eq_true_eq] at h
    obtain ⟨⟨hb, -⟩, hr⟩ := h
    have : a ≠ b := by omega
    simp only [read, this, if_false]
    exact ih hr (by omega)

/-- A memory canonical from a higher address on is so from a lower one. -/
theorem wfFrom_mono {m : Memory} {low low' : Nat} (h : wfFrom low m = true) (hl : low' ≤ low) : wfFrom low' m = true := by
  cases m with
  | nil => rfl
  | cons p rest =>
    obtain ⟨b, u⟩ := p
    simp only [wfFrom, Bool.and_eq_true, decide_eq_true_eq] at h ⊢
    exact ⟨⟨by omega, h.1.2⟩, h.2⟩

/-- A write at or above `low` keeps the form from `low` on. -/
theorem wfFrom_write {m : Memory} {low a : Nat} {v : Int} (h : wfFrom low m = true) (ha : low ≤ a) :
    wfFrom low (m.write a v) = true := by
  induction m generalizing low with
  | nil =>
    simp only [write]
    split
    · rfl
    · simp_all [wfFrom]
  | cons p rest ih =>
    obtain ⟨b, u⟩ := p
    simp only [wfFrom, Bool.and_eq_true, decide_eq_true_eq] at h
    obtain ⟨⟨hb, hu⟩, hr⟩ := h
    simp only [write]
    split
    · rename_i hab
      have hab' : a + 1 ≤ b := hab
      split <;> simp [wfFrom, *]
    · rename_i hab
      split
      · rename_i hEq
        subst hEq
        split
        · exact wfFrom_mono hr (by omega)
        · simp_all [wfFrom]
      · simp only [wfFrom, Bool.and_eq_true, decide_eq_true_eq]
        exact ⟨⟨hb, hu⟩, ih hr (by omega)⟩

/-- Every write keeps the canonical form. -/
theorem wf_write {m : Memory} (a : Nat) (v : Int) (h : m.wf = true) : (m.write a v).wf = true :=
  wfFrom_write h (Nat.zero_le a)

/-- Writing several words keeps the canonical form. -/
theorem wf_writeWords {m : Memory} (a : Nat) (ws : List Int) (h : m.wf = true) : (m.writeWords a ws).wf = true := by
  induction ws generalizing m a with
  | nil => exact h
  | cons w ws ih => exact ih (a + 1) (wf_write a w h)

theorem wf_nil : wf [] = true := rfl

/-- A write leaves every other cell alone. -/
theorem read_write_of_ne {m : Memory} {a b : Nat} (v : Int) (h : b ≠ a) : (m.write a v).read b = m.read b := by
  induction m with
  | nil =>
    simp only [write]
    split <;> simp [read, h]
  | cons p rest ih =>
    obtain ⟨c, u⟩ := p
    simp only [write]
    split
    · split <;> simp [read, h]
    · split
      · rename_i hEq
        subst hEq
        split <;> simp [read, h]
      · simp only [read, ih]

/-- In a canonical memory, a cell reads what was written to it. -/
theorem read_write_self {m : Memory} (a : Nat) (v : Int) (h : m.wf = true) : (m.write a v).read a = v := by
  suffices ∀ low, wfFrom low m = true → (m.write a v).read a = v from this 0 h
  clear h
  induction m with
  | nil =>
    intro low _
    simp only [write]
    split <;> simp_all [read]
  | cons p rest ih =>
    intro low h
    obtain ⟨b, u⟩ := p
    have hr : wfFrom (b + 1) rest = true := by
      simp only [wfFrom, Bool.and_eq_true] at h
      exact h.2
    simp only [write]
    split
    · rename_i hab
      split
      · rename_i hv
        have : a ≠ b := by omega
        simp only [read, this, if_false]
        rw [read_of_lt_low hr (by omega), hv]
      · simp [read]
    · split
      · rename_i hEq
        subst hEq
        split
        · rename_i hv
          rw [read_of_lt_low hr (by omega), hv]
        · simp [read]
      · rename_i hne
        simp only [read, hne, if_false]
        exact ih _ hr

/-- A cell of the written list is the written one, not 0, or was there before. -/
theorem mem_write {m : Memory} {a : Nat} {v : Int} {p : Nat × Int} (h : p ∈ m.write a v) :
    (p = (a, v) ∧ v ≠ 0) ∨ p ∈ m := by
  induction m with
  | nil =>
    simp only [write] at h
    split at h <;> simp_all
  | cons q rest ih =>
    obtain ⟨b, u⟩ := q
    simp only [write] at h
    split at h
    · split at h
      · exact .inr h
      · rcases List.mem_cons.1 h with rfl | h
        · exact .inl ⟨rfl, ‹_›⟩
        · exact .inr h
    · split at h
      · split at h
        · exact .inr (List.mem_cons_of_mem _ h)
        · rcases List.mem_cons.1 h with rfl | h
          · exact .inl ⟨rfl, ‹_›⟩
          · exact .inr (List.mem_cons_of_mem _ h)
      · rcases List.mem_cons.1 h with rfl | h
        · exact .inr List.mem_cons_self
        · rcases ih h with h | h
          · exact .inl h
          · exact .inr (List.mem_cons_of_mem _ h)

/-- A cell that reads something but 0 is listed. -/
theorem mem_of_read_ne_zero {m : Memory} {a : Nat} (h : m.read a ≠ 0) : (a, m.read a) ∈ m := by
  induction m with
  | nil => exact absurd rfl h
  | cons p rest ih =>
    obtain ⟨b, u⟩ := p
    by_cases hab : a = b
    · subst hab
      simp [read]
    · simp only [read, hab, if_false] at h ⊢
      exact List.mem_cons_of_mem _ (ih h)

/-- The cells before the first written address are as before. -/
theorem read_writeWords_of_lt {m : Memory} {a b : Nat} (ws : List Int) (h : b < a) : (m.writeWords a ws).read b = m.read b := by
  induction ws generalizing m a with
  | nil => rfl
  | cons w ws ih =>
    rw [writeWords, ih (by omega), read_write_of_ne _ (by omega)]

end Sys2Proof.Machine.Memory
end

