-- ==== Sys2Proof/Laws/State.lean ====
section
/-! SUPPORT. One lemma per field per update of State, so that no later proof unfolds a record update. -/

namespace Sys2Proof.Machine

section enterFatal
variable (s : State) (e : FatalEvent)
@[simp] theorem State.enterFatal_cfg : (s.enterFatal e).cfg = s.cfg := rfl
@[simp] theorem State.enterFatal_ip : (s.enterFatal e).ip = s.ip := rfl
@[simp] theorem State.enterFatal_rb : (s.enterFatal e).rb = s.rb := rfl
@[simp] theorem State.enterFatal_mem : (s.enterFatal e).mem = s.mem := rfl
@[simp] theorem State.enterFatal_len : (s.enterFatal e).len = s.len := rfl
@[simp] theorem State.enterFatal_runState : (s.enterFatal e).runState = .fatal := rfl
@[simp] theorem State.enterFatal_faultCause : (s.enterFatal e).faultCause = some e.cause := rfl
@[simp] theorem State.enterFatal_faultInfo : (s.enterFatal e).faultInfo = e.info := rfl
@[simp] theorem State.enterFatal_chan : (s.enterFatal e).chan = s.chan := rfl
end enterFatal

section suspend
variable (s : State)
@[simp] theorem State.suspend_cfg : s.suspend.cfg = s.cfg := rfl
@[simp] theorem State.suspend_ip : s.suspend.ip = s.ip := rfl
@[simp] theorem State.suspend_rb : s.suspend.rb = s.rb := rfl
@[simp] theorem State.suspend_mem : s.suspend.mem = s.mem := rfl
@[simp] theorem State.suspend_len : s.suspend.len = s.len := rfl
@[simp] theorem State.suspend_runState : s.suspend.runState = .awaitingInput := rfl
@[simp] theorem State.suspend_faultCause : s.suspend.faultCause = s.faultCause := rfl
@[simp] theorem State.suspend_faultInfo : s.suspend.faultInfo = s.faultInfo := rfl
@[simp] theorem State.suspend_chan : s.suspend.chan = s.chan := rfl
end suspend

section halt
variable (s : State)
@[simp] theorem State.halt_cfg : s.halt.cfg = s.cfg := rfl
@[simp] theorem State.halt_ip : s.halt.ip = s.ip := rfl
@[simp] theorem State.halt_rb : s.halt.rb = s.rb := rfl
@[simp] theorem State.halt_mem : s.halt.mem = s.mem := rfl
@[simp] theorem State.halt_len : s.halt.len = s.len := rfl
@[simp] theorem State.halt_runState : s.halt.runState = .halted := rfl
@[simp] theorem State.halt_faultCause : s.halt.faultCause = s.faultCause := rfl
@[simp] theorem State.halt_faultInfo : s.halt.faultInfo = s.faultInfo := rfl
@[simp] theorem State.halt_chan : s.halt.chan = s.chan := rfl
end halt

section advance
variable (s : State) (n : Nat)
@[simp] theorem State.advance_cfg : (s.advance n).cfg = s.cfg := rfl
@[simp] theorem State.advance_ip : (s.advance n).ip = s.ip + n := rfl
@[simp] theorem State.advance_rb : (s.advance n).rb = s.rb := rfl
@[simp] theorem State.advance_mem : (s.advance n).mem = s.mem := rfl
@[simp] theorem State.advance_len : (s.advance n).len = s.len := rfl
@[simp] theorem State.advance_runState : (s.advance n).runState = s.runState := rfl
@[simp] theorem State.advance_faultCause : (s.advance n).faultCause = s.faultCause := rfl
@[simp] theorem State.advance_faultInfo : (s.advance n).faultInfo = s.faultInfo := rfl
@[simp] theorem State.advance_chan : (s.advance n).chan = s.chan := rfl
end advance

section touch
variable (s : State) (a : Nat)
@[simp] theorem State.touch_cfg : (s.touch a).cfg = s.cfg := rfl
@[simp] theorem State.touch_ip : (s.touch a).ip = s.ip := rfl
@[simp] theorem State.touch_rb : (s.touch a).rb = s.rb := rfl
@[simp] theorem State.touch_mem : (s.touch a).mem = s.mem := rfl
@[simp] theorem State.touch_len : (s.touch a).len = max s.len (a + 1) := rfl
@[simp] theorem State.touch_runState : (s.touch a).runState = s.runState := rfl
@[simp] theorem State.touch_faultCause : (s.touch a).faultCause = s.faultCause := rfl
@[simp] theorem State.touch_faultInfo : (s.touch a).faultInfo = s.faultInfo := rfl
@[simp] theorem State.touch_chan : (s.touch a).chan = s.chan := rfl
end touch

section memWrite
variable (s : State) (a : Nat) (v : Int)
@[simp] theorem State.memWrite_cfg : (s.memWrite a v).cfg = s.cfg := rfl
@[simp] theorem State.memWrite_ip : (s.memWrite a v).ip = s.ip := rfl
@[simp] theorem State.memWrite_rb : (s.memWrite a v).rb = s.rb := rfl
@[simp] theorem State.memWrite_mem : (s.memWrite a v).mem = s.mem.write a v := rfl
@[simp] theorem State.memWrite_len : (s.memWrite a v).len = max s.len (a + 1) := rfl
@[simp] theorem State.memWrite_runState : (s.memWrite a v).runState = s.runState := rfl
@[simp] theorem State.memWrite_faultCause : (s.memWrite a v).faultCause = s.faultCause := rfl
@[simp] theorem State.memWrite_faultInfo : (s.memWrite a v).faultInfo = s.faultInfo := rfl
@[simp] theorem State.memWrite_chan : (s.memWrite a v).chan = s.chan := rfl
end memWrite

section resume
variable (s : State)
/-- Resuming changes RUN_STATE from AwaitingInput to Running and nothing else (R213). -/
theorem State.resume_eq : s.resume = { s with runState := if s.runState = .awaitingInput then .running else s.runState } := by
  obtain ⟨_, _, _, _, _, r, _, _, _⟩ := s
  cases r <;> rfl
@[simp] theorem State.resume_cfg : s.resume.cfg = s.cfg := by rw [State.resume_eq]
@[simp] theorem State.resume_ip : s.resume.ip = s.ip := by rw [State.resume_eq]
@[simp] theorem State.resume_rb : s.resume.rb = s.rb := by rw [State.resume_eq]
@[simp] theorem State.resume_mem : s.resume.mem = s.mem := by rw [State.resume_eq]
@[simp] theorem State.resume_len : s.resume.len = s.len := by rw [State.resume_eq]
@[simp] theorem State.resume_faultCause : s.resume.faultCause = s.faultCause := by rw [State.resume_eq]
@[simp] theorem State.resume_faultInfo : s.resume.faultInfo = s.faultInfo := by rw [State.resume_eq]
@[simp] theorem State.resume_chan : s.resume.chan = s.chan := by rw [State.resume_eq]
theorem State.resume_of_running (h : s.runState = .running) : s.resume = s := by
  simp only [State.resume, h]
theorem State.resume_of_awaiting (h : s.runState = .awaitingInput) : s.resume = { s with runState := .running } := by
  simp only [State.resume, h]
end resume

end Sys2Proof.Machine
end

