-- ==== Sys2Proof/Laws/Ops.lean ====
section
/-! SUPPORT. What each shared operation can do, said once: the range check, MemRead, the two operand resolvers, the operand frames, and the
channel transactions. -/

namespace Sys2Proof.Machine

/-! The range check and MemRead. -/

theorem checkAddr_of_valid {c : Config} {a : Int} (h : ValidAddr c a) : checkAddr c a = .ok a.toNat := by
  have : ¬ a < 0 := by have := h.1; omega
  simp [checkAddr, this, h.2]

/-- The range check passes a valid address and raises `addrFault` on any other (R42, R45, R46). -/
theorem checkAddr_eq (c : Config) (a : Int) :
    checkAddr c a = match addrFault c a with
      | none => .ok a.toNat
      | some e => .error e := by
  unfold addrFault checkAddr
  by_cases h0 : a < 0
  · have : ¬ ValidAddr c a := fun h => by have := h.1; omega
    simp [h0, this]
  · by_cases hb : below a.toNat c.cap = true
    · have : ValidAddr c a := ⟨by omega, hb⟩
      rw [if_neg h0, if_pos hb, if_pos this]
    · have : ¬ ValidAddr c a := fun h => hb h.2
      simp [h0, hb, this]

theorem addrFault_eq_none {c : Config} {a : Int} : addrFault c a = none ↔ ValidAddr c a := by
  unfold addrFault
  by_cases h : ValidAddr c a
  · rw [if_pos h]; simp only [true_iff]; exact h
  · simp only [h, if_false]
    split <;> simp

/-- MemRead at a valid address gives the word and grows LEN; at any other it raises (R43). -/
theorem memRead_eq (a : Int) (s : State) :
    memRead a s = match addrFault s.cfg a with
      | none => .ok (s.mem.read a.toNat, s.touch a.toNat)
      | some e => .error e := by
  rw [memRead, checkAddr_eq]
  cases addrFault s.cfg a <;> rfl

/-! States that differ in LEN only: all that resolving an operand does to a state. -/

/-- `s` with LEN grown by accesses at `as` (R47). -/
def State.grow (s : State) (as : List Int) : State := { s with len := s.lenAfter as }

section grow
variable (s : State) (as : List Int)
@[simp] theorem State.grow_cfg : (s.grow as).cfg = s.cfg := rfl
@[simp] theorem State.grow_ip : (s.grow as).ip = s.ip := rfl
@[simp] theorem State.grow_rb : (s.grow as).rb = s.rb := rfl
@[simp] theorem State.grow_mem : (s.grow as).mem = s.mem := rfl
@[simp] theorem State.grow_len : (s.grow as).len = s.lenAfter as := rfl
@[simp] theorem State.grow_runState : (s.grow as).runState = s.runState := rfl
@[simp] theorem State.grow_faultCause : (s.grow as).faultCause = s.faultCause := rfl
@[simp] theorem State.grow_faultInfo : (s.grow as).faultInfo = s.faultInfo := rfl
@[simp] theorem State.grow_chan : (s.grow as).chan = s.chan := rfl
@[simp] theorem State.grow_instrWord : (s.grow as).instrWord = s.instrWord := rfl
@[simp] theorem State.grow_operandAddress (m : Mode) (k : Nat) : (s.grow as).operandAddress m k = s.operandAddress m k := rfl
@[simp] theorem State.grow_operandValue (m : Mode) (k : Nat) : (s.grow as).operandValue m k = s.operandValue m k := rfl
@[simp] theorem State.grow_operandAccesses (m : Mode) (k : Nat) : (s.grow as).operandAccesses m k = s.operandAccesses m k := rfl
@[simp] theorem State.grow_destination (m : Mode) (k : Nat) : (s.grow as).destination m k = s.destination m k := rfl
end grow

theorem State.grow_nil (s : State) : s.grow [] = s := rfl

theorem State.touch_eq_grow (s : State) (a : Int) : s.touch a.toNat = s.grow [a] := rfl

theorem State.grow_grow (s : State) (as bs : List Int) : (s.grow as).grow bs = s.grow (as ++ bs) := by
  simp [State.grow, State.lenAfter, List.foldl_append]

theorem State.le_lenAfter (s : State) (as : List Int) : s.len ≤ s.lenAfter as := by
  suffices ∀ n, n ≤ as.foldl (fun l a => max l (a.toNat + 1)) n from this s.len
  induction as with
  | nil => intro n; exact Nat.le_refl n
  | cons a as ih => intro n; exact Nat.le_trans (Nat.le_max_left _ _) (ih _)

/-- Every address accessed is below the grown LEN. -/
theorem State.lt_lenAfter (s : State) {as : List Int} {a : Int} (h : a ∈ as) : a.toNat < s.lenAfter as := by
  obtain ⟨l, r, rfl⟩ := List.append_of_mem h
  have := State.le_lenAfter (s.grow (l ++ [a])) r
  rw [State.grow_len] at this
  have e : (s.grow (l ++ [a])).lenAfter r = s.lenAfter (l ++ a :: r) := by
    simp [State.grow, State.lenAfter, List.foldl_append]
  have g : a.toNat < s.lenAfter (l ++ [a]) := by
    simp [State.lenAfter, List.foldl_append]
  omega

/-- The grown LEN stays within a bound that LEN and every accessed address keep. -/
theorem State.lenAfter_le (s : State) {as : List Int} {n : Nat} (hs : s.len ≤ n) (h : ∀ a ∈ as, a.toNat < n) :
    s.lenAfter as ≤ n := by
  suffices ∀ l, l ≤ n → as.foldl (fun l a => max l (a.toNat + 1)) l ≤ n from this s.len hs
  induction as with
  | nil => intro l hl; exact hl
  | cons a as ih =>
    intro l hl
    have := h a List.mem_cons_self
    exact ih (fun b hb => h b (List.mem_cons_of_mem _ hb)) _ (Nat.max_le.2 ⟨hl, this⟩)

/-! The first fault of a list of accesses. -/

/-- The first condition that accesses at `as`, in order, meet. -/
def accessFault (c : Config) (as : List Int) : Option FatalEvent := (as.map (addrFault c)).findSome? id

@[simp] theorem accessFault_nil (c : Config) : accessFault c [] = none := rfl

theorem accessFault_cons (c : Config) (a : Int) (as : List Int) :
    accessFault c (a :: as) = match addrFault c a with
      | none => accessFault c as
      | some e => some e := by
  simp only [accessFault, List.map_cons, List.findSome?_cons, id]
  cases addrFault c a <;> rfl

theorem accessFault_append (c : Config) (as bs : List Int) :
    accessFault c (as ++ bs) = match accessFault c as with
      | none => accessFault c bs
      | some e => some e := by
  induction as with
  | nil => rfl
  | cons a as ih =>
    rw [List.cons_append, accessFault_cons, accessFault_cons, ih]
    cases addrFault c a <;> rfl

theorem accessFault_eq_none {c : Config} {as : List Int} : accessFault c as = none ↔ ∀ a ∈ as, ValidAddr c a := by
  induction as with
  | nil => simp
  | cons a as ih =>
    rw [accessFault_cons]
    cases h : addrFault c a with
    | none =>
      have := addrFault_eq_none.1 h
      rw [ih, List.forall_mem_cons]
      exact ⟨fun h => ⟨this, h⟩, And.right⟩
    | some e =>
      have hn : ¬ ValidAddr c a := fun hv => by rw [addrFault_eq_none.2 hv] at h; cases h
      simp only [List.forall_mem_cons, hn, false_and, reduceCtorEq]

/-! The operand resolvers. -/

/-- `val(k)` (R110): the first bad access of the operand is raised; with none, the value, and LEN grown by the operand's accesses. -/
theorem readOperand_eq (m : Mode) (k : Nat) (s : State) :
    readOperand m k s = match accessFault s.cfg (s.operandAccesses m k) with
      | none => .ok (s.operandValue m k, s.grow (s.operandAccesses m k))
      | some e => .error e := by
  unfold readOperand
  rw [memRead_eq]
  cases m <;>
    simp only [State.operandAccesses, State.operandValue, State.operandAddress, effectiveAddress, accessFault_cons,
      accessFault_nil, Int.toNat_natCast] <;>
    cases h : addrFault s.cfg ((s.ip + k : Nat) : Int) <;>
    simp only [State.param] <;>
    first
    | rfl
    | (rw [memRead_eq]
       simp only [State.touch_cfg, State.touch_mem]
       split <;> simp_all
       rfl)

/-- `addr(k)` (R111) for a write operand in Position or Relative mode. -/
theorem writeOperand_eq {m : Mode} (hm : m ≠ .immediate) (k : Nat) (s : State) :
    writeOperand m k s = match accessFault s.cfg (s.operandAccesses m k) with
      | none => .ok (s.destination m k, s.grow [((s.ip + k : Nat) : Int)])
      | some e => .error e := by
  unfold writeOperand
  rw [memRead_eq]
  cases m <;> first | exact absurd rfl hm | skip
  all_goals
    simp only [State.operandAccesses, State.operandAddress, State.destination, effectiveAddress, accessFault_cons,
      accessFault_nil, Int.toNat_natCast, checkAddr_eq, Option.getD_some]
    cases h : addrFault s.cfg ((s.ip + k : Nat) : Int) <;> simp only [State.param]
  · cases addrFault s.cfg (s.mem.read (s.ip + k)) <;> rfl
  · cases addrFault s.cfg (s.rb + s.mem.read (s.ip + k)) <;> rfl

/-- A write operand in Immediate mode is never resolved: a bad parameter read is raised, else the condition R82 names. -/
theorem writeOperand_immediate (k : Nat) (s : State) :
    writeOperand .immediate k s =
      .error ((accessFault s.cfg (s.operandAccesses .immediate k)).getD ⟨.immediateWriteTarget, s.instrWord⟩) := by
  unfold writeOperand
  rw [memRead_eq]
  simp only [State.operandAccesses, State.operandAddress, effectiveAddress, accessFault_cons, accessFault_nil]
  cases addrFault s.cfg ((s.ip + k : Nat) : Int) <;> rfl

/-! The end of a step. -/

@[simp] theorem commit_ok (s t : State) : commit s (.ok t) = .next t := rfl
@[simp] theorem commit_error (s : State) (e : FatalEvent) : commit s (.error e) = .next (s.enterFatal e) := rfl

/-- `commit` answers the committed state, or the Fatal state that keeps everything else (R102, R204). -/
theorem commit_cases (s : State) (r : Except FatalEvent State) :
    (∃ t, r = .ok t ∧ commit s r = .next t) ∨ (∃ e, r = .error e ∧ commit s r = .next (s.enterFatal e)) := by
  cases r with
  | ok t => exact .inl ⟨t, rfl, rfl⟩
  | error e => exact .inr ⟨e, rfl, rfl⟩

theorem wordResult_eq (s : State) (r : Int) :
    wordResult s r = match overflowFault s r with
      | none => .ok r
      | some e => .error e := by
  unfold wordResult overflowFault
  split <;> rfl

end Sys2Proof.Machine
end

