-- ==== Sys2Proof/Laws/Channel.lean ====
section
/-! SUPPORT. What the channel transactions can do, said once. -/

namespace Sys2Proof.Machine

/-- The read transaction: a prompt's value, an empty queue, the head of a queue, or a device's answer (R150, R151, R153); it changes the list it takes from
and nothing else. -/
theorem chanRead_cases {k : ChannelKind} {c c' : Channel} {a : ReadAnswer} (h : chanRead k c = some (a, c')) :
    (k = .interactive ∧ ∃ v, a = .value v ∧ c.prompt = v :: c'.prompt ∧ c' = { c with prompt := c'.prompt }) ∨
    (k = .buffered ∧ c.inq = [] ∧ a = .empty ∧ c' = c) ∨
    (k = .buffered ∧ ∃ v, a = .value v ∧ c.inq = v :: c'.inq ∧ c' = { c with inq := c'.inq }) ∨
    (k = .device ∧ c.deviceReads = a :: c'.deviceReads ∧ c' = { c with deviceReads := c'.deviceReads }) := by
  unfold chanRead at h
  cases k <;> simp only at h <;> split at h <;> simp_all
  all_goals
    obtain ⟨rfl, rfl⟩ := h
    simp

/-- The write transaction: accepted and recorded in the place of the kind, or a device's error (R147, R151, R153). -/
theorem chanWrite_cases {cfg : Config} {v : Int} {c c' : Channel} {a : WriteAnswer} (h : chanWrite cfg v c = some (a, c')) :
    (cfg.channelKind = .interactive ∧ a = .ok ∧ c' = { c with emitted := c.emitted ++ [v] }) ∨
    (cfg.channelKind = .buffered ∧ a = .ok ∧ c' = { c with outq := c.outq ++ [v] }) ∨
    (cfg.channelKind = .device ∧ a = .ok ∧ c.deviceWrites = .ok :: c'.deviceWrites ∧
      c' = { c with deviceWrites := c'.deviceWrites, emitted := c.emitted ++ [v] }) ∨
    (cfg.channelKind = .device ∧ (∃ e, a = .error e) ∧ c.deviceWrites = a :: c'.deviceWrites ∧
      c' = { c with deviceWrites := c'.deviceWrites }) := by
  unfold chanWrite at h
  cases hk : cfg.channelKind <;> simp only [hk] at h
  · simp_all
  · split at h <;> simp_all
  · split at h <;> simp_all
    all_goals
      obtain ⟨rfl, rfl⟩ := h
      simp

/-- Only a device answers Error to a read, and it changes its list of answers only. -/
theorem chanRead_error {k : ChannelKind} {c c' : Channel} {e : Int} (h : chanRead k c = some (.error e, c')) :
    k = .device ∧ c.deviceReads = .error e :: c'.deviceReads ∧ c' = { c with deviceReads := c'.deviceReads } := by
  rcases chanRead_cases h with ⟨-, v, h, -⟩ | ⟨-, -, h, -⟩ | ⟨-, v, h, -⟩ | h
  · cases h
  · cases h
  · cases h
  · exact h

/-- Only a device answers Error to a write, and it changes its list of answers only. -/
theorem chanWrite_error {cfg : Config} {v e : Int} {c c' : Channel} (h : chanWrite cfg v c = some (.error e, c')) :
    cfg.channelKind = .device ∧ c.deviceWrites = .error e :: c'.deviceWrites ∧ c' = { c with deviceWrites := c'.deviceWrites } := by
  rcases chanWrite_cases h with ⟨-, h, -⟩ | ⟨-, h, -⟩ | ⟨-, h, -⟩ | ⟨hk, -, h⟩
  · cases h
  · cases h
  · cases h
  · exact ⟨hk, h⟩

/-- Empty comes from a Buffered channel with an empty queue, or from a device (R159). -/
theorem chanRead_empty {k : ChannelKind} {c c' : Channel} (h : chanRead k c = some (.empty, c')) :
    (k = .buffered ∧ c.inq = [] ∧ c' = c) ∨
    (k = .device ∧ c.deviceReads = .empty :: c'.deviceReads ∧ c' = { c with deviceReads := c'.deviceReads }) := by
  rcases chanRead_cases h with ⟨-, v, h, -⟩ | ⟨hk, hq, -, hc⟩ | ⟨-, v, h, -⟩ | h
  · cases h
  · exact .inl ⟨hk, hq, hc⟩
  · cases h
  · exact .inr h

end Sys2Proof.Machine
end

