-- ==== Sys2Proof/Laws/Decode.lean ====
section
/-! SUPPORT. What the decoder reads of a word, digit by digit. -/

namespace Sys2Proof

theorem Mode.digit_le (m : Mode) : m.digit ≤ 2 := by cases m <;> decide

/-- A digit selects a mode exactly when it is that mode's digit (R73). -/
theorem modeOfDigit_eq_some {d : Nat} {m : Mode} : modeOfDigit d = some m ↔ d = m.digit := by
  unfold modeOfDigit
  constructor
  · intro h
    split at h
    · cases h; assumption
    · split at h
      · cases h; assumption
      · split at h
        · cases h; assumption
        · cases h
  · rintro rfl
    cases m <;> rfl

/-- The digits 3 to 9 select no mode (R81). -/
theorem modeOfDigit_eq_none {d : Nat} : modeOfDigit d = none ↔ 3 ≤ d := by
  unfold modeOfDigit
  split
  · simp only [reduceCtorEq, false_iff]; omega
  · split
    · simp only [reduceCtorEq, false_iff]; omega
    · split
      · simp only [reduceCtorEq, false_iff]; omega
      · simp only [true_iff]; omega

/-- The opcode map read backwards (R76): the constructor an opcode selects gives instructions with that opcode and those modes. -/
theorem instrOfOpcode_spec {op : Nat} {mk : Mode → Mode → Mode → Instr} (h : instrOfOpcode op = some mk) (m1 m2 m3 : Mode) :
    (mk m1 m2 m3).opcode = op ∧ (mk m1 m2 m3).modes = (m1, m2, m3) := by
  unfold instrOfOpcode at h
  repeat' (split at h; · subst_vars; cases h; exact ⟨rfl, rfl⟩)
  cases h

/-- Every instruction is the one its opcode and modes select. -/
theorem instrOfOpcode_opcode (i : Instr) : ∃ mk, instrOfOpcode i.opcode = some mk ∧ mk i.modes.1 i.modes.2.1 i.modes.2.2 = i := by
  cases i <;> exact ⟨_, rfl, rfl⟩

theorem Instr.opcode_lt (i : Instr) : i.opcode < 100 := by cases i <;> simp [Instr.opcode]

/-- Two instructions with the same opcode and modes are one. -/
theorem Instr.ext_digits {i j : Instr} (ho : i.opcode = j.opcode) (hm : i.modes = j.modes) : i = j := by
  obtain ⟨mk, h, hi⟩ := instrOfOpcode_opcode i
  obtain ⟨mk', h', hj⟩ := instrOfOpcode_opcode j
  rw [ho, h'] at h
  cases h
  rw [← hi, ← hj, hm]

/-- What a legal word is: not negative, and its digits are those of a well-formed instruction (R71, R105). -/
theorem decode_eq_ok {w : Int} {i : Instr} :
    decode w = .ok i ↔ 0 ≤ w ∧ i.wellFormed = true ∧ w.toNat % 100 = i.opcode ∧ digit w.toNat 2 = i.modes.1.digit ∧
      digit w.toNat 3 = i.modes.2.1.digit ∧ digit w.toNat 4 = i.modes.2.2.digit := by
  unfold decode
  constructor
  · intro h
    split at h
    · cases h
    · rename_i hw
      split at h
      · cases h
      · rename_i mk hmk
        split at h
        · rename_i m1 m2 m3 h1 h2 h3
          split at h
          · rename_i hwf
            cases h
            obtain ⟨ho, hm⟩ := instrOfOpcode_spec hmk m1 m2 m3
            rw [hm]
            exact ⟨by omega, hwf, ho.symm, modeOfDigit_eq_some.1 h1, modeOfDigit_eq_some.1 h2, modeOfDigit_eq_some.1 h3⟩
          · cases h
        · cases h
  · rintro ⟨hw, hwf, ho, h1, h2, h3⟩
    obtain ⟨mk, hmk, hi⟩ := instrOfOpcode_opcode i
    rw [if_neg (by omega), ho, hmk]
    simp only [modeOfDigit_eq_some.2 h1, modeOfDigit_eq_some.2 h2, modeOfDigit_eq_some.2 h3, hi, hwf, if_true]

end Sys2Proof
end

