-- ==== Sys2Proof/Laws/Exec.lean ====
section
/-! SUPPORT. What the operand frames and the meanings can do, said once. -/

namespace Sys2Proof.Machine

theorem State.memWrite_grow (s : State) (as : List Int) (a : Int) (v : Int) :
    (s.grow as).memWrite a.toNat v = { s.grow (as ++ [a]) with mem := s.mem.write a.toNat v } := by
  simp [State.memWrite, State.touch, State.grow, State.lenAfter, List.foldl_append]

/-- The accesses of a write operand end with the store's. -/
theorem operandAccesses_write {m : Mode} (hm : m ≠ .immediate) (k : Nat) (s : State) :
    ∃ a : Int, s.operandAddress m k = some a ∧ s.destination m k = a.toNat ∧
      s.operandAccesses m k = [((s.ip + k : Nat) : Int), a] := by
  cases m
  · exact ⟨_, rfl, rfl, rfl⟩
  · exact absurd rfl hm
  · exact ⟨_, rfl, rfl, rfl⟩

/-- The two-reads-and-a-write frame (format F3): the first bad access, else the result's own condition, else the store and the advance. -/
theorem readReadWrite_eq (f : State → Int → Int → Except FatalEvent Int) (m1 m2 : Mode) {m3 : Mode} (hm : m3 ≠ .immediate) (s : State) :
    readReadWrite f m1 m2 m3 s =
      match accessFault s.cfg (s.operandAccesses m1 1 ++ (s.operandAccesses m2 2 ++ s.operandAccesses m3 3)) with
      | some e => .error e
      | none =>
        match f (s.grow (s.operandAccesses m1 1 ++ (s.operandAccesses m2 2 ++ [((s.ip + 3 : Nat) : Int)])))
            (s.operandValue m1 1) (s.operandValue m2 2) with
        | .error e => .error e
        | .ok r => .ok { s with
            mem := s.mem.write (s.destination m3 3) r
            len := s.lenAfter (s.operandAccesses m1 1 ++ (s.operandAccesses m2 2 ++ s.operandAccesses m3 3))
            ip := s.ip + 4 } := by
  unfold readReadWrite
  rw [readOperand_eq, accessFault_append]
  cases h1 : accessFault s.cfg (s.operandAccesses m1 1)
  · simp only
    rw [readOperand_eq, accessFault_append]
    simp only [State.grow_cfg, State.grow_operandAccesses, State.grow_operandValue]
    cases h2 : accessFault s.cfg (s.operandAccesses m2 2)
    · simp only
      rw [writeOperand_eq hm]
      simp only [State.grow_cfg, State.grow_operandAccesses, State.grow_destination, State.grow_ip]
      cases h3 : accessFault s.cfg (s.operandAccesses m3 3)
      · simp only [State.grow_grow, List.append_assoc]
        obtain ⟨a, -, hd, ha⟩ := operandAccesses_write hm 3 s
        cases f _ (s.operandValue m1 1) (s.operandValue m2 2)
        · rfl
        · simp only [hd, ha, State.memWrite_grow]
          simp [State.grow, State.advance, List.append_assoc]
      · rfl
    · rfl
  · rfl

/-- The frame with an Immediate write operand never stores: the first bad access is raised, else the condition R82 names. -/
theorem readReadWrite_immediate (f : State → Int → Int → Except FatalEvent Int) (m1 m2 : Mode) (s : State) :
    readReadWrite f m1 m2 .immediate s =
      .error ((accessFault s.cfg (s.operandAccesses m1 1 ++ (s.operandAccesses m2 2 ++ s.operandAccesses .immediate 3))).getD
        ⟨.immediateWriteTarget, s.instrWord⟩) := by
  unfold readReadWrite
  rw [readOperand_eq, accessFault_append]
  cases accessFault s.cfg (s.operandAccesses m1 1)
  · simp only
    rw [readOperand_eq, accessFault_append]
    simp only [State.grow_cfg, State.grow_operandAccesses]
    cases accessFault s.cfg (s.operandAccesses m2 2)
    · simp only [writeOperand_immediate]
      rfl
    · rfl
  · rfl

/-- The jump frame (format F2): the first bad access, else a taken negative target, else the jump or the advance. -/
theorem readReadJump_eq (cond : Int → Bool) (m1 m2 : Mode) (s : State) :
    readReadJump cond m1 m2 s =
      match accessFault s.cfg (s.operandAccesses m1 1 ++ s.operandAccesses m2 2) with
      | some e => .error e
      | none =>
        if cond (s.operandValue m1 1) = true ∧ s.operandValue m2 2 < 0 then .error ⟨.negativeAddress, s.operandValue m2 2⟩
        else .ok { s with
          len := s.lenAfter (s.operandAccesses m1 1 ++ s.operandAccesses m2 2)
          ip := if cond (s.operandValue m1 1) = true then (s.operandValue m2 2).toNat else s.ip + 3 } := by
  unfold readReadJump
  rw [readOperand_eq, accessFault_append]
  cases h1 : accessFault s.cfg (s.operandAccesses m1 1)
  · simp only
    rw [readOperand_eq]
    simp only [State.grow_cfg, State.grow_operandAccesses, State.grow_operandValue, State.grow_grow]
    cases h2 : accessFault s.cfg (s.operandAccesses m2 2)
    · simp only
      by_cases hc : cond (s.operandValue m1 1) = true
      · by_cases ht : s.operandValue m2 2 < 0
        · simp [hc, ht]
        · simp [hc, ht, State.grow]
      · simp [hc, State.grow, State.advance]
    · rfl
  · rfl

/-- ADJUST-BASE: its operand's first bad access, else an overflow, else the new base and the advance. -/
theorem execAdjustBase_eq (m1 : Mode) (s : State) :
    execAdjustBase m1 s =
      match accessFault s.cfg (s.operandAccesses m1 1) with
      | some e => .next (s.enterFatal e)
      | none =>
        match overflowFault s (s.rb + s.operandValue m1 1) with
        | some e => .next (s.enterFatal e)
        | none => .next { s with
            rb := s.rb + s.operandValue m1 1, len := s.lenAfter (s.operandAccesses m1 1), ip := s.ip + 2 } := by
  unfold execAdjustBase
  rw [readOperand_eq]
  cases h1 : accessFault s.cfg (s.operandAccesses m1 1)
  · simp only [adjustBaseBy]
    rw [wordResult_eq]
    have : overflowFault (s.grow (s.operandAccesses m1 1)) ((s.grow (s.operandAccesses m1 1)).rb + s.operandValue m1 1) =
        overflowFault s (s.rb + s.operandValue m1 1) := rfl
    rw [this]
    cases overflowFault s (s.rb + s.operandValue m1 1)
    · simp [State.grow, State.advance]
    · rfl
  · rfl

/-- INPUT with a destination that may be written: its first bad access, else what the channel's answer makes of it. -/
theorem execInput_eq {m1 : Mode} (hm : m1 ≠ .immediate) (s : State) :
    execInput m1 s =
      match accessFault s.cfg (s.operandAccesses m1 1) with
      | some e => .next (s.enterFatal e)
      | none => .next (inputTo (s.destination m1 1) (s.grow [((s.ip + 1 : Nat) : Int)]) s) := by
  unfold execInput
  rw [writeOperand_eq hm]
  cases accessFault s.cfg (s.operandAccesses m1 1) <;> rfl

/-- The state INPUT commits when the channel answers a value. -/
theorem inputTo_value {m1 : Mode} (hm : m1 ≠ .immediate) {s : State} {v : Int} {c : Channel}
    (h : chanRead s.cfg.channelKind s.chan = some (.value v, c)) :
    inputTo (s.destination m1 1) (s.grow [((s.ip + 1 : Nat) : Int)]) s =
      { s with
        mem := s.mem.write (s.destination m1 1) v
        len := s.lenAfter (s.operandAccesses m1 1)
        ip := s.ip + 2
        chan := c } := by
  obtain ⟨a, -, hd, ha⟩ := operandAccesses_write hm 1 s
  simp only [inputTo, h, hd, ha, State.memWrite_grow]
  simp [State.grow, State.advance]

/-- An Immediate INPUT never asks the channel. -/
theorem execInput_immediate (s : State) :
    execInput .immediate s = .next (s.enterFatal
      ((accessFault s.cfg (s.operandAccesses .immediate 1)).getD ⟨.immediateWriteTarget, s.instrWord⟩)) := by
  rw [execInput, writeOperand_immediate]
  rfl

/-- OUTPUT: its operand's first bad access, else what the channel's answer makes of it. -/
theorem execOutput_eq (m1 : Mode) (s : State) :
    execOutput m1 s =
      match accessFault s.cfg (s.operandAccesses m1 1) with
      | some e => .next (s.enterFatal e)
      | none => .next (outputWord (s.operandValue m1 1) (s.grow (s.operandAccesses m1 1)) s) := by
  unfold execOutput
  rw [readOperand_eq]
  cases accessFault s.cfg (s.operandAccesses m1 1) <;> rfl

/-- The first fault of an instruction, from the faults of its accesses and of its execute phase. -/
theorem firstFault_eq (i : Instr) (s : State) :
    firstFault i s =
      match accessFault s.cfg ((Instr.operands i).flatMap (fun p => s.operandAccesses p.1 p.2)) with
      | some e => some e
      | none => executeFault i s := by
  unfold firstFault accessFault
  rw [List.findSome?_append]
  cases List.findSome? id (((Instr.operands i).flatMap (fun p => s.operandAccesses p.1 p.2)).map (addrFault s.cfg))
  · cases executeFault i s <;> rfl
  · rfl

/-- Looking at the fetch's address first does not change the grown LEN: a parameter stands after it. -/
theorem State.lenAfter_fetch (s : State) (k : Nat) (as : List Int) :
    s.lenAfter ((s.ip : Int) :: ((s.ip + k : Nat) : Int) :: as) = s.lenAfter (((s.ip + k : Nat) : Int) :: as) := by
  have : max (max s.len (s.ip + 1)) (s.ip + k + 1) = max s.len (s.ip + k + 1) := by omega
  simp only [State.lenAfter, List.foldl_cons, Int.toNat_natCast, this]

/-- An operand's accesses begin with its parameter word. -/
theorem operandAccesses_head (s : State) (m : Mode) (k : Nat) :
    ∃ rest, s.operandAccesses m k = ((s.ip + k : Nat) : Int) :: rest := by
  cases m
  · exact ⟨_, rfl⟩
  · exact ⟨_, rfl⟩
  · exact ⟨_, rfl⟩

/-- The same for an instruction's operands, the first of them at position 1. -/
theorem State.lenAfter_accesses (s : State) (m1 : Mode) (rest : List Int) :
    s.lenAfter ((s.ip : Int) :: (s.operandAccesses m1 1 ++ rest)) = s.lenAfter (s.operandAccesses m1 1 ++ rest) := by
  obtain ⟨r, hr⟩ := operandAccesses_head s m1 1
  rw [hr]
  exact State.lenAfter_fetch s 1 (r ++ rest)

/-! One inversion lemma for the whole of `exec`. -/

/-- All that instruction `i` can do to state `s`, with what must hold for it: the fatal entry; a result stored; a jump taken or not; a new base; the effects of
a channel transaction; suspension; a hold; halting. -/
inductive Effect (i : Instr) (s : State) : State → Prop where
  | fatal (e : FatalEvent) (h : firstFault i s = some e ∨ i.wellFormed = false) : Effect i s (s.enterFatal e)
  | store (a v : Int) (hi : i.paramCount = 3) (ha : storedAddress i s = some a) (hv : s.cfg.isWord v = true ∨ v = 0 ∨ v = 1)
      (h : firstFault i s = none) :
      Effect i s { s with mem := s.mem.write a.toNat v, len := s.lenAfter (accesses i s), ip := s.ip + 4 }
  | jump (t : Nat) (hi : i.paramCount = 2) (ht : t = s.ip + 3 ∨ ∃ m, t = (s.operandValue m 2).toNat) (h : firstFault i s = none) :
      Effect i s { s with len := s.lenAfter (accesses i s), ip := t }
  | base (m1 m2 m3 : Mode) (hi : i = .adjustBase m1 m2 m3) (h : firstFault i s = none) :
      Effect i s { s with rb := s.rb + s.operandValue m1 1, len := s.lenAfter (accesses i s), ip := s.ip + 2 }
  | input (m1 m2 m3 : Mode) (a v : Int) (c : Channel) (hi : i = .input m1 m2 m3) (ha : storedAddress i s = some a)
      (h : firstFault i s = none) (hr : chanRead s.cfg.channelKind s.chan = some (.value v, c)) :
      Effect i s { s with mem := s.mem.write a.toNat v, len := s.lenAfter (accesses i s), ip := s.ip + 2, chan := c }
  | suspend (m1 m2 m3 : Mode) (c : Channel) (hi : i = .input m1 m2 m3) (hm : m1 ≠ .immediate) (h : firstFault i s = none)
      (hr : chanRead s.cfg.channelKind s.chan = some (.empty, c)) : Effect i s { s with runState := .awaitingInput, chan := c }
  | readError (m1 m2 m3 : Mode) (e : Int) (c : Channel) (hi : i = .input m1 m2 m3) (h : firstFault i s = none)
      (hr : chanRead s.cfg.channelKind s.chan = some (.error e, c)) :
      Effect i s { s with runState := .fatal, faultCause := some .deviceError, faultInfo := e, chan := c }
  | output (m1 m2 m3 : Mode) (c : Channel) (hi : i = .output m1 m2 m3) (h : firstFault i s = none)
      (hr : chanWrite s.cfg (s.operandValue m1 1) s.chan = some (.ok, c)) :
      Effect i s { s with len := s.lenAfter (accesses i s), ip := s.ip + 2, chan := c }
  | writeError (m1 m2 m3 : Mode) (e : Int) (c : Channel) (hi : i = .output m1 m2 m3) (h : firstFault i s = none)
      (hr : chanWrite s.cfg (s.operandValue m1 1) s.chan = some (.error e, c)) :
      Effect i s { s with runState := .fatal, faultCause := some .deviceError, faultInfo := e, chan := c }
  | held (m1 m2 m3 : Mode) (hi : i = .input m1 m2 m3 ∧ chanRead s.cfg.channelKind s.chan = none ∨
      i = .output m1 m2 m3 ∧ chanWrite s.cfg (s.operandValue m1 1) s.chan = none) (h : firstFault i s = none) : Effect i s s
  | halt (m1 m2 m3 : Mode) (hi : i = .halt m1 m2 m3) : Effect i s { s with runState := .halted }

/-- The accesses of operands 1, 2, 3, and of operands 1, 2, and of operand 1, as `firstFault` lists them. -/
theorem firstFault_three {i : Instr} {s : State} {m1 m2 m3 : Mode} (ho : Instr.operands i = [(m1, 1), (m2, 2), (m3, 3)]) :
    firstFault i s =
      match accessFault s.cfg (s.operandAccesses m1 1 ++ (s.operandAccesses m2 2 ++ s.operandAccesses m3 3)) with
      | some e => some e
      | none => executeFault i s := by
  rw [firstFault_eq, ho]
  simp only [List.flatMap_cons, List.flatMap_nil, List.append_nil]

theorem firstFault_two {i : Instr} {s : State} {m1 m2 : Mode} (ho : Instr.operands i = [(m1, 1), (m2, 2)]) :
    firstFault i s =
      match accessFault s.cfg (s.operandAccesses m1 1 ++ s.operandAccesses m2 2) with
      | some e => some e
      | none => executeFault i s := by
  rw [firstFault_eq, ho]
  simp only [List.flatMap_cons, List.flatMap_nil, List.append_nil]

theorem firstFault_one {i : Instr} {s : State} {m1 : Mode} (ho : Instr.operands i = [(m1, 1)]) :
    firstFault i s =
      match accessFault s.cfg (s.operandAccesses m1 1) with
      | some e => some e
      | none => executeFault i s := by
  rw [firstFault_eq, ho]
  simp only [List.flatMap_cons, List.flatMap_nil, List.append_nil]

theorem lenAfter_three {i : Instr} {s : State} {m1 m2 m3 : Mode} (ho : Instr.operands i = [(m1, 1), (m2, 2), (m3, 3)]) :
    s.lenAfter (s.operandAccesses m1 1 ++ (s.operandAccesses m2 2 ++ s.operandAccesses m3 3)) = s.lenAfter (accesses i s) := by
  simp only [accesses, ho, List.flatMap_cons, List.flatMap_nil, List.append_nil, State.lenAfter_accesses]

theorem lenAfter_two {i : Instr} {s : State} {m1 m2 : Mode} (ho : Instr.operands i = [(m1, 1), (m2, 2)]) :
    s.lenAfter (s.operandAccesses m1 1 ++ s.operandAccesses m2 2) = s.lenAfter (accesses i s) := by
  simp only [accesses, ho, List.flatMap_cons, List.flatMap_nil, List.append_nil, State.lenAfter_accesses]

theorem lenAfter_one {i : Instr} {s : State} {m1 : Mode} (ho : Instr.operands i = [(m1, 1)]) :
    s.lenAfter (s.operandAccesses m1 1) = s.lenAfter (accesses i s) := by
  have := State.lenAfter_accesses s m1 []
  simp only [List.append_nil] at this
  simp only [accesses, ho, List.flatMap_cons, List.flatMap_nil, List.append_nil, this]

/-- The four storing instructions: `f` raises what `executeFault` says and is otherwise a result. -/
theorem effect_readReadWrite {i : Instr} {s : State} (f : State → Int → Int → Except FatalEvent Int) (m1 m2 m3 : Mode)
    (hp : i.paramCount = 3) (ho : Instr.operands i = [(m1, 1), (m2, 2), (m3, 3)]) (hs : storedAddress i s = s.operandAddress m3 3)
    (hw : i.wellFormed = false ↔ m3 = .immediate)
    (hf : ∀ as, (∃ e, executeFault i s = some e ∧ f (s.grow as) (s.operandValue m1 1) (s.operandValue m2 2) = .error e) ∨
      (∃ r, executeFault i s = none ∧ f (s.grow as) (s.operandValue m1 1) (s.operandValue m2 2) = .ok r ∧
        (s.cfg.isWord r = true ∨ r = 0 ∨ r = 1))) :
    ∃ t, commit s (readReadWrite f m1 m2 m3 s) = .next t ∧ Effect i s t := by
  by_cases hm : m3 = .immediate
  · have hw' := hw.2 hm
    subst hm
    exact ⟨_, by rw [readReadWrite_immediate]; rfl, .fatal _ (.inr hw')⟩
  · have hff := firstFault_three (s := s) ho
    rw [readReadWrite_eq f m1 m2 hm]
    cases h : accessFault s.cfg (s.operandAccesses m1 1 ++ (s.operandAccesses m2 2 ++ s.operandAccesses m3 3)) with
    | some e => exact ⟨_, rfl, .fatal e (.inl (by rw [hff, h]))⟩
    | none =>
      rw [h] at hff
      simp only
      rcases hf (s.operandAccesses m1 1 ++ (s.operandAccesses m2 2 ++ [((s.ip + 3 : Nat) : Int)])) with ⟨e, he, hfe⟩ | ⟨r, hr, hfr, hv⟩
      · exact ⟨_, by rw [hfe]; rfl, .fatal e (.inl (by rw [hff, he]))⟩
      · obtain ⟨a, ha, hd, -⟩ := operandAccesses_write hm 3 s
        refine ⟨_, by rw [hfr]; rfl, ?_⟩
        rw [lenAfter_three ho, hd]
        exact .store a r hp (by rw [hs, ha]) hv (by rw [hff, hr])

/-- The two jumps. -/
theorem effect_readReadJump {i : Instr} {s : State} (cond : Int → Bool) (m1 m2 : Mode)
    (hp : i.paramCount = 2) (ho : Instr.operands i = [(m1, 1), (m2, 2)])
    (hf : executeFault i s = if cond (s.operandValue m1 1) = true ∧ s.operandValue m2 2 < 0 then
      some ⟨.negativeAddress, s.operandValue m2 2⟩ else none) :
    ∃ t, commit s (readReadJump cond m1 m2 s) = .next t ∧ Effect i s t := by
  have hff := firstFault_two (s := s) ho
  rw [readReadJump_eq]
  cases h : accessFault s.cfg (s.operandAccesses m1 1 ++ s.operandAccesses m2 2) with
  | some e => exact ⟨_, rfl, .fatal e (.inl (by rw [hff, h]))⟩
  | none =>
    rw [h, hf] at hff
    simp only at hff ⊢
    split
    · rename_i hc
      exact ⟨_, rfl, .fatal _ (.inl (by rw [hff, if_pos hc]))⟩
    · rename_i hc
      refine ⟨_, rfl, ?_⟩
      rw [lenAfter_two ho]
      refine .jump _ hp ?_ (by rw [hff, if_neg hc])
      by_cases ht : cond (s.operandValue m1 1) = true
      · exact .inr ⟨m2, if_pos ht⟩
      · exact .inl (if_neg ht)

theorem effect_inputTo {s : State} (m1 m2 m3 : Mode) (hm : m1 ≠ .immediate) (h : firstFault (.input m1 m2 m3) s = none) :
    Effect (.input m1 m2 m3) s (inputTo (s.destination m1 1) (s.grow [((s.ip + 1 : Nat) : Int)]) s) := by
  cases hr : chanRead s.cfg.channelKind s.chan with
  | none => simp only [inputTo, hr]; exact .held m1 m2 m3 (.inl ⟨rfl, hr⟩) h
  | some p =>
    obtain ⟨a, c⟩ := p
    cases a with
    | value v =>
      obtain ⟨b, hb, hd, -⟩ := operandAccesses_write hm 1 s
      rw [inputTo_value hm hr, lenAfter_one (i := .input m1 m2 m3) rfl, hd]
      exact .input m1 m2 m3 b v c rfl hb h hr
    | empty => simp only [inputTo, hr]; exact .suspend m1 m2 m3 c rfl hm h hr
    | error e => simp only [inputTo, hr]; exact .readError m1 m2 m3 e c rfl h hr

theorem effect_outputWord {s : State} (m1 m2 m3 : Mode) (h : firstFault (.output m1 m2 m3) s = none) :
    Effect (.output m1 m2 m3) s (outputWord (s.operandValue m1 1) (s.grow (s.operandAccesses m1 1)) s) := by
  cases hr : chanWrite s.cfg (s.operandValue m1 1) s.chan with
  | none => simp only [outputWord, hr]; exact .held m1 m2 m3 (.inr ⟨rfl, hr⟩) h
  | some p =>
    obtain ⟨a, c⟩ := p
    cases a with
    | ok =>
      have : outputWord (s.operandValue m1 1) (s.grow (s.operandAccesses m1 1)) s =
          { s with len := s.lenAfter (accesses (.output m1 m2 m3) s), ip := s.ip + 2, chan := c } := by
        rw [← lenAfter_one (i := .output m1 m2 m3) rfl]
        simp only [outputWord, hr]
        rfl
      rw [this]
      exact .output m1 m2 m3 c rfl h hr
    | error e => simp only [outputWord, hr]; exact .writeError m1 m2 m3 e c rfl h hr

/-- A result that must be a word raises what `overflowFault` says. -/
theorem wordResult_cases (s : State) (as : List Int) (r : Int) :
    (∃ e, overflowFault s r = some e ∧ wordResult (s.grow as) r = .error e) ∨
    (∃ r', overflowFault s r = none ∧ wordResult (s.grow as) r = .ok r' ∧ (s.cfg.isWord r' = true ∨ r' = 0 ∨ r' = 1)) := by
  rw [wordResult_eq]
  have : overflowFault (s.grow as) r = overflowFault s r := rfl
  rw [this]
  cases h : overflowFault s r with
  | none =>
    refine .inr ⟨r, rfl, rfl, .inl ?_⟩
    by_contra hw
    rw [overflowFault, if_neg hw] at h
    cases h
  | some e => exact .inl ⟨e, rfl, rfl⟩

theorem wellFormed_writeMode (m : Mode) : ((some m != some Mode.immediate) = false) ↔ m = .immediate := by
  cases m <;> simp

/-- Every instruction answers a next state, and one of the effects above. -/
theorem exec_effect (i : Instr) (s : State) : ∃ t, exec i s = .next t ∧ Effect i s t := by
  cases i with
  | add m1 m2 m3 =>
    exact effect_readReadWrite _ m1 m2 m3 rfl rfl rfl (wellFormed_writeMode m3)
      (fun as => wordResult_cases s as (s.operandValue m1 1 + s.operandValue m2 2))
  | mul m1 m2 m3 =>
    exact effect_readReadWrite _ m1 m2 m3 rfl rfl rfl (wellFormed_writeMode m3)
      (fun as => wordResult_cases s as (s.operandValue m1 1 * s.operandValue m2 2))
  | lessThan m1 m2 m3 =>
    exact effect_readReadWrite _ m1 m2 m3 rfl rfl rfl (wellFormed_writeMode m3)
      (fun _ => .inr ⟨_, rfl, rfl, .inr (by unfold lessThanWord; split <;> simp)⟩)
  | equals m1 m2 m3 =>
    exact effect_readReadWrite _ m1 m2 m3 rfl rfl rfl (wellFormed_writeMode m3)
      (fun _ => .inr ⟨_, rfl, rfl, .inr (by unfold equalsWord; split <;> simp)⟩)
  | jumpIfTrue m1 m2 m3 =>
    exact effect_readReadJump _ m1 m2 rfl rfl (by simp only [executeFault, targetFault, testNonZero, bne_iff_ne])
  | jumpIfFalse m1 m2 m3 =>
    exact effect_readReadJump _ m1 m2 rfl rfl (by simp only [executeFault, targetFault, testZero, beq_iff_eq])
  | input m1 m2 m3 =>
    by_cases hm : m1 = .immediate
    · subst hm
      exact ⟨_, execInput_immediate s, .fatal _ (.inr rfl)⟩
    · show ∃ t, execInput m1 s = .next t ∧ _
      have hff := firstFault_one (i := .input m1 m2 m3) (s := s) rfl
      rw [execInput_eq hm]
      cases h : accessFault s.cfg (s.operandAccesses m1 1) with
      | some e => exact ⟨_, rfl, .fatal e (.inl (by rw [hff, h]))⟩
      | none => exact ⟨_, rfl, effect_inputTo m1 m2 m3 hm (by rw [hff, h]; rfl)⟩
  | output m1 m2 m3 =>
    show ∃ t, execOutput m1 s = .next t ∧ _
    have hff := firstFault_one (i := .output m1 m2 m3) (s := s) rfl
    rw [execOutput_eq]
    cases h : accessFault s.cfg (s.operandAccesses m1 1) with
    | some e => exact ⟨_, rfl, .fatal e (.inl (by rw [hff, h]))⟩
    | none => exact ⟨_, rfl, effect_outputWord m1 m2 m3 (by rw [hff, h]; rfl)⟩
  | adjustBase m1 m2 m3 =>
    show ∃ t, execAdjustBase m1 s = .next t ∧ _
    have hff := firstFault_one (i := .adjustBase m1 m2 m3) (s := s) rfl
    rw [execAdjustBase_eq]
    cases h : accessFault s.cfg (s.operandAccesses m1 1) with
    | some e => exact ⟨_, rfl, .fatal e (.inl (by rw [hff, h]))⟩
    | none =>
      have hx : executeFault (.adjustBase m1 m2 m3) s = overflowFault s (s.rb + s.operandValue m1 1) := rfl
      simp only [h] at hff ⊢
      rw [hx] at hff
      cases ho : overflowFault s (s.rb + s.operandValue m1 1) with
      | some e => exact ⟨_, rfl, .fatal e (.inl (by rw [hff, ho]))⟩
      | none =>
        refine ⟨_, rfl, ?_⟩
        rw [lenAfter_one (i := .adjustBase m1 m2 m3) rfl]
        exact .base m1 m2 m3 rfl (by rw [hff, ho])
  | halt m1 m2 m3 => exact ⟨_, rfl, .halt m1 m2 m3 rfl⟩

/-- A well-formed instruction's first fault is what it does (R102, R118). -/
theorem exec_of_firstFault {i : Instr} {s : State} {e : FatalEvent} (hw : i.wellFormed = true) (h : firstFault i s = some e) :
    exec i s = .next (s.enterFatal e) := by
  obtain ⟨t, ht, he⟩ := exec_effect i s
  rw [ht]
  cases he with
  | fatal e' h' =>
    rcases h' with h' | h'
    · rw [h] at h'; cases h'; rfl
    · rw [hw] at h'; cases h'
  | halt _ _ _ hi => subst hi; cases h
  | store _ _ _ _ _ h' => rw [h] at h'; cases h'
  | jump _ _ _ h' => rw [h] at h'; cases h'
  | base _ _ _ _ h' => rw [h] at h'; cases h'
  | input _ _ _ _ _ _ _ _ h' => rw [h] at h'; cases h'
  | suspend _ _ _ _ _ _ h' => rw [h] at h'; cases h'
  | readError _ _ _ _ _ _ h' => rw [h] at h'; cases h'
  | output _ _ _ _ _ h' => rw [h] at h'; cases h'
  | writeError _ _ _ _ _ _ h' => rw [h] at h'; cases h'
  | held _ _ _ _ h' => rw [h] at h'; cases h'

end Sys2Proof.Machine
end

