-- ==== Sys2Proof/Laws/Step.lean ====
section
/-! SUPPORT. What a step can do, said once. -/

namespace Sys2Proof.Machine

/-- The fetch (R100 phase 1): the instruction word, or the capacity fault. -/
theorem fetchWord_eq (s : State) :
    fetchWord s = match addrFault s.cfg s.ip with
      | none => .ok s.instrWord
      | some e => .error e := by
  unfold fetchWord
  rw [checkAddr_eq]
  cases addrFault s.cfg (s.ip : Int) <;> rfl

/-- IP is never negative, so a fetch can only pass the capacity (R118 item 1). -/
theorem fetch_fault {s : State} (h : ¬ ValidAddr s.cfg s.ip) : addrFault s.cfg s.ip = some ⟨.capacityExceeded, s.ip⟩ := by
  unfold addrFault
  rw [if_neg h, if_neg (by omega)]

/-- One step of a Running instance: a fault at the fetch, a fault at the decoder, or the decoded instruction. -/
theorem stepRunning_cases (s : State) :
    (¬ ValidAddr s.cfg s.ip ∧ stepRunning s = .next (s.enterFatal ⟨.capacityExceeded, s.ip⟩)) ∨
    (ValidAddr s.cfg s.ip ∧ ∃ e, decode s.instrWord = .error e ∧ stepRunning s = .next (s.enterFatal ⟨decodeCause e, s.instrWord⟩)) ∨
    (ValidAddr s.cfg s.ip ∧ ∃ i, decode s.instrWord = .ok i ∧ stepRunning s = exec i s) := by
  unfold stepRunning
  rw [fetchWord_eq]
  by_cases hv : ValidAddr s.cfg s.ip
  · rw [addrFault_eq_none.2 hv]
    cases h : decode s.instrWord with
    | error e => exact .inr (.inl ⟨hv, e, rfl, by simp only [h, commit_error]⟩)
    | ok i => exact .inr (.inr ⟨hv, i, rfl, by simp only [h]⟩)
  · rw [fetch_fault hv]
    exact .inl ⟨hv, rfl⟩

/-- All that a step of a Running instance can do: fault at the fetch, fault at the decoder, or the decoded instruction's effect. -/
inductive StepEffect (s : State) : State → Prop where
  | fetchFault (h : ¬ ValidAddr s.cfg s.ip) : StepEffect s (s.enterFatal ⟨.capacityExceeded, s.ip⟩)
  | illegal (e : DecodeError) (hv : ValidAddr s.cfg s.ip) (h : decode s.instrWord = .error e) :
      StepEffect s (s.enterFatal ⟨decodeCause e, s.instrWord⟩)
  | instr (i : Instr) (t : State) (hv : ValidAddr s.cfg s.ip) (h : decode s.instrWord = .ok i) (hx : exec i s = .next t)
      (he : Effect i s t) : StepEffect s t

/-- One step of a Running instance answers a next state, and one of these effects. -/
theorem stepRunning_effect (s : State) : ∃ t, stepRunning s = .next t ∧ StepEffect s t := by
  rcases stepRunning_cases s with ⟨hv, h⟩ | ⟨hv, e, he, h⟩ | ⟨hv, i, hi, h⟩
  · exact ⟨_, h, .fetchFault hv⟩
  · exact ⟨_, h, .illegal e hv he⟩
  · obtain ⟨t, ht, hf⟩ := exec_effect i s
    exact ⟨t, by rw [h, ht], .instr i t hv hi ht hf⟩

/-- A step of a live instance is a step of the resumed one (R247). -/
theorem step_of_live {s : State} (h : s.runState = .running ∨ s.runState = .awaitingInput) : step s = stepRunning s.resume := by
  rcases h with h | h
  · simp only [step, stepCommand, h, State.resume_of_running s h]
  · simp only [step, stepCommand, h]

/-- A step of a terminal instance changes nothing (R247). -/
theorem step_of_terminal {s : State} (h : s.runState = .halted ∨ s.runState = .fatal) : step s = .next s := by
  rcases h with h | h <;> simp only [step, stepCommand, h]

/-- Every step answers a next state: the same one in a terminal state, else an effect of the resumed instance. -/
theorem step_cases (s : State) :
    ((s.runState = .halted ∨ s.runState = .fatal) ∧ step s = .next s) ∨
    ((s.runState = .running ∨ s.runState = .awaitingInput) ∧ ∃ t, step s = .next t ∧ stepRunning s.resume = .next t ∧ StepEffect s.resume t) := by
  have hlive : s.runState = .running ∨ s.runState = .awaitingInput →
      ∃ t, step s = .next t ∧ stepRunning s.resume = .next t ∧ StepEffect s.resume t := fun h => by
    obtain ⟨t, ht, he⟩ := stepRunning_effect s.resume
    exact ⟨t, by rw [step_of_live h, ht], ht, he⟩
  cases h : s.runState
  · exact .inr ⟨.inl rfl, hlive (.inl h)⟩
  · exact .inl ⟨.inl rfl, step_of_terminal (.inl h)⟩
  · exact .inr ⟨.inr rfl, hlive (.inr h)⟩
  · exact .inl ⟨.inr rfl, step_of_terminal (.inr h)⟩

/-- `n + 1` Steps are one Step and then `n`. -/
theorem core_run_succ (n : Nat) {s t : State} (h : step s = .next t) :
    Host.Core.run Sys2Proof.core (n + 1) s = Host.Core.run Sys2Proof.core n t := by
  simp only [Host.Core.run]
  have : Sys2Proof.core.step s = Host.Outcome.next t := h
  rw [this]

theorem core_run_zero (s : State) : Host.Core.run Sys2Proof.core 0 s = .next s := rfl

end Sys2Proof.Machine
end

