-- ==== Sys2Proof/Laws/Network.lean ====
section
/-! SUPPORT. What the host's queue commands and a network's step can do, said once. -/

namespace Sys2Proof.Machine

/-! The queue commands of a lone instance (R156). -/

/-- AppendInput, if the host has it, adds a word at the tail of INQ and changes nothing else. -/
theorem appendInput_cases {v : Int} {s t : State} (h : appendInput v s = some t) :
    s.cfg.channelKind = .buffered ∧ s.cfg.isWord v = true ∧ t = { s with chan := { s.chan with inq := s.chan.inq ++ [v] } } := by
  unfold appendInput at h
  split at h
  · rename_i hc
    cases h
    exact ⟨hc.1, hc.2.1, rfl⟩
  · cases h

/-- TakeOutput, if it gives a value, gives the head of OUTQ and changes nothing else. -/
theorem takeOutput_cases {v : Int} {s t : State} (h : takeOutput s = .taken v t) :
    s.cfg.channelKind = .buffered ∧ s.chan.outq = v :: t.chan.outq ∧ t = { s with chan := { s.chan with outq := t.chan.outq } } := by
  unfold takeOutput at h
  split at h
  · rename_i hk
    split at h
    · cases h
    · rename_i u rest hq
      cases h
      exact ⟨hk, hq, rfl⟩
  · cases h

/-! Queues and members of a network. -/

namespace Network

variable (n : Network)

/-- A queue after one is replaced. -/
theorem queue_set {k : Nat} (h : k < n.queues.length) (q : List Int) (j : Nat) :
    Network.queue { n with queues := n.queues.set k q } j = if j = k then q else n.queue j := by
  unfold Network.queue
  by_cases hj : j = k
  · subst hj; simp [List.getD, h]
  · simp [List.getD, hj, Ne.symm hj]

@[simp] theorem attach_cfg (m : Member) : (n.attach m).cfg = m.vm.cfg := by
  unfold Network.attach; cases m.wiring <;> rfl

theorem attach_of_lone {m : Member} (h : m.wiring = none) : n.attach m = m.vm := by
  unfold Network.attach; rw [h]

theorem attach_of_wired {m : Member} {w : Wiring} (h : m.wiring = some w) :
    n.attach m = { m.vm with chan := { m.vm.chan with inq := n.queue w.inQueue, outq := n.queue w.outQueue } } := by
  unfold Network.attach; rw [h]

/-- Whether a network is accepted depends on its members' wiring and parameters and on how many queues there are, and on nothing else. -/
theorem accepted_of_shape {n n' : Network} (hm : n'.members.map (fun m => (m.wiring, m.vm.cfg)) = n.members.map (fun m => (m.wiring, m.vm.cfg)))
    (hq : n'.queues.length = n.queues.length) : n'.accepted = n.accepted := by
  have hread : ∀ n : Network, n.readers = (n.members.map (fun m => (m.wiring, m.vm.cfg))).filterMap (fun p => p.1.map Wiring.inQueue) :=
    fun n => by simp only [Network.readers, List.filterMap_map]; rfl
  have hwrite : ∀ n : Network, n.writers = (n.members.map (fun m => (m.wiring, m.vm.cfg))).filterMap (fun p => p.1.map Wiring.outQueue) :=
    fun n => by simp only [Network.writers, List.filterMap_map]; rfl
  have hall : ∀ n : Network, n.members.all n.wired =
      (n.members.map (fun m => (m.wiring, m.vm.cfg))).all (fun p => match p.1 with
        | none => true
        | some w => decide (p.2.channelKind = .buffered) && decide (w.inQueue < n.queues.length) && decide (w.outQueue < n.queues.length)) :=
    fun n => by rw [List.all_map]; rfl
  have hwidth : ∀ n : Network, n.members.all (fun m => n.members.all m.sameWidth) =
      (n.members.map (fun m => (m.wiring, m.vm.cfg))).all (fun p => (n.members.map (fun m => (m.wiring, m.vm.cfg))).all (fun p' =>
        match p.1, p'.1 with
        | some w, some w' => decide (w.outQueue = w'.inQueue → p.2.width = p'.2.width)
        | some _, none => true
        | none, _ => true)) :=
    fun n => by simp only [List.all_map]; rfl
  unfold Network.accepted Network.exclusive
  rw [hread n', hwrite n', hall n', hwidth n', hread n, hwrite n, hall n, hwidth n, hm, hq]

/-- Replacing a member by one of the same wiring and parameters keeps the shape. -/
theorem shape_set {l : List Member} {i : Nat} {m m' : Member} (h : l[i]? = some m) (hw : m'.wiring = m.wiring) (hc : m'.vm.cfg = m.vm.cfg) :
    (l.set i m').map (fun m => (m.wiring, m.vm.cfg)) = l.map (fun m => (m.wiring, m.vm.cfg)) := by
  rw [List.map_set, hw, hc]
  apply List.ext_getElem?
  intro j
  rw [List.getElem?_set]
  split
  · subst_vars
    split
    · simp [h]
    · simp_all
  · rfl

/-! A step. -/

/-- The instance of a member after its step reached `t`: a wired one gets its own unused queues back. -/
def stepped (m : Member) (t : State) : State :=
  match m.wiring with
  | none => t
  | some _ => { t with chan := { t.chan with inq := m.vm.chan.inq, outq := m.vm.chan.outq } }

@[simp] theorem stepped_cfg (m : Member) (t : State) : (stepped m t).cfg = t.cfg := by unfold stepped; cases m.wiring <;> rfl

theorem detach_members (i : Nat) (m : Member) (t : State) : (n.detach i m t).members = n.members.set i { m with vm := stepped m t } := by
  unfold Network.detach stepped; cases m.wiring <;> rfl

@[simp] theorem detach_concurrent (i : Nat) (m : Member) (t : State) : (n.detach i m t).concurrent = n.concurrent := by
  unfold Network.detach; cases m.wiring <;> rfl

theorem detach_queues_of_lone {m : Member} (h : m.wiring = none) (i : Nat) (t : State) : (n.detach i m t).queues = n.queues := by
  unfold Network.detach; rw [h]

theorem detach_queues_of_wired {m : Member} {w : Wiring} (h : m.wiring = some w) (i : Nat) (t : State) :
    (n.detach i m t).queues = n.queuesAfter w t := by
  unfold Network.detach; rw [h]

@[simp] theorem queuesAfter_length (w : Wiring) (t : State) : (n.queuesAfter w t).length = n.queues.length := by
  simp [Network.queuesAfter]

@[simp] theorem detach_queues_length (i : Nat) (m : Member) (t : State) : (n.detach i m t).queues.length = n.queues.length := by
  unfold Network.detach; cases m.wiring <;> simp

/-- One step of a member that exists is its instance's step with the queues in place. -/
theorem stepMember_cases {n : Network} {i : Nat} {m : Member} (h : n.members[i]? = some m) :
    ∃ t, Sys2Proof.Machine.step (n.attach m) = .next t ∧ n.stepMember i = n.detach i m t := by
  rcases step_cases (n.attach m) with ⟨-, ht⟩ | ⟨-, t, ht, -⟩
  · exact ⟨_, ht, by simp only [Network.stepMember, h, ht]⟩
  · exact ⟨t, ht, by simp only [Network.stepMember, h, ht]⟩

/-- The Step command, if the host has it, is a step of a member that exists in an accepted network. -/
theorem step_cases {n n' : Network} {i : Nat} (h : n.step i = some n') :
    n.accepted = true ∧ ∃ m, n.members[i]? = some m ∧ n' = n.stepMember i := by
  unfold Network.step Network.admits at h
  split at h
  · rename_i hc
    simp only [Bool.and_eq_true, decide_eq_true_eq] at hc
    cases h
    exact ⟨hc.1, n.members[i], List.getElem?_eq_getElem hc.2, rfl⟩
  · cases h

/-- AppendInput, if the host has it, adds a word at the tail of the queue the member reads, or is the lone instance's own. -/
theorem appendInput_cases {n n' : Network} {i : Nat} {v : Int} (h : n.appendInput i v = some n') :
    n.accepted = true ∧ ∃ m, n.members[i]? = some m ∧ m.vm.cfg.isWord v = true ∧
      ((m.wiring = none ∧ ∃ t, Sys2Proof.Machine.appendInput v m.vm = some t ∧ n' = { n with members := n.members.set i { m with vm := t } }) ∨
       ∃ w, m.wiring = some w ∧ n' = { n with queues := n.queues.set w.inQueue (n.queue w.inQueue ++ [v]) }) := by
  unfold Network.appendInput Network.admits at h
  split at h
  · rename_i hc
    simp only [Bool.and_eq_true, decide_eq_true_eq] at hc
    split at h
    · cases h
    · rename_i m hm
      refine ⟨hc.1, m, hm, ?_⟩
      split at h
      · cases h
      · rename_i t ha hw
        cases h
        rw [attach_of_lone n hw] at ha
        exact ⟨(Sys2Proof.Machine.appendInput_cases ha).2.1, .inl ⟨hw, t, ha, rfl⟩⟩
      · rename_i t w ha hw
        cases h
        obtain ⟨-, hv, ht⟩ := Sys2Proof.Machine.appendInput_cases ha
        rw [attach_cfg] at hv
        refine ⟨hv, .inr ⟨w, hw, ?_⟩⟩
        rw [ht, attach_of_wired n hw]
  · cases h

/-- TakeOutput, if it gives a value, gives the head of the queue the member writes, or is the lone instance's own. -/
theorem takeOutput_cases {n n' : Network} {i : Nat} {v : Int} (h : n.takeOutput i = .taken v n') :
    n.accepted = true ∧ ∃ m, n.members[i]? = some m ∧
      ((m.wiring = none ∧ ∃ t, Sys2Proof.Machine.takeOutput m.vm = .taken v t ∧ n' = { n with members := n.members.set i { m with vm := t } }) ∨
       ∃ w rest, m.wiring = some w ∧ n.queue w.outQueue = v :: rest ∧ n' = { n with queues := n.queues.set w.outQueue rest }) := by
  unfold Network.takeOutput Network.admits at h
  split at h
  · rename_i hc
    simp only [Bool.and_eq_true, decide_eq_true_eq] at hc
    split at h
    · cases h
    · rename_i m hm
      refine ⟨hc.1, m, hm, ?_⟩
      split at h
      · rename_i u t ht hw
        cases h
        rw [attach_of_lone n hw] at ht
        exact .inl ⟨hw, t, ht, rfl⟩
      · rename_i u t w ht hw
        cases h
        have hq := (Sys2Proof.Machine.takeOutput_cases ht).2.1
        rw [attach_of_wired n hw] at hq
        exact .inr ⟨w, t.chan.outq, hw, hq, rfl⟩
      · cases h
      · cases h
  · cases h

end Network

end Sys2Proof.Machine
end

