-- ==== Sys2Proof/Laws/PerInstr.lean ====
section
/-! SUPPORT. Statements made of every instruction, one lemma per constructor. `RoundTrip`: the canonical word of a well-formed instruction decodes
to it, with every mode digit, used or not (R71, R77, R84). -/

namespace Sys2Proof.Laws.RoundTrip

/-- The canonical word decodes to the instruction it was made from. -/
def Statement (i : Instr) : Prop := i.wellFormed = true → decode (encodeWord i) = .ok i

theorem add (m1 m2 m3 : Mode) : Statement (.add m1 m2 m3) := by cases m1 <;> cases m2 <;> cases m3 <;> (unfold Statement; decide)
theorem mul (m1 m2 m3 : Mode) : Statement (.mul m1 m2 m3) := by cases m1 <;> cases m2 <;> cases m3 <;> (unfold Statement; decide)
theorem input (m1 m2 m3 : Mode) : Statement (.input m1 m2 m3) := by cases m1 <;> cases m2 <;> cases m3 <;> (unfold Statement; decide)
theorem output (m1 m2 m3 : Mode) : Statement (.output m1 m2 m3) := by cases m1 <;> cases m2 <;> cases m3 <;> (unfold Statement; decide)
theorem jumpIfTrue (m1 m2 m3 : Mode) : Statement (.jumpIfTrue m1 m2 m3) := by
  cases m1 <;> cases m2 <;> cases m3 <;> (unfold Statement; decide)
theorem jumpIfFalse (m1 m2 m3 : Mode) : Statement (.jumpIfFalse m1 m2 m3) := by
  cases m1 <;> cases m2 <;> cases m3 <;> (unfold Statement; decide)
theorem lessThan (m1 m2 m3 : Mode) : Statement (.lessThan m1 m2 m3) := by
  cases m1 <;> cases m2 <;> cases m3 <;> (unfold Statement; decide)
theorem equals (m1 m2 m3 : Mode) : Statement (.equals m1 m2 m3) := by cases m1 <;> cases m2 <;> cases m3 <;> (unfold Statement; decide)
theorem adjustBase (m1 m2 m3 : Mode) : Statement (.adjustBase m1 m2 m3) := by
  cases m1 <;> cases m2 <;> cases m3 <;> (unfold Statement; decide)
theorem halt (m1 m2 m3 : Mode) : Statement (.halt m1 m2 m3) := by cases m1 <;> cases m2 <;> cases m3 <;> (unfold Statement; decide)

end Sys2Proof.Laws.RoundTrip
end

