-- ==== Sys2Proof/Tests/Slice0.lean ====
section
/-! SUPPORT. Tests, and a witness for the hypotheses of every obligation that has some. Expected results are those of spec/95_test_vectors.md (the vector's
name stands in each comment) or are read off the rule named. -/

namespace Sys2Proof.Tests

open Sys2Proof.Machine

/-- The state an outcome gives, if it gives one. -/
def after : Host.Outcome State Fault Refusal → Option State
  | .next t => some t
  | .fault _ => none
  | .refused _ => none

/-- `P` holds of the next state, as a Bool. -/
def nextIs (o : Host.Outcome State Fault Refusal) (P : State → Bool) : Bool := (after o).any P

theorem exists_next {o : Host.Outcome State Fault Refusal} {P : State → Bool} (h : nextIs o P = true) :
    ∃ t, o = .next t ∧ P t = true := by
  cases o with
  | next t => exact ⟨t, rfl, h⟩
  | fault r => cases h
  | refused r => cases h

/-- The instance of a Program with an empty Buffered channel. -/
def vm (prog : List Int) : State := construct {} {} prog

/-- The same with values waiting in INQ. -/
def vmIn (values prog : List Int) : State := construct {} { inq := values } prog

/-- A Device instance with its answers to reads and writes to come. -/
def vmDevice (reads : List ReadAnswer) (writes : List WriteAnswer) (prog : List Int) : State :=
  construct { channelKind := .device } { deviceReads := reads, deviceWrites := writes } prog

/-- An Interactive instance with the values the prompt will supply. -/
def vmPrompt (values prog : List Int) : State := construct { channelKind := .interactive } { prompt := values } prog

/-- One step ends in Fatal with this cause and information, all else as before. -/
def faults (s : State) (cause : FaultCause) (info : Int) : Bool :=
  nextIs (step s) (fun t => decide (t = s.enterFatal ⟨cause, info⟩))

/-! Well-formedness: one ill-formed term for each check (R82). -/

theorem test_wellFormed_refuses_immediate_add : (Instr.add .position .position .immediate).wellFormed = false := by decide
theorem test_wellFormed_refuses_immediate_mul : (Instr.mul .immediate .immediate .immediate).wellFormed = false := by decide
theorem test_wellFormed_refuses_immediate_input : (Instr.input .immediate .position .position).wellFormed = false := by decide
theorem test_wellFormed_refuses_immediate_lessThan : (Instr.lessThan .relative .position .immediate).wellFormed = false := by decide
theorem test_wellFormed_refuses_immediate_equals : (Instr.equals .position .relative .immediate).wellFormed = false := by decide
theorem test_wellFormed_admits_the_rest :
    (Instr.add .immediate .immediate .relative).wellFormed ∧ (Instr.input .relative .immediate .immediate).wellFormed ∧
    (Instr.output .immediate .immediate .immediate).wellFormed ∧ (Instr.jumpIfTrue .immediate .immediate .immediate).wellFormed ∧
    (Instr.jumpIfFalse .immediate .immediate .immediate).wellFormed ∧ (Instr.adjustBase .immediate .immediate .immediate).wellFormed ∧
    (Instr.halt .immediate .immediate .immediate).wellFormed := by decide

/-! Decoding: words of the table of 95 section 2, and one word more for each instruction that table shows in one form only, read off R71 and R76. -/

theorem test_decode_add : decode 1101 = .ok (.add .immediate .immediate .position) := by decide
theorem test_decode_mul : decode 1002 = .ok (.mul .position .immediate .position) := by decide
theorem test_decode_input : decode 203 = .ok (.input .relative .position .position) := by decide
theorem test_decode_output : decode 104 = .ok (.output .immediate .position .position) := by decide
theorem test_decode_jumpIfTrue : decode 2205 = .ok (.jumpIfTrue .relative .relative .position) := by decide
theorem test_decode_jumpIfFalse : decode 1006 = .ok (.jumpIfFalse .position .immediate .position) := by decide
theorem test_decode_lessThan : decode 21007 = .ok (.lessThan .position .immediate .relative) := by decide
theorem test_decode_equals : decode 21108 = .ok (.equals .immediate .immediate .relative) := by decide
theorem test_decode_adjustBase : decode 109 = .ok (.adjustBase .immediate .position .position) := by decide
theorem test_decode_halt : decode 1099 = .ok (.halt .position .immediate .position) := by decide
theorem test_decode_ignores_position_5 : decode 100099 = .ok (.halt .position .position .position) := by decide
theorem test_decode_unknown : [0, 10, 98, 100, 398, -1, -99].all (fun w => decide (decode w = .error .unknownOpcode)) = true := by decide
theorem test_decode_invalid_mode : [301, 1301, 90001, 30099, 30103].all (fun w => decide (decode w = .error .invalidMode)) = true := by decide
theorem test_decode_immediate_write :
    [10001, 11101, 11107, 103].all (fun w => decide (decode w = .error .immediateWriteTarget)) = true := by decide

/-- The table's rows as bits: the first word is the one at the least significant end; a negative word is its two's complement (R6). -/
theorem test_decodeTableWord :
    decodeTableWord 64 1101 = some (.add .immediate .immediate .position) ∧ decodeTableWord 16 99 = some (.halt .position .position .position) ∧
    decodeTableWord 128 (109 + 5 * 2 ^ 64) = some (.adjustBase .immediate .position .position) ∧ decodeTableWord 64 (2 ^ 64 - 99) = none := by
  decide

/-- `withFetchWord` puts the word and its operand words where the next step fetches: ADJUST-BASE #-7 as the first instruction after reset. -/
theorem test_withFetchWord :
    nextIs (step (State.reset.withFetchWord 128 (109 + (2 ^ 64 - 7) * 2 ^ 64))) (fun t => decide (t.rb = -7 ∧ t.ip = 2)) = true := by decide

/-! Reset. -/

theorem test_reset_memory_canonical : State.reset.mem.wf = true := by decide
/-- H3 -/
theorem test_empty_program : faults (vm []) .unknownOpcode 0 = true := by decide

/-! One step of each instruction. -/

/-- A4: the destination is also a source. -/
theorem test_add_over_source :
    nextIs (step { vm [2001, 6, 5, 6, 99, 32, 10] with rb := 0 }) (fun t => decide (t.mem.read 6 = 42 ∧ t.ip = 4)) = true := by decide
/-- A10 -/
theorem test_add_overflow : faults (vm [1101, 9223372036854775807, 1, 5, 99, 0]) .arithmeticOverflow 1101 = true := by decide
/-- M8: a Relative destination. -/
theorem test_mul_relative :
    nextIs (step { vm [21102, 6, 7, 1, 99, 0] with rb := 4 }) (fun t => decide (t.mem.read 5 = 42 ∧ t.rb = 4)) = true := by decide
/-- M5 -/
theorem test_mul_overflow : faults (vm [1102, -9223372036854775808, -1, 5, 99, 0]) .arithmeticOverflow 1102 = true := by decide
/-- I9 -/
theorem test_input_grows :
    nextIs (step (vmIn [8] [3, 50, 99])) (fun t => decide (t.mem.read 50 = 8 ∧ t.len = 51 ∧ t.chan.inq = [])) = true := by decide
/-- I4 -/
theorem test_input_suspends_whole :
    nextIs (step (vm [3])) (fun t => decide (t = { vm [3] with runState := .awaitingInput })) = true := by decide
/-- O4 -/
theorem test_output_beyond_len :
    nextIs (step (vm [4, 1000, 99])) (fun t => decide (t.chan.outq = [0] ∧ t.len = 1001)) = true := by decide
/-- D2 -/
theorem test_output_device_error :
    nextIs (step (vmDevice [] [.error 17] [104, 1, 99])) (fun t => decide (t.faultCause = some .deviceError ∧ t.faultInfo = 17 ∧ t.ip = 0)) =
      true := by decide
/-- J4 -/
theorem test_jumpIfTrue_relative : nextIs (step { vm [2205, 0, 1, 99, 0, 3, 7, 99] with rb := 5 }) (fun t => decide (t.ip = 7)) = true := by decide
/-- J6 -/
theorem test_jumpIfTrue_not_taken_negative : nextIs (step (vm [1105, 0, -4, 99])) (fun t => decide (t.ip = 3)) = true := by decide
/-- J16 -/
theorem test_jumpIfFalse_beyond_len : nextIs (step (vm [6, 100, 3, 99])) (fun t => decide (t.ip = 99 ∧ t.len = 101)) = true := by decide
/-- J14 -/
theorem test_jumpIfFalse_negative : faults (vm [1106, 0, -1, 99]) .negativeAddress (-1) = true := by decide
/-- L1 -/
theorem test_lessThan_signed : nextIs (step (vm [1107, -2, -1, 5, 99, 7])) (fun t => decide (t.mem.read 5 = 1)) = true := by decide
/-- L2 -/
theorem test_lessThan_equal : nextIs (step (vm [1107, 3, 3, 5, 99, 7])) (fun t => decide (t.mem.read 5 = 0 ∧ t.ip = 4)) = true := by decide
/-- E5 -/
theorem test_equals_beyond_len : nextIs (step (vm [1008, 50, 0, 5, 99, 7])) (fun t => decide (t.mem.read 5 = 1 ∧ t.len = 51)) = true := by decide
/-- E2 -/
theorem test_equals_differ : nextIs (step (vm [1108, 0, 1, 5, 99, 7])) (fun t => decide (t.mem.read 5 = 0)) = true := by decide
/-- B4: the operand is read with the old RB. -/
theorem test_adjustBase_old_base : nextIs (step { vm [209, 1, 99, 0, 5] with rb := 3 }) (fun t => decide (t.rb = 8 ∧ t.ip = 2)) = true := by decide
/-- B6 -/
theorem test_adjustBase_overflow : faults { vm [109, 1, 99] with rb := 9223372036854775807 } .arithmeticOverflow 109 = true := by decide
/-- H2 -/
theorem test_halt : nextIs (step (vm [22299, 1, 2])) (fun t => decide (t = { vm [22299, 1, 2] with runState := .halted })) = true := by decide

/-! Which fault is reported: P1 to P6 of 95 section 8. -/

theorem test_priority :
    faults (vm [1, -1, -2, -3]) .negativeAddress (-1) ∧ faults (vm [11101, -1, 0, 0]) .immediateWriteTarget 11101 ∧
    faults (vm [1101, 9223372036854775807, 1, -1]) .negativeAddress (-1) ∧ faults (vm [3, -2]) .negativeAddress (-2) ∧
    faults (vm [398, 0, 0, 0]) .unknownOpcode 398 ∧ faults (vm [30103, 0]) .invalidMode 30103 := by decide

/-- The capacity: C1, and the address 2^63 that passes WORD_MAX. -/
theorem test_capacity :
    faults (construct { memCap := some 8 } {} [1101, 1, 1, 8, 99]) .capacityExceeded 8 ∧
    faults { vm [204, 1, 99] with rb := 9223372036854775807 } .capacityExceeded 9223372036854775808 := by decide

/-! The program text (R243): a final line feed, a leading zero, an empty item. -/

theorem test_parse :
    parseProgram ['1', ',', '-', '2', ',', '0', '7', '\n'] = some [1, -2, 7] ∧ parseProgram ['1', ',', ',', '2'] = none ∧
    parseProgram [] = none ∧ parseProgram ['1', ' '] = none := by decide

/-! Witnesses: for each obligation with hypotheses, states and operands that meet them, clause by clause; the name says the obligation. -/

/-- The checks that make a Running instance of 64-bit words meet the invariant. -/
def invChecks (s : State) (cap : Nat) : Bool :=
  decide (s.cfg.width = some 64) && decide (s.cfg.cap = some cap) && s.mem.wf && s.mem.all (fun p => decide (p.1 < s.len)) &&
    s.mem.all (fun p => s.cfg.isWord p.2) && decide (s.len ≤ cap) && decide ((s.ip : Int) ≤ wordMax 64 + 4) && s.cfg.isWord s.rb &&
    decide (s.faultCause = none) && decide (s.faultInfo = 0) && s.chan.inq.all s.cfg.isWord && s.chan.outq.all s.cfg.isWord &&
    s.chan.prompt.all s.cfg.isWord && s.chan.deviceReads.all (readAnswerOk s.cfg) && s.chan.deviceWrites.all (writeAnswerOk s.cfg) &&
    s.chan.emitted.all s.cfg.isWord

/-- A state that passes the checks and is Running, or waits at an INPUT. -/
theorem inv_of_checks {s : State} {cap : Nat} (h : invChecks s cap = true)
    (hr : s.runState = .running ∨ s.runState = .awaitingInput ∧ s.cfg.channelKind ≠ .interactive ∧
      ValidAddr s.cfg s.ip ∧ ∃ m1 m2 m3, decode s.instrWord = .ok (.input m1 m2 m3) ∧ WriteLegal s m1 1) : s.Inv := by
  simp only [invChecks, Bool.and_eq_true, decide_eq_true_eq, List.all_eq_true] at h
  obtain ⟨⟨⟨⟨⟨⟨⟨⟨⟨⟨⟨⟨⟨⟨⟨hw, hc⟩, hm⟩, hb⟩, hv⟩, hl⟩, hi⟩, hrb⟩, hf⟩, hz⟩, q1⟩, q2⟩, q3⟩, q4⟩, q5⟩, q6⟩ := h
  have hn : s.runState ≠ .fatal ∧ s.runState ≠ .halted := by rcases hr with h | ⟨h, -⟩ <;> simp [h]
  refine ⟨?_, hm, hb, hv, ?_, ?_, hrb, by simp [hf, hn.1], fun _ => hz, ?_, ⟨q1, q2, q3, q4, q5, q6⟩, ?_, ?_, fun h => absurd h hn.2⟩
  · intro w h; rw [hw] at h; cases h; decide
  · intro n h; rw [hc] at h; cases h; exact hl
  · intro w h; rw [hw] at h; cases h; exact hi
  · intro w h; rw [hw] at h; cases h; rw [hz]; decide
  · intro hk h; rcases hr with hr | hr
    · rw [hr] at h; cases h
    · exact hr.2.1 hk
  · intro h; rcases hr with hr | hr
    · rw [hr] at h; cases h
    · exact hr.2.2

/-- I3 of 95: an instance waiting at `3,3`, nothing in its queue. -/
def waiting : State := { vm [3, 3, 99, 0] with runState := .awaitingInput }
/-- A Device instance waiting with the answers to come. -/
def waitingDevice (reads : List ReadAnswer) : State := { vmDevice reads [] [3, 3, 99, 0] with runState := .awaitingInput }
/-- An instance of capacity 8 that has jumped to 8 (C3), and one that has jumped past LEN (J9). -/
def pastCapacity : State := { construct { memCap := some 8 } {} [1105, 1, 8] with ip := 8 }
def pastLen : State := { vm [1105, 1, 1000, 99] with ip := 1000 }

theorem inv_vm_halt : (vm [99]).Inv := inv_of_checks (cap := 2 ^ 63) (by decide) (.inl rfl)
theorem inv_waiting : waiting.Inv :=
  inv_of_checks (cap := 2 ^ 63) (by decide) (.inr ⟨rfl, by decide, by decide, .position, .position, .position, by decide, by decide⟩)
theorem inv_waitingDevice_empty : (waitingDevice [.empty]).Inv :=
  inv_of_checks (cap := 2 ^ 63) (by decide) (.inr ⟨rfl, by decide, by decide, .position, .position, .position, by decide, by decide⟩)
theorem inv_waitingDevice_value : (waitingDevice [.value 7]).Inv :=
  inv_of_checks (cap := 2 ^ 63) (by decide) (.inr ⟨rfl, by decide, by decide, .position, .position, .position, by decide, by decide⟩)
theorem inv_pastCapacity : pastCapacity.Inv := inv_of_checks (cap := 8) (by decide) (.inl rfl)
theorem inv_pastLen : pastLen.Inv := inv_of_checks (cap := 2 ^ 63) (by decide) (.inl rfl)

theorem witness_DecodeInvertsEncode : (Instr.add .position .position .position).wellFormed = true ∧
    (100001 : Int) = encodeWord (.add .position .position .position) + 100000 * ((1 : Nat) : Int) := by decide

theorem witness_HighDigitsHaveNoEffect : (0 : Int) ≤ 100001 := by decide

/-- One state for each clause, in order; the last clause's word is the largest mode digits that are legal. -/
theorem witness_IllegalWordFaultsInOrder :
    ([-1, 10, 98, 301, 30103, 10001, 103, 22201, 22299].all fun w =>
      decide ((vm [w]).runState = .running ∧ ValidAddr (vm [w]).cfg (vm [w]).ip ∧ (vm [w]).instrWord = w)) = true ∧
    ((0 : Int) ≤ 98 ∧ ¬ (98 : Int) % 100 ∈ ([1, 2, 3, 4, 5, 6, 7, 8, 9, 99] : List Int)) ∧
    ((30103 : Int) % 100 ∈ ([1, 2, 3, 4, 5, 6, 7, 8, 9, 99] : List Int) ∧
      ¬ ((30103 : Int) / 100 % 10 ≤ 2 ∧ (30103 : Int) / 1000 % 10 ≤ 2 ∧ (30103 : Int) / 10000 % 10 ≤ 2)) ∧
    ((103 : Int) % 100 = 3 ∧ (103 : Int) / 100 % 10 = 1) ∧ ((10001 : Int) % 100 ∈ ([1, 2, 7, 8] : List Int) ∧ (10001 : Int) / 10000 % 10 = 1) ∧
    ¬ (((22299 : Int) % 100 ∈ ([1, 2, 7, 8] : List Int) ∧ (22299 : Int) / 10000 % 10 = 1) ∨
      ((22299 : Int) % 100 = 3 ∧ (22299 : Int) / 100 % 10 = 1)) := by decide

theorem witness_StreamDecodeReturnsOperandsAndRest :
    (Instr.mul .position .position .position ∈ [Instr.add .position .position .position, .mul .position .position .position,
      .lessThan .position .position .position, .equals .position .position .position]) ∧
    (Instr.add .immediate .immediate .position).wellFormed = true ∧ ([1, 1, 5] : List Int).length = (Instr.add .immediate .immediate .position).paramCount ∧
    decodeWords (encode (.add .immediate .immediate .position) [1, 1, 5] ++ [99]) = .ok (.add .immediate .immediate .position, [1, 1, 5], [99]) := by
  decide

theorem witness_StepRunsTheDecodedInstruction :
    (ValidAddr (vm [99]).cfg (vm [99]).ip ∧ decode (vm [99]).instrWord = .ok (.halt .position .position .position) ∧
      (vm [99]).runState = .running) ∧
    (ValidAddr waiting.cfg waiting.ip ∧ decode waiting.instrWord = .ok (.input .position .position .position) ∧
      waiting.runState = .awaitingInput) := by decide

/-- Each of the four outcomes happens. -/
theorem witness_StepHasOneOfFourOutcomes :
    (vm [109, 1, 99]).runState = .running ∧ nextIs (step (vm [109, 1, 99])) (fun t => decide (t.runState = .running)) = true ∧
    nextIs (step (vm [99])) (fun t => decide (t.runState = .halted)) = true ∧
    nextIs (step (vm [3])) (fun t => decide (t.runState = .awaitingInput)) = true ∧
    nextIs (step (vm [0])) (fun t => decide (t.runState = .fatal)) = true := by decide

theorem witness_HaltedOnlyByHalt :
    (vm [99]).runState ≠ .halted ∧ ∃ t, step (vm [99]) = .next t ∧ decide (t.runState = .halted) = true :=
  ⟨by decide, exists_next (P := fun t => decide (t.runState = .halted)) (by decide)⟩

theorem witness_FaultedStepKeepsEverything :
    (vm [4, -1, 99]).runState ≠ .fatal ∧ ∃ t, step (vm [4, -1, 99]) = .next t ∧ decide (t.runState = .fatal) = true :=
  ⟨by decide, exists_next (P := fun t => decide (t.runState = .fatal)) (by decide)⟩

theorem witness_TerminalStatesNeverChange :
    ({ vm [99] with runState := .halted } : State).runState = .halted ∧
    ((vm [99]).enterFatal ⟨.negativeAddress, -1⟩).runState = .fatal := by decide

/-- One state for each clause: the fetch, the decoder, an operand, the execute phase, no fault, and the channel's Error on INPUT and on OUTPUT. -/
theorem witness_FirstConditionMetIsReported :
    (pastCapacity.runState = .running ∧ ¬ ValidAddr pastCapacity.cfg pastCapacity.ip) ∧
    (ValidAddr (vm [301]).cfg (vm [301]).ip ∧ decode (vm [301]).instrWord = .error .invalidMode) ∧
    (decode (vm [1, -1, -2, -3]).instrWord = .ok (.add .position .position .position) ∧
      firstFault (.add .position .position .position) (vm [1, -1, -2, -3]) = some ⟨.negativeAddress, -1⟩) ∧
    firstFault (.jumpIfTrue .immediate .immediate .position) (vm [1105, 1, -4, 99]) = some ⟨.negativeAddress, -4⟩ ∧
    firstFault (.add .position .position .position) (vm [1, 0, 0, 0, 99]) = none ∧
    (firstFault (.input .position .position .position) (vmDevice [.error 17] [] [3, 0, 99]) = none ∧
      faults (vmDevice [.error 17] [] [3, 0, 99]) .deviceError 17 = false ∧
      nextIs (step (vmDevice [.error 17] [] [3, 0, 99])) (fun t => decide (t.runState = .fatal ∧ t.faultInfo = 17)) = true) ∧
    (firstFault (.output .immediate .position .position) (vmDevice [] [.error 17] [104, 1, 99]) = none ∧
      nextIs (step (vmDevice [] [.error 17] [104, 1, 99])) (fun t => decide (t.runState = .fatal ∧ t.faultInfo = 17)) = true) ∧
    (firstFault (.input .position .position .position) (vm [3]) = none ∧
      nextIs (step (vm [3])) (fun t => decide (t.runState = .awaitingInput)) = true) := by decide

/-- For every instruction but HALT (which never faults): a well-formed form and a state in which it does. -/
theorem witness_InstructionsRaiseOnlyTheirCauses :
    ([(Instr.add .immediate .immediate .position, vm [1101, 1, 1, -1]), (.mul .position .position .position, vm [2, -1, 0, 0]),
      (.input .position .position .position, vm [3, -2]), (.output .position .position .position, vm [4, -1]),
      (.jumpIfTrue .immediate .immediate .position, vm [1105, 1, -4]), (.jumpIfFalse .immediate .immediate .position, vm [1106, 0, -1]),
      (.lessThan .immediate .immediate .position, vm [1107, 1, 1, -1]), (.equals .immediate .immediate .position, vm [1108, 1, 1, -1]),
      (.adjustBase .immediate .position .position, { vm [109, 1] with rb := 9223372036854775807 })].all fun p =>
      p.1.wellFormed && decide (p.2.runState = .running) && nextIs (exec p.1 p.2) (fun t => decide (t.runState = .fatal))) = true := by
  decide

/-- Every clause at an access's boundary: one below the capacity is read, the capacity and 0 - 1 are not; unbounded reads far. -/
theorem witness_MemoryAccessesReadStoreAndGrow :
    ((-1 : Int) < 0) ∧ (pastCapacity.cfg.cap = some 8 ∧ ((8 : Nat) : Int) ≤ 8) ∧ (pastCapacity.Inv ∧ pastCapacity.len ≤ 3) ∧
    ((0 : Int) ≤ 7 ∧ (7 : Int) < ((8 : Nat) : Int) ∧ pastCapacity.mem.wf = true) ∧ ((0 : Int) ≤ 0 ∧ (0 : Int) < ((8 : Nat) : Int)) ∧
    ({ width := none } : Config).cap = none :=
  ⟨by decide, by decide, ⟨inv_pastCapacity, by decide⟩, by decide, by decide, by decide⟩

/-- The operands are all three Relative (A3), and a faulting state. -/
theorem witness_AddStoresTheSum :
    Mode.relative ≠ .immediate ∧
    firstFault (.add .relative .relative .relative) { vm [22201, 0, 1, 2, 99, 7, 8, 0] with rb := 5 } = none ∧
    firstFault (.add .immediate .immediate .position) (vm [1101, 9223372036854775807, 1, 5, 99, 0]) = some ⟨.arithmeticOverflow, 1101⟩ := by
  decide

theorem witness_MulStoresTheProduct :
    firstFault (.mul .immediate .immediate .relative) { vm [21102, 6, 7, 1, 99, 0] with rb := 4 } = none ∧
    firstFault (.mul .immediate .immediate .position) (vm [1102, -9223372036854775808, -1, 5, 99, 0]) =
      some ⟨.arithmeticOverflow, 1102⟩ := by decide

/-- A faulting destination, then the three answers. -/
theorem witness_InputFollowsTheChannelsAnswer :
    firstFault (.input .position .position .position) (vm [3, -2]) = some ⟨.negativeAddress, -2⟩ ∧
    ([vmIn [7] [3, 3, 99, 0], vm [3, 3, 99, 0], vmDevice [.error 17] [] [3, 3, 99, 0]].all fun s =>
      decide (firstFault (.input .position .position .position) s = none)) = true ∧
    chanRead .buffered (vmIn [7] []).chan = some (.value 7, {}) ∧ chanRead .buffered (vm []).chan = some (.empty, {}) ∧
    chanRead .device (vmDevice [.error 17] [] []).chan = some (.error 17, {}) := by decide

theorem witness_OutputWritesToTheChannel :
    firstFault (.output .position .position .position) (vm [4, -1, 99]) = some ⟨.negativeAddress, -1⟩ ∧
    ([vm [104, -5, 99], vmDevice [] [.error 17] [104, -5, 99]].all fun s =>
      decide (firstFault (.output .immediate .position .position) s = none)) = true ∧
    chanWrite (vm []).cfg (-5) (vm []).chan = some (.ok, { outq := [-5] }) ∧
    chanWrite (vmDevice [] [] []).cfg (-5) (vmDevice [] [.error 17] []).chan = some (.error 17, {}) := by decide

/-- A prompt with nothing typed yet, and a device that has not answered. -/
theorem witness_UnansweredTransactionsHold :
    (firstFault (.input .position .position .position) (vmPrompt [] [3, 3, 99, 0]) = none ∧
      chanRead .interactive (vmPrompt [] [3, 3, 99, 0]).chan = none) ∧
    (firstFault (.output .immediate .position .position) (vmDevice [] [] [104, -5, 99]) = none ∧
      chanWrite (vmDevice [] [] [104, -5, 99]).cfg (-5) (vmDevice [] [] [104, -5, 99]).chan = none) := by decide

theorem witness_JumpIfTrueJumpsOnNonZero :
    firstFault (.jumpIfTrue .immediate .immediate .position) (vm [1105, 1, 4, 0, 99]) = none ∧
    firstFault (.jumpIfTrue .immediate .immediate .position) (vm [1105, 0, -4, 99]) = none ∧
    firstFault (.jumpIfTrue .immediate .immediate .position) (vm [1105, 1, -4, 99]) = some ⟨.negativeAddress, -4⟩ := by decide

theorem witness_JumpIfFalseJumpsOnZero :
    firstFault (.jumpIfFalse .immediate .immediate .position) (vm [1106, 0, 4, 0, 99]) = none ∧
    firstFault (.jumpIfFalse .immediate .immediate .position) (vm [1106, 1, -4, 99]) = none ∧
    firstFault (.jumpIfFalse .immediate .immediate .position) (vm [1106, 0, -1, 99]) = some ⟨.negativeAddress, -1⟩ := by decide

theorem witness_LessThanStoresOneOrZero :
    firstFault (.lessThan .immediate .immediate .position) (vm [1107, -2, -1, 5, 99, 7]) = none ∧
    firstFault (.lessThan .immediate .immediate .position) (vm [1107, 1, 1, -1, 99]) = some ⟨.negativeAddress, -1⟩ := by decide

theorem witness_EqualsStoresOneOrZero :
    firstFault (.equals .relative .relative .relative) { vm [22208, 0, 1, 2, 99, 4, 4, 9] with rb := 5 } = none ∧
    firstFault (.equals .immediate .immediate .position) (vm [1108, 1, 1, -1, 99]) = some ⟨.negativeAddress, -1⟩ := by decide

theorem witness_AdjustBaseAddsToRb :
    firstFault (.adjustBase .relative .position .position) { vm [209, 1, 99, 0, 5] with rb := 3 } = none ∧
    firstFault (.adjustBase .immediate .position .position) { vm [109, 1, 99] with rb := 9223372036854775807 } =
      some ⟨.arithmeticOverflow, 109⟩ := by decide

/-- A store, and an address that is not the stored one. -/
theorem witness_FrameOfStoringInstructions :
    (∃ t, exec (.add .immediate .immediate .position) (vm [1101, 1, 2, 10, 99]) = .next t ∧ decide (t.mem.read 10 = 3) = true) ∧
    storedAddress (.add .immediate .immediate .position) (vm [1101, 1, 2, 10, 99]) = some 10 :=
  ⟨exists_next (P := fun t => decide (t.mem.read 10 = 3)) (by decide), by decide⟩

theorem witness_FrameOfInputAndOutput :
    (∃ t, exec (.input .position .position .position) (vmIn [7] [3, 3, 99, 0]) = .next t ∧ decide (t.mem.read 3 = 7) = true) ∧
    (∃ t, exec (.output .immediate .position .position) (vm [104, -5, 99]) = .next t ∧ decide (t.chan.outq = [-5]) = true) :=
  ⟨exists_next (P := fun t => decide (t.mem.read 3 = 7)) (by decide), exists_next (P := fun t => decide (t.chan.outq = [-5])) (by decide)⟩

theorem witness_FrameOfJumpsBaseAndHalt :
    (∃ t, exec (.jumpIfTrue .immediate .immediate .position) (vm [1105, 1, 4, 0, 99]) = .next t ∧ decide (t.ip = 4) = true) ∧
    (∃ t, exec (.adjustBase .immediate .position .position) (vm [109, 19, 99]) = .next t ∧ decide (t.rb = 19) = true) :=
  ⟨exists_next (P := fun t => decide (t.ip = 4)) (by decide), exists_next (P := fun t => decide (t.rb = 19)) (by decide)⟩

theorem witness_RbIsReadOnlyByRelativeMode :
    (∃ t, step (vm [109, 19, 99]) = .next t ∧ decide (t.rb ≠ (vm [109, 19, 99]).rb) = true) ∧
    ((∀ m1 m2 m3, Instr.add .immediate .position .position ≠ .adjustBase m1 m2 m3) ∧
      ∀ p ∈ Instr.operands (.add .immediate .position .position), p.1 ≠ .relative) :=
  ⟨exists_next (P := fun t => decide (t.rb ≠ (vm [109, 19, 99]).rb)) (by decide), by simp, by decide⟩

theorem witness_LenNeverDecreases :
    ∃ t, Host.Core.run Sys2Proof.core 1 (vm [4, 1000, 99]) = .next t ∧ decide (t.len = 1001) = true :=
  exists_next (P := fun t => decide (t.len = 1001)) (by decide)

theorem witness_OnlyIoInstructionsSeeTheChannel :
    (∀ m1 m2 m3, Instr.halt .position .position .position ≠ .input m1 m2 m3) ∧
    ∀ m1 m2 m3, Instr.halt .position .position .position ≠ .output m1 m2 m3 := by simp

/-- The same answer of two kinds: a value, and Empty. -/
theorem witness_InputDependsOnTheAnswerAlone :
    (chanRead (vmIn [7] []).cfg.channelKind (vmIn [7] []).chan = some (.value 7, {}) ∧
      chanRead .interactive { prompt := [7] } = some (.value 7, {})) ∧
    (chanRead (vm []).cfg.channelKind (vm []).chan = some (.empty, {}) ∧ chanRead .device { deviceReads := [.empty] } = some (.empty, {})) := by
  decide

/-- One channel for each clause, in order. -/
theorem witness_ChannelKindsAnswer :
    ({} : Channel).prompt = [] ∧ ({ prompt := [7, 8] } : Channel).prompt = 7 :: [8] ∧ ({} : Channel).inq = [] ∧
    ({ inq := [7] } : Channel).inq = 7 :: [] ∧ ({ deviceReads := [.empty] } : Channel).deviceReads = .empty :: [] ∧
    ({} : Channel).deviceReads = [] ∧
    (vmPrompt [] []).cfg.channelKind = .interactive ∧ ((vm []).cfg.channelKind = .buffered ∧ (vm []).cfg.outqCap = none) ∧
    (({ outqCap := some 1 } : Config).channelKind = .buffered ∧ ({} : Channel).outq.length < 1 ∧ 1 ≤ ({ outq := [7] } : Channel).outq.length) ∧
    ({} : Channel).deviceWrites = [] ∧
    ((vmDevice [] [] []).cfg.channelKind = .device ∧ ({ deviceWrites := [.ok] } : Channel).deviceWrites = .ok :: []) ∧
    ({ deviceWrites := [.error 17] } : Channel).deviceWrites = .error 17 :: [] := by decide

theorem witness_QueuesKeepTheirOrder :
    ∃ t, Host.Core.run Sys2Proof.core 2 (vmIn [1, 2] [3, 0, 4, 0, 99]) = .next t ∧ decide (t.chan.inq = [2] ∧ t.chan.outq = [1]) = true :=
  exists_next (P := fun t => decide (t.chan.inq = [2] ∧ t.chan.outq = [1])) (by decide)

/-- Waiting, with a value to come and with Empty to come. -/
theorem witness_ResumeReattemptsTheInput :
    ((waitingDevice [.value 7]).Inv ∧ (waitingDevice [.value 7]).runState = .awaitingInput ∧
      chanRead .device (waitingDevice [.value 7]).chan = some (.value 7, {})) ∧
    ((waitingDevice [.empty]).Inv ∧ chanRead .device (waitingDevice [.empty]).chan = some (.empty, {})) :=
  ⟨⟨inv_waitingDevice_value, rfl, by decide⟩, inv_waitingDevice_empty, by decide⟩

theorem witness_SuppliedInputCompletesOnce :
    waiting.Inv ∧ waiting.runState = .awaitingInput ∧ waiting.cfg.channelKind = .buffered ∧ waiting.chan.inq = [] ∧
    appendInput 7 waiting = some { waiting with chan := { inq := [7] } } :=
  ⟨inv_waiting, rfl, rfl, rfl, by decide⟩

/-- A target of 0, the least that is accepted, taken and not; and the two judgements of a fetch. -/
theorem witness_JumpTargetsAreJudgedByTheNextFetch :
    (ReadLegal (vm [1105, 1, 0]) .immediate 1 ∧ ReadLegal (vm [1105, 1, 0]) .immediate 2 ∧ 0 ≤ (vm [1105, 1, 0]).operandValue .immediate 2 ∧
      (vm [1105, 1, 0]).operandValue .immediate 1 ≠ 0 ∧ (vm [1106, 0, 0]).operandValue .immediate 1 = 0) ∧
    (pastCapacity.Inv ∧ pastCapacity.runState = .running ∧ ¬ ValidAddr pastCapacity.cfg pastCapacity.ip) ∧
    (pastLen.Inv ∧ ValidAddr pastLen.cfg pastLen.ip ∧ pastLen.len ≤ pastLen.ip) :=
  ⟨by decide, ⟨inv_pastCapacity, by decide, by decide⟩, inv_pastLen, by decide, by decide⟩

theorem witness_InteractiveAndBufferedRunsAgree : ({} : Config).outqCap = none := rfl

theorem witness_EveryStepKeepsTheInvariant :
    (vm [99]).Inv ∧ ∃ t, step (vm [99]) = .next t ∧ decide (t.runState = .halted) = true :=
  ⟨inv_vm_halt, exists_next (P := fun t => decide (t.runState = .halted)) (by decide)⟩

theorem witness_ConstructionMeetsTheInvariant :
    Config.WidthOk {} ∧ ChannelWords {} {} ∧ checkProgram {} [1, 0, 0, 0, 99] = .ok [1, 0, 0, 0, 99] ∧
    constructCommand {} { inq := [5] } [1, 0, 0, 0, 99] = .ok (vmIn [5] [1, 0, 0, 0, 99]) := by
  refine ⟨fun w h => ?_, ⟨?_, ?_, ?_, ?_, ?_, ?_⟩, by decide, by decide⟩
  · cases h; decide
  all_goals exact fun _ h => nomatch h

/-- One command for each clause. -/
theorem witness_HostCommandsKeepTheInvariant :
    (vm [99]).Inv ∧ (appendInput 7 (vm [99])).isSome = true ∧
    ({ vm [99] with chan := { outq := [5] } } : State).Inv ∧ (takeOutput { vm [99] with chan := { outq := [5] } } = .taken 5 (vm [99])) ∧
    (vmPrompt [] [99]).Inv ∧ (supplyPrompt 7 (vmPrompt [] [99])).isSome = true ∧
    (vmDevice [] [] [99]).Inv ∧ (supplyDeviceRead .empty (vmDevice [] [] [99])).isSome = true ∧
    (supplyDeviceWrite (.error 17) (vmDevice [] [] [99])).isSome = true ∧ waiting.Inv :=
  ⟨inv_vm_halt, by decide, inv_of_checks (cap := 2 ^ 63) (by decide) (.inl rfl), by decide,
    inv_of_checks (cap := 2 ^ 63) (by decide) (.inl rfl), by decide, inv_of_checks (cap := 2 ^ 63) (by decide) (.inl rfl), by decide, by decide,
    inv_waiting⟩

theorem witness_MemoriesThatReadAlikeAreEqual :
    Memory.wf [(1, 5), (4, -2)] = true ∧ Memory.wf (Memory.write [(4, -2)] 1 5) = true ∧
    ∀ a, Memory.read [(1, 5), (4, -2)] a = Memory.read (Memory.write [(4, -2)] 1 5) a := ⟨by decide, by decide, fun _ => rfl⟩

theorem witness_ConstructLoadsTheProgram : 4 < ([1, 0, 0, 0, 99] : List Int).length ∧ ([1, 0, 0, 0, 99] : List Int).length ≤ 5 := by decide

/-- A text outside the grammar, a value one above WORD_MAX, a Program one longer than the capacity, and one that fits, with a channel of words and one whose
value is not. -/
theorem witness_LoaderRefusesBadPrograms :
    parseProgram ['1', ',', ',', '2'] = none ∧
    (parseProgram "9223372036854775808".toList = some [9223372036854775808] ∧ ({} : Config).isWord 9223372036854775808 = false) ∧
    (parseProgram ['1', ',', '2'] = some [1, 2] ∧ (({ memCap := some 1 } : Config).cap = some 1 ∧ 1 < ([1, 2] : List Int).length)) ∧
    (({ memCap := some 2 } : Config).cap = some 2 ∧ ([1, 2] : List Int).length ≤ 2 ∧ ([1, 2] : List Int).all ({ memCap := some 2 } : Config).isWord) ∧
    (ChannelWords { memCap := some 2 } {} ∧ ¬ ChannelWords { memCap := some 2 } { inq := [9223372036854775808] }) := by
  refine ⟨by decide, by decide, by decide, by decide, ⟨?_, ?_, ?_, ?_, ?_, ?_⟩, fun h => ?_⟩
  all_goals first | exact fun _ h => nomatch h | exact absurd (h.inq _ List.mem_cons_self) (by decide)

/-- A returned Run; and one step that leads out of Running from a waiting instance (I3 of 95), the 0 steps before it from its resumed state. -/
theorem witness_RunReturnsOnlyOutsideRunning :
    run 1 (vm [99]) = .returned { vm [99] with runState := .halted } ∧
    (∃ t, Host.Core.run Sys2Proof.core 1 waiting.resume = .next t ∧ decide (t.runState = .awaitingInput) = true) ∧
    ∀ k u, k < 1 → Host.Core.run Sys2Proof.core k waiting.resume = .next u → u.runState = .running := by
  refine ⟨by decide, exists_next (P := fun t => decide (t.runState = .awaitingInput)) (by decide), fun k u hk h => ?_⟩
  obtain rfl : k = 0 := by omega
  cases h
  rfl

/-- The last valid address below a capacity of 4, at LEN and beyond, and the first addresses on either side that are not valid (R42). -/
theorem witness_StatusRegistersReadAsTheirCodes :
    0 < (construct { memCap := some 4 } {} [99]).len ∧
    (ValidAddr (construct { memCap := some 4 } {} [99]).cfg 3 ∧ readCell (construct { memCap := some 4 } {} [99]) 3 = some 0) ∧
    (ValidAddr (construct { memCap := some 4 } {} [99]).cfg 0 ∧ readCell (construct { memCap := some 4 } {} [99]) 0 = some 99) ∧
    (¬ ValidAddr (construct { memCap := some 4 } {} [99]).cfg 4 ∧ readCell (construct { memCap := some 4 } {} [99]) 4 = none) ∧
    ¬ ValidAddr (construct { memCap := some 4 } {} [99]).cfg (-1) ∧ readCell (construct { memCap := some 4 } {} [99]) (-1) = none := by decide

/-- One state for each clause. -/
theorem witness_HostCommandsKeepQueueDiscipline :
    appendInput 7 (vmIn [1] []) = some (vmIn [1, 7] []) ∧
    ((vm []).cfg.channelKind = .buffered ∧ (vm []).cfg.isWord 7 = true ∧ (vm []).cfg.inqCap = none) ∧
    appendInput 7 (construct { inqCap := some 1 } {} []) = some (construct { inqCap := some 1 } { inq := [7] } []) ∧
    (appendInput 7 (construct { inqCap := some 1 } { inq := [7] } []) = none ∧ (vm []).cfg.isWord (2 ^ 63) = false ∧
      (vmPrompt [] []).cfg.channelKind ≠ .buffered ∧ appendInput 7 (vmPrompt [] []) = none) ∧
    takeOutput { vm [] with chan := { outq := [5, 6] } } = .taken 5 { vm [] with chan := { outq := [6] } } ∧
    ((vm []).chan.outq = [] ∧ takeOutput (vm []) = .queueEmpty) ∧ takeOutput (vmPrompt [] []) = .notAvailable := by
  decide

/-- Two instances in a loop, as in Program 4 of 95, and a third that is not wired. -/
def loop3 : Network :=
  { members := [⟨vm [3, 9, 4, 9, 99], some ⟨0, 1⟩⟩, ⟨vm [3, 9, 99], some ⟨1, 0⟩⟩, ⟨vm [99], none⟩], queues := [[5], []] }

/-- One instance whose output queue only the host reads, with a value there, and nothing. -/
def toHost (out : List Int) : Network := { members := [⟨vm [104, 5, 99], some ⟨0, 1⟩⟩], queues := [[], out] }

/-- One instance whose input queue holds one word at most. -/
def boundedInput (q : List Int) : Network := { members := [⟨construct { inqCap := some 1 } {} [], some ⟨0, 1⟩⟩], queues := [q, []] }

/-- An instance that reads what it writes (entry 29). -/
def selfLoop : Network := { members := [⟨vm [104, 5, 99], some ⟨0, 0⟩⟩], queues := [[]] }

/-- Two instances that read one queue (R152), and one wired to a queue that is not there. -/
def twoReaders (concurrent : Bool) : Network :=
  { members := [⟨vm [], some ⟨0, 1⟩⟩, ⟨vm [], some ⟨0, 2⟩⟩], queues := [[], [], []], concurrent := concurrent }
def dangling : Network := { members := [⟨vm [104, 5, 99], some ⟨0, 1⟩⟩], queues := [[]] }

/-- What the model refuses to run or to build: two readers, a missing queue, a wired Device, different widths on one queue, a value of 65 bits. -/
theorem test_network_refusals :
    (twoReaders false).step 0 = none ∧ dangling.step 0 = none ∧ dangling.run 1 0 = .refused ∧
    Network.accepted { members := [⟨vmDevice [] [] [], some ⟨0, 1⟩⟩], queues := [[], []] } = false ∧
    Network.accepted { members := [⟨construct { width := some 8 } {} [], some ⟨0, 1⟩⟩, ⟨vm [], some ⟨1, 2⟩⟩], queues := [[], [], []] } = false ∧
    Network.build [⟨vm [], some ⟨0, 1⟩⟩] [[2 ^ 63], []] false = .error .notAWord ∧ loop3.appendInput 0 (2 ^ 63) = none := by decide

/-- Two halted instances in a ring, as program 4 of 95_test_vectors.md ends: the final signal 84 is in the queue 0 reads and 1 writes. -/
def haltedRing : Network :=
  { members := [⟨{ vm [99] with runState := .halted }, some ⟨0, 1⟩⟩, ⟨{ vm [99] with runState := .halted }, some ⟨1, 0⟩⟩],
    queues := [[84], []] }

/-- A chained value: the output of one instance is what the other then inputs (R152); the host takes the head of what a
member writes (R156): a queue no instance reads, the one the next instance reads, and the signal a halted ring leaves behind. -/
theorem test_network_chain_and_take :
    (match Network.runEach 4 [0, 1] loop3 with
      | .returned n => decide ((n.members[1]?).map (fun m => m.vm.mem.read 9) = some 5 ∧ n.queues = [[], []])
      | .outOfFuel _ => false
      | .refused => false) = true ∧
    (toHost [7, 8]).takeOutput 0 = .taken 7 (toHost [8]) ∧ loop3.takeOutput 0 = .queueEmpty ∧
    loop3.takeOutput 1 = .taken 5 { loop3 with queues := [[], []] } ∧ haltedRing.takeOutput 1 = .taken 84 { haltedRing with queues := [[], []] } := by
  decide

/-- R224: two instances waiting for each other are deadlocked; with a waiting Device among them they are not counted so (entry 25). -/
theorem test_network_deadlock :
    Network.deadlocked { members := [⟨waiting, some ⟨0, 1⟩⟩, ⟨waiting, some ⟨1, 0⟩⟩], queues := [[], []] } = true ∧
    Network.deadlocked { members := [⟨waiting, some ⟨0, 1⟩⟩, ⟨waiting, some ⟨1, 0⟩⟩], queues := [[], [5]] } = false ∧
    Network.deadlocked { members := [⟨waiting, some ⟨0, 1⟩⟩, ⟨waitingDevice [], none⟩], queues := [[], []] } = false := by decide

theorem witness_InstancesShareOnlyQueues :
    (loop3.accepted = true ∧ 0 < loop3.members.length) ∧ (loop3.step 0).isSome = true ∧ 1 ≠ 0 ∧
    (loop3.members[0]? = some ⟨vm [3, 9, 4, 9, 99], some ⟨0, 1⟩⟩ ∧ 2 ≠ 0 ∧ 2 ≠ 1) ∧ (loop3.step 2).isSome = true := by decide

/-- Two queues, one queue for both, and no wiring. -/
theorem witness_SharedQueuesChainInOrder :
    (loop3.accepted = true ∧ loop3.members[0]? = some ⟨vm [3, 9, 4, 9, 99], some ⟨0, 1⟩⟩ ∧ 0 ≠ 1) ∧
    (selfLoop.accepted = true ∧ selfLoop.members[0]? = some ⟨vm [104, 5, 99], some ⟨0, 0⟩⟩) ∧ loop3.members[2]? = some ⟨vm [99], none⟩ := by
  decide

/-- A refused network of each kind, an accepted one, and an accepted concurrent one. -/
theorem witness_ConcurrencyNeedsExclusiveQueues :
    ((twoReaders true).accepted = false ∧ (twoReaders false).accepted = false ∧ dangling.accepted = false) ∧
    (loop3.accepted = true ∧ 2 < loop3.members.length ∧ loop3.concurrent = false) ∧
    (({ loop3 with concurrent := true } : Network).concurrent = true ∧ ({ loop3 with concurrent := true } : Network).accepted = true) := by decide

/-- One network for each clause. -/
theorem witness_NetworkCommandsKeepQueueDiscipline :
    loop3.members[0]? = some ⟨vm [3, 9, 4, 9, 99], some ⟨0, 1⟩⟩ ∧
    (loop3.appendInput 0 7 = some { loop3 with queues := [[5, 7], []] }) ∧
    (loop3.accepted = true ∧ (vm [3, 9, 4, 9, 99]).cfg.isWord 7 = true ∧ (vm [3, 9, 4, 9, 99]).cfg.inqCap = none) ∧
    (boundedInput []).appendInput 0 7 = some (boundedInput [7]) ∧ (boundedInput [7]).appendInput 0 7 = none ∧
    ((toHost [7, 8]).members[0]? = some ⟨vm [104, 5, 99], some ⟨0, 1⟩⟩ ∧ (toHost [7, 8]).takeOutput 0 = .taken 7 (toHost [8]) ∧
      (toHost [7, 8]).accepted = true ∧ (toHost [7, 8]).queue 1 = 7 :: [8]) ∧
    (haltedRing.members[1]? = some ⟨{ vm [99] with runState := .halted }, some ⟨1, 0⟩⟩ ∧ haltedRing.accepted = true ∧ haltedRing.queue 0 = 84 :: []) ∧
    (toHost []).accepted = true ∧ (toHost []).queue 1 = [] := by decide

theorem witness_BuiltNetworksMeetTheInvariant :
    (∀ m ∈ [(⟨vm [99], some ⟨0, 1⟩⟩ : Member)], m.vm.Inv) ∧
    Network.build [⟨vm [99], some ⟨0, 1⟩⟩] [[5], []] false = .ok { members := [⟨vm [99], some ⟨0, 1⟩⟩], queues := [[5], []] } := by
  refine ⟨?_, by decide⟩
  simp only [List.mem_singleton, forall_eq]
  exact inv_vm_halt

/-- A network that meets the invariant, and each of its commands. -/
theorem witness_NetworkCommandsKeepTheInvariant :
    (toHost [7]).Inv ∧ ((toHost [7]).step 0).isSome = true ∧ ((toHost [7]).appendInput 0 6).isSome = true ∧ ((toHost [7]).append 0 6).isSome = true ∧
    (toHost [7]).takeOutput 0 = .taken 7 (toHost []) ∧
    (match (toHost [7]).run 2 0 with
      | .returned _ => true
      | .outOfFuel _ => false
      | .refused => false) = true ∧
    (Network.interleave { toHost [7] with concurrent := true } [0]).isSome = true := by
  refine ⟨⟨by decide, ?_⟩, by decide, by decide, by decide, by decide, by decide, by decide⟩
  simp only [toHost, List.mem_singleton, forall_eq]
  exact inv_of_checks (cap := 2 ^ 63) (by decide) (.inl rfl)

end Sys2Proof.Tests
end

section
/-! PROOFS. Swapping the channel (R148): every instruction but INPUT and OUTPUT does the same on any channel. On an Interactive and on a Buffered
channel that hold the same values INPUT and OUTPUT do the same too, but that one holds where the other suspends. -/

namespace Sys2Proof.Machine

/-! A state on another channel. -/

/-- `s` attached to a channel of another kind, in the state `c`. -/
def State.onChannel (kind : ChannelKind) (c : Channel) (s : State) : State :=
  { s with cfg := { s.cfg with channelKind := kind }, chan := c }

section onChannel
variable (kind : ChannelKind) (c : Channel) (s : State)
@[simp] theorem State.onChannel_channelKind : (s.onChannel kind c).cfg.channelKind = kind := rfl
@[simp] theorem State.onChannel_outqCap : (s.onChannel kind c).cfg.outqCap = s.cfg.outqCap := rfl
@[simp] theorem State.onChannel_ip : (s.onChannel kind c).ip = s.ip := rfl
@[simp] theorem State.onChannel_rb : (s.onChannel kind c).rb = s.rb := rfl
@[simp] theorem State.onChannel_mem : (s.onChannel kind c).mem = s.mem := rfl
@[simp] theorem State.onChannel_len : (s.onChannel kind c).len = s.len := rfl
@[simp] theorem State.onChannel_runState : (s.onChannel kind c).runState = s.runState := rfl
@[simp] theorem State.onChannel_faultCause : (s.onChannel kind c).faultCause = s.faultCause := rfl
@[simp] theorem State.onChannel_faultInfo : (s.onChannel kind c).faultInfo = s.faultInfo := rfl
@[simp] theorem State.onChannel_chan : (s.onChannel kind c).chan = c := rfl
@[simp] theorem State.onChannel_operandValue (m : Mode) (k : Nat) : (s.onChannel kind c).operandValue m k = s.operandValue m k := rfl
@[simp] theorem State.onChannel_operandAccesses (m : Mode) (k : Nat) :
    (s.onChannel kind c).operandAccesses m k = s.operandAccesses m k := rfl
@[simp] theorem accessFault_onChannel (as : List Int) : accessFault (s.onChannel kind c).cfg as = accessFault s.cfg as := rfl
@[simp] theorem overflowFault_onChannel (r : Int) : overflowFault (s.onChannel kind c) r = overflowFault s r := rfl
@[simp] theorem wordResult_onChannel (r : Int) : wordResult (s.onChannel kind c) r = wordResult s r := rfl
@[simp] theorem fetchWord_onChannel : fetchWord (s.onChannel kind c) = fetchWord s := rfl
theorem State.grow_onChannel (as : List Int) : (s.onChannel kind c).grow as = (s.grow as).onChannel kind c := rfl
theorem State.onChannel_self : s.onChannel s.cfg.channelKind s.chan = s := rfl
end onChannel

/-! The operand frames and the instructions that do not use the channel. -/

/-- The storing frame is blind to the channel when its result is. -/
theorem readReadWrite_onChannel (kind : ChannelKind) (c : Channel) {f : State → Int → Int → Except FatalEvent Int}
    (hf : ∀ (t : State) a b, f (t.onChannel kind c) a b = f t a b) (m1 m2 m3 : Mode) (s : State) :
    readReadWrite f m1 m2 m3 (s.onChannel kind c) = (readReadWrite f m1 m2 m3 s).map (State.onChannel kind c) := by
  by_cases hm : m3 = .immediate
  · subst hm
    rw [readReadWrite_immediate, readReadWrite_immediate]
    rfl
  · rw [readReadWrite_eq f m1 m2 hm, readReadWrite_eq f m1 m2 hm, State.grow_onChannel, hf]
    simp only [accessFault_onChannel, State.onChannel_operandAccesses, State.onChannel_operandValue, State.onChannel_ip]
    cases accessFault s.cfg (s.operandAccesses m1 1 ++ (s.operandAccesses m2 2 ++ s.operandAccesses m3 3)) with
    | some e => rfl
    | none => cases f _ (s.operandValue m1 1) (s.operandValue m2 2) <;> rfl

/-- The jump frame is blind to the channel. -/
theorem readReadJump_onChannel (kind : ChannelKind) (c : Channel) (cond : Int → Bool) (m1 m2 : Mode) (s : State) :
    readReadJump cond m1 m2 (s.onChannel kind c) = (readReadJump cond m1 m2 s).map (State.onChannel kind c) := by
  rw [readReadJump_eq, readReadJump_eq]
  simp only [accessFault_onChannel, State.onChannel_operandAccesses, State.onChannel_operandValue]
  cases accessFault s.cfg (s.operandAccesses m1 1 ++ s.operandAccesses m2 2) with
  | some e => rfl
  | none =>
    dsimp only
    rw [apply_ite (Except.map (State.onChannel kind c))]
    rfl

/-- Committing or raising is blind to the channel. -/
theorem commit_onChannel (kind : ChannelKind) (c : Channel) (s : State) (r : Except FatalEvent State) :
    ∃ t, commit s r = .next t ∧ commit (s.onChannel kind c) (r.map (State.onChannel kind c)) = .next (t.onChannel kind c) := by
  cases r with
  | ok t => exact ⟨t, rfl, rfl⟩
  | error e => exact ⟨_, rfl, rfl⟩

/-- The four storing instructions do the same on every channel. -/
theorem commit_readReadWrite_onChannel {kind : ChannelKind} {c : Channel} {f : State → Int → Int → Except FatalEvent Int}
    (m1 m2 m3 : Mode) (s : State) (hf : ∀ (t : State) a b, f (t.onChannel kind c) a b = f t a b) :
    ∃ t, commit s (readReadWrite f m1 m2 m3 s) = .next t ∧
      commit (s.onChannel kind c) (readReadWrite f m1 m2 m3 (s.onChannel kind c)) = .next (t.onChannel kind c) := by
  rw [readReadWrite_onChannel kind c hf]
  exact commit_onChannel kind c s _

/-- The two jumps do the same on every channel. -/
theorem commit_readReadJump_onChannel (kind : ChannelKind) (c : Channel) (cond : Int → Bool) (m1 m2 : Mode) (s : State) :
    ∃ t, commit s (readReadJump cond m1 m2 s) = .next t ∧
      commit (s.onChannel kind c) (readReadJump cond m1 m2 (s.onChannel kind c)) = .next (t.onChannel kind c) := by
  rw [readReadJump_onChannel]
  exact commit_onChannel kind c s _

theorem execAdjustBase_onChannel (kind : ChannelKind) (c : Channel) (m1 : Mode) (s : State) :
    ∃ t, execAdjustBase m1 s = .next t ∧ execAdjustBase m1 (s.onChannel kind c) = .next (t.onChannel kind c) := by
  rw [execAdjustBase_eq, execAdjustBase_eq]
  simp only [accessFault_onChannel, overflowFault_onChannel, State.onChannel_operandAccesses, State.onChannel_operandValue,
    State.onChannel_rb]
  cases accessFault s.cfg (s.operandAccesses m1 1) with
  | some e => exact ⟨_, rfl, rfl⟩
  | none =>
    cases overflowFault s (s.rb + s.operandValue m1 1) with
    | some e => exact ⟨_, rfl, rfl⟩
    | none => exact ⟨_, rfl, rfl⟩

/-- The instructions that use the channel (R140, R141). -/
inductive Instr.IsIo : Instr → Prop where
  | input (m1 m2 m3 : Mode) : Instr.IsIo (.input m1 m2 m3)
  | output (m1 m2 m3 : Mode) : Instr.IsIo (.output m1 m2 m3)

/-- Any other instruction does the same on every channel. -/
theorem exec_onChannel (kind : ChannelKind) (c : Channel) {i : Instr} (hi : ¬ Instr.IsIo i) (s : State) :
    ∃ t, exec i s = .next t ∧ exec i (s.onChannel kind c) = .next (t.onChannel kind c) := by
  cases i with
  | add m1 m2 m3 => exact commit_readReadWrite_onChannel m1 m2 m3 s fun t a b => wordResult_onChannel kind c t (a + b)
  | mul m1 m2 m3 => exact commit_readReadWrite_onChannel m1 m2 m3 s fun t a b => wordResult_onChannel kind c t (a * b)
  | lessThan m1 m2 m3 => exact commit_readReadWrite_onChannel m1 m2 m3 s fun _ _ _ => rfl
  | equals m1 m2 m3 => exact commit_readReadWrite_onChannel m1 m2 m3 s fun _ _ _ => rfl
  | jumpIfTrue m1 m2 m3 => exact commit_readReadJump_onChannel kind c testNonZero m1 m2 s
  | jumpIfFalse m1 m2 m3 => exact commit_readReadJump_onChannel kind c testZero m1 m2 s
  | adjustBase m1 m2 m3 => exact execAdjustBase_onChannel kind c m1 s
  | halt m1 m2 m3 => exact ⟨_, rfl, rfl⟩
  | input m1 m2 m3 => exact absurd (.input m1 m2 m3) hi
  | output m1 m2 m3 => exact absurd (.output m1 m2 m3) hi

/-- An instruction that does not use the channel leaves it as it is: it does the same on the channel `s` has. -/
theorem exec_keeps_chan {i : Instr} (hi : ¬ Instr.IsIo i) {s t : State} (h : exec i s = .next t) : t.chan = s.chan := by
  obtain ⟨u, hu, hu'⟩ := exec_onChannel s.cfg.channelKind s.chan hi s
  rw [State.onChannel_self, h] at hu'
  cases hu'
  rfl

/-! What every step keeps. -/

theorem Effect.cfg_eq {i : Instr} {s t : State} (h : Effect i s t) : t.cfg = s.cfg := by
  cases h <;> rfl

/-- No step changes the parameters (R32). -/
theorem step_keeps_cfg {s t : State} (h : step s = .next t) : t.cfg = s.cfg := by
  rcases step_cases s with ⟨-, hs⟩ | ⟨-, u, hs, -, he⟩ <;> rw [h] at hs <;> cases hs
  · rfl
  · rw [← State.resume_cfg s]
    cases he with
    | fetchFault _ => rfl
    | illegal _ _ _ => rfl
    | instr _ _ _ _ _ he => exact he.cfg_eq

/-- Only an Empty answer suspends, which no Interactive channel gives (R150). -/
theorem Effect.interactive_not_awaiting {i : Instr} {s t : State} (h : Effect i s t) (hk : s.cfg.channelKind = .interactive)
    (hr : s.runState ≠ .awaitingInput) : t.runState ≠ .awaitingInput := by
  cases h with
  | suspend _ _ _ _ _ _ _ hc => obtain ⟨hk', -⟩ | ⟨hk', -⟩ := chanRead_empty hc <;> simp [hk] at hk'
  | store | jump | base | input | output | held => exact hr
  | fatal | readError | writeError | halt => nofun

/-- After a step an Interactive machine is never AwaitingInput (R150). -/
theorem step_interactive_not_awaiting {s t : State} (h : step s = .next t) (hk : s.cfg.channelKind = .interactive)
    (hr : s.runState ≠ .awaitingInput) : t.runState ≠ .awaitingInput := by
  rcases step_cases s with ⟨-, hs⟩ | ⟨hl, u, hs, -, he⟩ <;> rw [h] at hs <;> cases hs
  · exact hr
  · rw [State.resume_of_running s (hl.resolve_right hr)] at he
    cases he with
    | fetchFault _ => nofun
    | illegal _ _ _ => nofun
    | instr _ _ _ _ _ he => exact he.interactive_not_awaiting hk hr

/-! The Buffered twin of an Interactive machine. -/

/-- `s` on a Buffered channel: the values to come at the prompt stand in INQ, and the values printed in OUTQ (entries 5 and 8). -/
def State.toBuffered (s : State) : State := s.onChannel .buffered { inq := s.chan.prompt, outq := s.chan.emitted }

/-- An operand's accesses raise the same there. -/
theorem accessFault_toBuffered (s : State) (m : Mode) (k : Nat) :
    accessFault s.toBuffered.cfg (s.toBuffered.operandAccesses m k) = accessFault s.cfg (s.operandAccesses m k) :=
  accessFault_onChannel _ _ s _

/-- `u` is `s` on a Buffered channel, or suspended there where `s` is held at the prompt (entry 6). -/
inductive BufferedTwin (s : State) : State → Prop where
  | same : BufferedTwin s s.toBuffered
  | waits (h : s.runState = .running) : BufferedTwin s s.toBuffered.suspend

/-- A value at the prompt is the same value in INQ; with none, INPUT is held at the prompt and suspended on the queue (R150, R151). -/
theorem bufferedTwin_inputTo {m1 : Mode} (hm : m1 ≠ .immediate) {s : State} (hk : s.cfg.channelKind = .interactive)
    (hr : s.runState = .running) :
    BufferedTwin (inputTo (s.destination m1 1) (s.grow [((s.ip + 1 : Nat) : Int)]) s)
      (inputTo (s.toBuffered.destination m1 1) (s.toBuffered.grow [((s.toBuffered.ip + 1 : Nat) : Int)]) s.toBuffered) := by
  cases hp : s.chan.prompt with
  | nil =>
    have hs : chanRead s.cfg.channelKind s.chan = none := by simp only [chanRead, hk, hp]
    have hb : chanRead s.toBuffered.cfg.channelKind s.toBuffered.chan = some (.empty, s.toBuffered.chan) := by
      simp only [chanRead, State.toBuffered, State.onChannel_channelKind, State.onChannel_chan, hp]
    simp only [inputTo, hs, hb]
    exact .waits hr
  | cons v rest =>
    have hs : chanRead s.cfg.channelKind s.chan = some (.value v, { s.chan with prompt := rest }) := by
      simp only [chanRead, hk, hp]
    have hb : chanRead s.toBuffered.cfg.channelKind s.toBuffered.chan = some (.value v, { s.toBuffered.chan with inq := rest }) := by
      simp only [chanRead, State.toBuffered, State.onChannel_channelKind, State.onChannel_chan, hp]
    rw [inputTo_value hm hs, inputTo_value hm hb]
    exact .same

/-- A value printed is the same value at the end of an unbounded OUTQ (R147, R151). -/
theorem outputWord_toBuffered {s : State} (hk : s.cfg.channelKind = .interactive) (hq : s.cfg.outqCap = none) (a : Int) (as : List Int) :
    outputWord a (s.toBuffered.grow as) s.toBuffered = (outputWord a (s.grow as) s).toBuffered := by
  have hs : chanWrite s.cfg a s.chan = some (.ok, { s.chan with emitted := s.chan.emitted ++ [a] }) := by
    simp only [chanWrite, hk]
  have hb : chanWrite s.toBuffered.cfg a s.toBuffered.chan =
      some (.ok, { s.toBuffered.chan with outq := s.toBuffered.chan.outq ++ [a] }) := by
    simp only [chanWrite, State.toBuffered, State.onChannel_channelKind, State.onChannel_outqCap, hq, below, if_true]
  simp only [outputWord, hs, hb]
  rfl

theorem execInput_bufferedTwin {s : State} (hk : s.cfg.channelKind = .interactive) (hr : s.runState = .running) (m1 : Mode) :
    ∃ t u, execInput m1 s = .next t ∧ execInput m1 s.toBuffered = .next u ∧ BufferedTwin t u := by
  by_cases hm : m1 = .immediate
  · subst hm
    exact ⟨_, _, execInput_immediate s, execInput_immediate s.toBuffered, .same⟩
  · rw [execInput_eq hm, execInput_eq hm, accessFault_toBuffered]
    cases accessFault s.cfg (s.operandAccesses m1 1) with
    | some e => exact ⟨_, _, rfl, rfl, .same⟩
    | none => exact ⟨_, _, rfl, rfl, bufferedTwin_inputTo hm hk hr⟩

theorem execOutput_toBuffered {s : State} (hk : s.cfg.channelKind = .interactive) (hq : s.cfg.outqCap = none) (m1 : Mode) :
    ∃ t, execOutput m1 s = .next t ∧ execOutput m1 s.toBuffered = .next t.toBuffered := by
  rw [execOutput_eq, execOutput_eq, accessFault_toBuffered]
  cases accessFault s.cfg (s.operandAccesses m1 1) with
  | some e => exact ⟨_, rfl, rfl⟩
  | none => exact ⟨_, rfl, congrArg _ (outputWord_toBuffered hk hq _ _)⟩

section twin
variable {s : State} (hk : s.cfg.channelKind = .interactive) (hq : s.cfg.outqCap = none) (hr : s.runState = .running)
include hk hq hr

/-- Every instruction takes an Interactive machine and its Buffered twin to twins. -/
theorem exec_bufferedTwin (i : Instr) : ∃ t u, exec i s = .next t ∧ exec i s.toBuffered = .next u ∧ BufferedTwin t u := by
  by_cases hi : Instr.IsIo i
  · cases hi with
    | input m1 m2 m3 => exact execInput_bufferedTwin hk hr m1
    | output m1 m2 m3 =>
      obtain ⟨t, ht, hu⟩ := execOutput_toBuffered hk hq m1
      exact ⟨t, _, ht, hu, .same⟩
  · obtain ⟨t, ht, hu⟩ := exec_onChannel .buffered s.toBuffered.chan hi s
    have hc : t.onChannel .buffered s.toBuffered.chan = t.toBuffered := by
      unfold State.toBuffered
      rw [exec_keeps_chan hi ht]
      rfl
    exact ⟨t, _, ht, hu, hc ▸ .same⟩

/-- The fetch and the decoder do not look at the channel. -/
theorem stepRunning_bufferedTwin :
    ∃ t u, stepRunning s = .next t ∧ stepRunning s.toBuffered = .next u ∧ BufferedTwin t u := by
  unfold stepRunning
  have hf : fetchWord s.toBuffered = fetchWord s := fetchWord_onChannel _ _ s
  rw [hf]
  cases fetchWord s with
  | error e => exact ⟨_, _, rfl, rfl, .same⟩
  | ok w =>
    dsimp only
    cases decode w with
    | error e => exact ⟨_, _, rfl, rfl, .same⟩
    | ok i => exact exec_bufferedTwin hk hq hr i

end twin

/-- A Buffered twin that waits resumes as the other twin, and asks again (R213). -/
theorem BufferedTwin.step_of_running {s u : State} (h : BufferedTwin s u) (hr : s.runState = .running) :
    step u = stepRunning s.toBuffered := by
  cases h with
  | same => rw [step_of_live (s := s.toBuffered) (.inl hr), State.resume_of_running s.toBuffered hr]
  | waits _ =>
    rw [step_of_live (.inr rfl), State.resume_of_awaiting _ rfl, ← hr]
    rfl

/-- A terminal machine and its Buffered twin stay as they are, a live one and its twin step to twins. -/
theorem step_bufferedTwin {s u : State} (h : BufferedTwin s u) (hk : s.cfg.channelKind = .interactive) (hq : s.cfg.outqCap = none)
    (hr : s.runState ≠ .awaitingInput) : ∃ t v, step s = .next t ∧ step u = .next v ∧ BufferedTwin t v := by
  have hterminal (hs : s.runState = .halted ∨ s.runState = .fatal) : ∃ t v, step s = .next t ∧ step u = .next v ∧ BufferedTwin t v := by
    cases h with
    | same => exact ⟨s, _, step_of_terminal hs, step_of_terminal hs, .same⟩
    | waits hw => rcases hs with hs | hs <;> rw [hw] at hs <;> cases hs
  cases hs : s.runState with
  | running =>
    rw [h.step_of_running hs, step_of_live (.inl hs), State.resume_of_running s hs]
    exact stepRunning_bufferedTwin hk hq hs
  | awaitingInput => exact absurd hs hr
  | halted => exact hterminal (.inl hs)
  | fatal => exact hterminal (.inr hs)

/-- Twins after any number of steps; the Interactive one never waits. -/
theorem run_bufferedTwin (n : Nat) : ∀ {s u : State}, BufferedTwin s u → s.cfg.channelKind = .interactive → s.cfg.outqCap = none →
    s.runState ≠ .awaitingInput →
    ∃ t v, Host.Core.run Sys2Proof.core n s = .next t ∧ Host.Core.run Sys2Proof.core n u = .next v ∧ BufferedTwin t v ∧
      t.runState ≠ .awaitingInput := by
  induction n with
  | zero => exact fun h _ _ hr => ⟨_, _, core_run_zero _, core_run_zero _, h, hr⟩
  | succ n ih =>
    intro s u h hk hq hr
    obtain ⟨t, v, ht, hv, h'⟩ := step_bufferedTwin h hk hq hr
    rw [core_run_succ n ht, core_run_succ n hv]
    have hc := step_keeps_cfg ht
    exact ih h' (hc ▸ hk) (hc ▸ hq) (step_interactive_not_awaiting ht hk hr)

/-- Settles O38: the two machines start as twins, every step keeps them twins, and twins differ in nothing the statement names. -/
theorem interactiveAndBufferedRunsAgree : Obligations.InteractiveAndBufferedRunsAgree := by
  intro cfg prog values n hq
  obtain ⟨t, u, ht, hu, h, hr⟩ := run_bufferedTwin n
    (s := construct { cfg with channelKind := .interactive } { prompt := values } prog) .same rfl hq nofun
  refine ⟨t, u, ht, hu, ?_⟩
  cases h with
  | same => exact ⟨rfl, rfl, rfl, rfl, rfl, rfl, .rfl, .rfl, rfl, rfl, hr⟩
  | waits hw => exact ⟨rfl, rfl, rfl, rfl, rfl, rfl, by simp [hw], by simp [hw], rfl, rfl, hr⟩

end Sys2Proof.Machine
end

section
/-! PROOFS. What the invariant of a machine says of single values, of memory with LEN, and of the channel; each is a fact of its own, so that the
steps below only put them together. -/

namespace Sys2Proof.Machine

/-! The ranges the width fixes. -/

theorem isWord_iff {c : Config} {v : Int} : c.isWord v = true ↔ ∀ w, c.width = some w → wordMin w ≤ v ∧ v ≤ wordMax w := by
  unfold Config.isWord
  cases c.width with
  | none => simp
  | some w => simp

/-- With `W >= 3` the limits are those of one number, `WORD_MAX >= 3` (R5). -/
theorem word_limits {c : Config} (hc : Config.WidthOk c) {w : Nat} (hw : c.width = some w) :
    3 ≤ wordMax w ∧ wordMin w = -wordMax w - 1 ∧ (2 : Int) ^ w = 2 * wordMax w + 2 := by
  obtain ⟨k, rfl⟩ := Nat.exists_eq_add_of_le (hc w hw)
  have h1 : (3 + k) - 1 = 2 + k := by omega
  have hpos : (0 : Int) < 2 ^ k := by positivity
  simp only [wordMin, wordMax, h1, pow_add]
  omega

theorem isWord_zero {c : Config} (hc : Config.WidthOk c) : c.isWord 0 = true :=
  isWord_iff.2 fun w hw => by have := word_limits hc hw; omega

theorem isWord_one {c : Config} (hc : Config.WidthOk c) : c.isWord 1 = true :=
  isWord_iff.2 fun w hw => by have := word_limits hc hw; omega

/-- A valid address is at most WORD_MAX, for the capacity is at most `2^(W-1)` (R5, R42). -/
theorem validAddr_le_wordMax {c : Config} {a : Int} (h : ValidAddr c a) {w : Nat} (hw : c.width = some w) : a ≤ wordMax w := by
  obtain ⟨h0, hb⟩ := h
  have hcap : a.toNat < 2 ^ (w - 1) := by
    unfold Config.cap at hb
    rw [hw] at hb
    cases hm : c.memCap <;> simp only [hm, below, decide_eq_true_eq] at hb
    · exact hb
    · exact lt_of_lt_of_le hb (Nat.min_le_right _ _)
  have hlt : a < ((2 ^ (w - 1) : Nat) : Int) := by omega
  push_cast at hlt
  unfold wordMax
  omega

theorem validAddr_lt_cap {c : Config} {a : Int} (h : ValidAddr c a) {n : Nat} (hn : c.cap = some n) : a.toNat < n := by
  have hb := h.2
  rw [hn] at hb
  simpa only [below, decide_eq_true_eq] using hb

/-- `v` has the `W+1` bits of FAULT_INFO (R28). -/
def FitsInfo (c : Config) (v : Int) : Prop := ∀ w, c.width = some w → -2 ^ w ≤ v ∧ v < 2 ^ w

theorem fitsInfo_of_isWord {c : Config} (hc : Config.WidthOk c) {v : Int} (hv : c.isWord v = true) : FitsInfo c v := fun w hw => by
  have := word_limits hc hw
  have := isWord_iff.1 hv w hw
  omega

/-- The sum of two words: what Relative mode makes of RB and a parameter (R28, R117). -/
theorem fitsInfo_add {c : Config} (hc : Config.WidthOk c) {u v : Int} (hu : c.isWord u = true) (hv : c.isWord v = true) :
    FitsInfo c (u + v) := fun w hw => by
  have := word_limits hc hw
  have := isWord_iff.1 hu w hw
  have := isWord_iff.1 hv w hw
  omega

/-- Every address IP can hold or reach with a parameter. -/
theorem fitsInfo_nat {c : Config} (hc : Config.WidthOk c) {n : Nat} (hn : ∀ w, c.width = some w → (n : Int) ≤ wordMax w + 4) :
    FitsInfo c n := fun w hw => by
  have := word_limits hc hw
  have := hn w hw
  omega

/-! Memory together with LEN. -/

/-- What the invariant says of the memory list and LEN. -/
structure MemoryOk (c : Config) (mem : Memory) (len : Nat) : Prop where
  canonical : mem.wf = true
  belowLen : ∀ p ∈ mem, p.1 < len
  words : ∀ p ∈ mem, c.isWord p.2 = true
  withinCap : ∀ n, c.cap = some n → len ≤ n

theorem State.Inv.memoryOk {s : State} (h : s.Inv) : MemoryOk s.cfg s.mem s.len :=
  ⟨h.memory, h.cellsBelowLen, h.cellsAreWords, h.lenWithinCap⟩

section access
variable {s : State} {as : List Int} (h : MemoryOk s.cfg s.mem s.len) (has : ∀ a ∈ as, ValidAddr s.cfg a)
include h has

/-- Accesses at valid addresses only grow LEN, and not past the capacity (R47). -/
theorem MemoryOk.access : MemoryOk s.cfg s.mem (s.lenAfter as) where
  canonical := h.canonical
  belowLen p hp := Nat.lt_of_lt_of_le (h.belowLen p hp) (s.le_lenAfter as)
  words := h.words
  withinCap n hn := s.lenAfter_le (h.withinCap n hn) fun a ha => validAddr_lt_cap (has a ha) hn

/-- So does a store of a word at one of them. -/
theorem MemoryOk.store {a v : Int} (ha : a ∈ as) (hv : s.cfg.isWord v = true) :
    MemoryOk s.cfg (s.mem.write a.toNat v) (s.lenAfter as) where
  canonical := Memory.wf_write _ v h.canonical
  belowLen p hp := by
    rcases Memory.mem_write hp with ⟨rfl, -⟩ | hp
    · exact s.lt_lenAfter ha
    · exact (h.access has).belowLen p hp
  words p hp := by
    rcases Memory.mem_write hp with ⟨rfl, -⟩ | hp
    · exact hv
    · exact h.words p hp
  withinCap := (h.access has).withinCap

end access

/-! Values and addresses an instruction meets. -/

theorem mem_operandAccesses_of_address {s : State} {m : Mode} {k : Nat} {a : Int} (h : s.operandAddress m k = some a) :
    a ∈ s.operandAccesses m k := by
  simp [State.operandAccesses, h]

/-- A store is one of the accesses. -/
theorem storedAddress_mem_accesses {i : Instr} {s : State} {a : Int} (h : storedAddress i s = some a) : a ∈ accesses i s := by
  cases i with
  | add | mul | lessThan | equals | input => simp [accesses, Instr.operands, mem_operandAccesses_of_address h]
  | output | jumpIfTrue | jumpIfFalse | adjustBase | halt => cases h

theorem executeFault_eq_none_of_firstFault {i : Instr} {s : State} (h : firstFault i s = none) : executeFault i s = none := by
  rw [firstFault_eq] at h
  split at h
  · cases h
  · exact h

theorem accesses_valid {i : Instr} {s : State} (hip : ValidAddr s.cfg s.ip) (h : firstFault i s = none) :
    ∀ a ∈ accesses i s, ValidAddr s.cfg a := by
  rw [firstFault_eq] at h
  split at h
  · cases h
  · rename_i hacc
    exact List.forall_mem_cons.2 ⟨hip, accessFault_eq_none.1 hacc⟩

/-- A bad access reports its address (R45, R46). -/
theorem accessFault_info_mem {c : Config} {as : List Int} {e : FatalEvent} (h : accessFault c as = some e) : e.info ∈ as := by
  induction as with
  | nil => cases h
  | cons a as ih =>
    rw [accessFault_cons] at h
    unfold addrFault at h
    split_ifs at h
    · exact List.mem_cons_of_mem _ (ih h)
    · cases h; exact List.mem_cons_self
    · cases h; exact List.mem_cons_self

/-- A result that raises nothing is a word (R132). -/
theorem isWord_of_overflowFault {s : State} {r : Int} (h : overflowFault s r = none) : s.cfg.isWord r = true := by
  by_contra hr
  rw [overflowFault, if_neg hr] at h
  cases h

theorem overflowFault_info {s : State} {r : Int} {e : FatalEvent} (h : overflowFault s r = some e) : e.info = s.instrWord := by
  unfold overflowFault at h
  split at h <;> cases h
  rfl

theorem targetFault_info {p : Prop} [Decidable p] {t : Int} {e : FatalEvent} (h : targetFault p t = some e) : e.info = t := by
  unfold targetFault at h
  split at h <;> cases h
  rfl

/-- The execute phase reports the instruction word, or a jump's target (R132, R172). -/
theorem executeFault_info {i : Instr} {s : State} {e : FatalEvent} (h : executeFault i s = some e) :
    e.info = s.instrWord ∨ ∃ m k, e.info = s.operandValue m k := by
  cases i with
  | add | mul | adjustBase => exact .inl (overflowFault_info h)
  | jumpIfTrue m1 m2 | jumpIfFalse m1 m2 => exact .inr ⟨m2, 2, targetFault_info h⟩
  | input | output | lessThan | equals | halt => cases h

theorem operands_position_le {i : Instr} : ∀ p ∈ Instr.operands i, p.2 ≤ 3 := by
  cases i <;> simp [Instr.operands]

/-- A fetched instruction stands at most at WORD_MAX, so IP can move 4 on (R21). -/
theorem advance_inRange {s : State} (hip : ValidAddr s.cfg s.ip) {k : Nat} (hk : k ≤ 4) (w : Nat) (hw : s.cfg.width = some w) :
    ((s.ip + k : Nat) : Int) ≤ wordMax w + 4 := by
  have := validAddr_le_wordMax hip hw
  omega

section values
variable {s : State} (h : s.Inv)
include h

theorem State.Inv.read_isWord (a : Nat) : s.cfg.isWord (s.mem.read a) = true := by
  by_cases h0 : s.mem.read a = 0
  · rw [h0]; exact isWord_zero h.width
  · exact h.cellsAreWords _ (Memory.mem_of_read_ne_zero h0)

theorem State.Inv.operandValue_isWord (m : Mode) (k : Nat) : s.cfg.isWord (s.operandValue m k) = true := by
  unfold State.operandValue
  cases s.operandAddress m k with
  | none => exact h.read_isWord _
  | some a => exact h.read_isWord _

variable (hip : ValidAddr s.cfg s.ip)
include hip

/-- A parameter's address, a parameter in Position mode, or the sum Relative mode makes: each fits FAULT_INFO (R28, R114). -/
theorem State.Inv.operandAccesses_fitInfo {m : Mode} {k : Nat} (hk : k ≤ 3) : ∀ a ∈ s.operandAccesses m k, FitsInfo s.cfg a := by
  have hparam : FitsInfo s.cfg ((s.ip + k : Nat) : Int) := fitsInfo_nat h.width (advance_inRange hip (by omega))
  cases m with
  | immediate => exact List.forall_mem_singleton.2 hparam
  | position => exact List.forall_mem_cons.2 ⟨hparam, List.forall_mem_singleton.2 (fitsInfo_of_isWord h.width (h.read_isWord _))⟩
  | relative => exact List.forall_mem_cons.2 ⟨hparam, List.forall_mem_singleton.2 (fitsInfo_add h.width h.rbIsWord (h.read_isWord _))⟩

/-- Whatever an instruction reports fits FAULT_INFO (R28). -/
theorem State.Inv.firstFault_fitsInfo {i : Instr} {e : FatalEvent} (hf : firstFault i s = some e) : FitsInfo s.cfg e.info := by
  rw [firstFault_eq] at hf
  split at hf
  · rename_i hacc
    cases hf
    obtain ⟨p, hp, ha⟩ := List.mem_flatMap.1 (accessFault_info_mem hacc)
    exact h.operandAccesses_fitInfo hip (operands_position_le p hp) _ ha
  · rcases executeFault_info hf with hi | ⟨m, k, hi⟩ <;> rw [hi] <;> apply fitsInfo_of_isWord h.width
    · exact h.read_isWord _
    · exact h.operandValue_isWord m k

end values

/-! The channel. -/

/-- A read transaction answers a word and leaves words (R154, R155). -/
theorem ChannelWords.read {cfg : Config} {k : ChannelKind} {c c' : Channel} {a : ReadAnswer} (h : ChannelWords cfg c)
    (hr : chanRead k c = some (a, c')) : readAnswerOk cfg a = true ∧ ChannelWords cfg c' := by
  rcases chanRead_cases hr with ⟨-, v, rfl, hp, hc⟩ | ⟨-, -, rfl, rfl⟩ | ⟨-, v, rfl, hq, hc⟩ | ⟨-, hd, hc⟩
  · have hw := hp ▸ h.prompt
    rw [hc]
    exact ⟨hw v List.mem_cons_self, { h with prompt := fun u hu => hw u (List.mem_cons_of_mem _ hu) }⟩
  · exact ⟨rfl, h⟩
  · have hw := hq ▸ h.inq
    rw [hc]
    exact ⟨hw v List.mem_cons_self, { h with inq := fun u hu => hw u (List.mem_cons_of_mem _ hu) }⟩
  · have hw := hd ▸ h.reads
    rw [hc]
    exact ⟨hw a List.mem_cons_self, { h with reads := fun u hu => hw u (List.mem_cons_of_mem _ hu) }⟩

/-- A write transaction of a word answers a word and leaves words (R154, R155). -/
theorem ChannelWords.write {cfg : Config} {v : Int} {c c' : Channel} {a : WriteAnswer} (h : ChannelWords cfg c)
    (hv : cfg.isWord v = true) (hr : chanWrite cfg v c = some (a, c')) : writeAnswerOk cfg a = true ∧ ChannelWords cfg c' := by
  have happend : ∀ l : List Int, (∀ u ∈ l, cfg.isWord u = true) → ∀ u ∈ l ++ [v], cfg.isWord u = true := fun l hl =>
    List.forall_mem_append.2 ⟨hl, List.forall_mem_singleton.2 hv⟩
  rcases chanWrite_cases hr with ⟨-, rfl, hc⟩ | ⟨-, rfl, hc⟩ | ⟨-, rfl, hd, hc⟩ | ⟨-, -, hd, hc⟩
  · rw [hc]
    exact ⟨rfl, { h with emitted := happend _ h.emitted }⟩
  · rw [hc]
    exact ⟨rfl, { h with outq := happend _ h.outq }⟩
  · have hw := hd ▸ h.writes
    rw [hc]
    exact ⟨rfl, { h with writes := fun u hu => hw u (List.mem_cons_of_mem _ hu), emitted := happend _ h.emitted }⟩
  · have hw := hd ▸ h.writes
    rw [hc]
    exact ⟨hw a List.mem_cons_self, { h with writes := fun u hu => hw u (List.mem_cons_of_mem _ hu) }⟩

end Sys2Proof.Machine
end

section
/-! PROOFS. The invariant along a step: the four ways a Running machine goes on, and which of them each effect is. -/

namespace Sys2Proof.Machine

/-- The invariant does not depend on what words the channel holds. -/
theorem State.Inv.withChan {s : State} (h : s.Inv) {c : Channel} (hc : ChannelWords s.cfg c) : State.Inv { s with chan := c } :=
  { h with channel := hc }

/-- Entering Fatal keeps the invariant (R204). -/
theorem State.Inv.stop {s : State} (h : s.Inv) {e : FatalEvent} {c : Channel} (he : FitsInfo s.cfg e.info) (hc : ChannelWords s.cfg c) :
    State.Inv { s.enterFatal e with chan := c } :=
  { h with
    causeIffFatal := by simp
    infoZero := fun hs => absurd rfl hs
    infoRange := he
    channel := hc
    interactiveNeverWaits := nofun
    waitsAtInput := nofun
    haltedAtHalt := nofun }

section running
variable {s : State} (h : s.Inv) (hr : s.runState = .running)
include h hr

/-- It runs on, with new contents of memory, LEN, IP, RB and the channel. -/
theorem State.Inv.goOn {mem : Memory} {len ip : Nat} {rb : Int} {c : Channel} (hmem : MemoryOk s.cfg mem len)
    (hip : ∀ w, s.cfg.width = some w → (ip : Int) ≤ wordMax w + 4) (hrb : s.cfg.isWord rb = true) (hc : ChannelWords s.cfg c) :
    State.Inv { s with mem := mem, len := len, ip := ip, rb := rb, chan := c } :=
  { h with
    memory := hmem.canonical
    cellsBelowLen := hmem.belowLen
    cellsAreWords := hmem.words
    lenWithinCap := hmem.withinCap
    ipRange := hip
    rbIsWord := hrb
    channel := hc
    waitsAtInput := fun hs => nomatch hr.symm.trans hs
    haltedAtHalt := fun hs => nomatch hr.symm.trans hs }

/-- It suspends at an INPUT whose destination was resolved, on a channel that may answer Empty (R150, R212). -/
theorem State.Inv.wait {m1 m2 m3 : Mode} {c : Channel} (hk : s.cfg.channelKind ≠ .interactive) (hip : ValidAddr s.cfg s.ip)
    (hd : decode s.instrWord = .ok (.input m1 m2 m3)) (hw : WriteLegal s m1 1) (hc : ChannelWords s.cfg c) :
    State.Inv { s with runState := .awaitingInput, chan := c } :=
  { h with
    causeIffFatal := by simp [h.causeIffFatal, hr]
    infoZero := fun _ => h.infoZero (by simp [hr])
    channel := hc
    interactiveNeverWaits := fun hi => absurd hi hk
    waitsAtInput := fun _ => ⟨hip, m1, m2, m3, hd, hw⟩
    haltedAtHalt := nofun }

/-- It halts at a HALT (R201). -/
theorem State.Inv.halted {m1 m2 m3 : Mode} (hip : ValidAddr s.cfg s.ip) (hd : decode s.instrWord = .ok (.halt m1 m2 m3)) :
    State.Inv { s with runState := .halted } :=
  { h with
    causeIffFatal := by simp [h.causeIffFatal, hr]
    infoZero := fun _ => h.infoZero (by simp [hr])
    interactiveNeverWaits := nofun
    waitsAtInput := nofun
    haltedAtHalt := fun _ => ⟨hip, m1, m2, m3, hd⟩ }

end running

/-- Resuming keeps the invariant (R213). -/
theorem State.Inv.resume {s : State} (h : s.Inv) : s.resume.Inv := by
  by_cases ha : s.runState = .awaitingInput
  · rw [State.resume_of_awaiting s ha]
    exact { h with
      causeIffFatal := by simp [h.causeIffFatal, ha]
      infoZero := fun _ => h.infoZero (by simp [ha])
      interactiveNeverWaits := nofun
      waitsAtInput := nofun
      haltedAtHalt := nofun }
  · rw [State.resume_eq, if_neg ha]
    exact h

theorem State.resume_running {s : State} (h : s.runState = .running ∨ s.runState = .awaitingInput) : s.resume.runState = .running := by
  rw [State.resume_eq]
  rcases h with h | h <;> simp [h]

theorem storedWord_isWord {c : Config} (hc : Config.WidthOk c) {v : Int} (h : c.isWord v = true ∨ v = 0 ∨ v = 1) : c.isWord v = true := by
  rcases h with h | rfl | rfl
  · exact h
  · exact isWord_zero hc
  · exact isWord_one hc

/-- Every effect of the instruction at IP keeps the invariant. -/
theorem Effect.keeps_inv {i : Instr} {s t : State} (he : Effect i s t) (h : s.Inv) (hr : s.runState = .running)
    (hip : ValidAddr s.cfg s.ip) (hd : decode s.instrWord = .ok i) : t.Inv := by
  have hacc : firstFault i s = none → ∀ a ∈ accesses i s, ValidAddr s.cfg a := accesses_valid hip
  cases he with
  | fatal e hf =>
    refine h.stop (h.firstFault_fitsInfo hip (hf.resolve_right ?_)) h.channel
    simp [(decode_eq_ok.1 hd).2.1]
  | store a v _ ha hv hf =>
    exact h.goOn hr (h.memoryOk.store (hacc hf) (storedAddress_mem_accesses ha) (storedWord_isWord h.width hv))
      (advance_inRange hip (by omega)) h.rbIsWord h.channel
  | jump t _ ht hf =>
    refine h.goOn hr (h.memoryOk.access (hacc hf)) ?_ h.rbIsWord h.channel
    intro w hw
    rcases ht with rfl | ⟨m, rfl⟩
    · exact advance_inRange hip (by omega) w hw
    · have := isWord_iff.1 (h.operandValue_isWord m 2) w hw
      have := word_limits h.width hw
      omega
  | base m1 m2 m3 hi hf =>
    refine h.goOn hr (h.memoryOk.access (hacc hf)) (advance_inRange hip (by omega)) ?_ h.channel
    subst hi
    exact isWord_of_overflowFault (executeFault_eq_none_of_firstFault hf)
  | input m1 m2 m3 a v c _ ha hf hc =>
    obtain ⟨hv, hcw⟩ := h.channel.read hc
    exact h.goOn hr (h.memoryOk.store (hacc hf) (storedAddress_mem_accesses ha) hv) (advance_inRange hip (by omega)) h.rbIsWord hcw
  | suspend m1 m2 m3 c hi hm hf hc =>
    subst hi
    refine h.wait hr ?_ hip hd ⟨hm, fun a ha => hacc hf a ?_⟩ (h.channel.read hc).2
    · intro hk
      rcases chanRead_empty hc with ⟨hb, -⟩ | ⟨hb, -⟩ <;> simp [hk] at hb
    · exact List.mem_cons_of_mem _ (List.mem_flatMap.2 ⟨_, List.mem_cons_self, ha⟩)
  | readError m1 m2 m3 e c _ _ hc =>
    obtain ⟨hv, hcw⟩ := h.channel.read hc
    exact h.stop (e := ⟨.deviceError, e⟩) (fitsInfo_of_isWord h.width hv) hcw
  | output m1 m2 m3 c _ hf hc =>
    obtain ⟨-, hcw⟩ := h.channel.write (h.operandValue_isWord m1 1) hc
    exact h.goOn hr (h.memoryOk.access (hacc hf)) (advance_inRange hip (by omega)) h.rbIsWord hcw
  | writeError m1 m2 m3 e c _ _ hc =>
    obtain ⟨hv, hcw⟩ := h.channel.write (h.operandValue_isWord m1 1) hc
    exact h.stop (e := ⟨.deviceError, e⟩) (fitsInfo_of_isWord h.width hv) hcw
  | held => exact h
  | halt m1 m2 m3 hi =>
    subst hi
    exact h.halted hr hip hd

/-- So does a whole step of a Running machine: at the fetch IP is reported, at the decoder the word. -/
theorem StepEffect.keeps_inv {s t : State} (he : StepEffect s t) (h : s.Inv) (hr : s.runState = .running) : t.Inv := by
  cases he with
  | fetchFault _ => exact h.stop (fitsInfo_nat h.width h.ipRange) h.channel
  | illegal e _ _ => exact h.stop (fitsInfo_of_isWord h.width (h.read_isWord _)) h.channel
  | instr i _ hip hd _ he => exact he.keeps_inv h hr hip hd

/-- What the state after a step is: the same one in a terminal state, else an effect of the resumed one. -/
theorem step_next {s t : State} (h : step s = .next t) :
    ((s.runState = .halted ∨ s.runState = .fatal) ∧ t = s) ∨
    ((s.runState = .running ∨ s.runState = .awaitingInput) ∧ StepEffect s.resume t) := by
  rcases step_cases s with ⟨hl, hs⟩ | ⟨hl, u, hs, -, he⟩ <;> rw [h] at hs <;> cases hs
  · exact .inl ⟨hl, rfl⟩
  · exact .inr ⟨hl, he⟩

/-- Settles O40: a terminal machine stays as it is, and a live one is resumed and has one of the effects of a step. -/
theorem everyStepKeepsTheInvariant : Obligations.EveryStepKeepsTheInvariant := by
  intro s t h ht
  rcases step_next ht with ⟨-, rfl⟩ | ⟨hl, he⟩
  · exact h
  · exact he.keeps_inv h.resume (State.resume_running hl)

end Sys2Proof.Machine
end

section
/-! PROOFS. RB and LEN: what a step makes of them, and that an instruction whose operands' addresses are the same does the same whatever they
are (R53, R192). -/

namespace Sys2Proof.Machine

/-! What a step makes of RB and LEN. -/

@[simp] theorem State.resume_instrWord (s : State) : s.resume.instrWord = s.instrWord := by
  rw [State.instrWord, State.resume_mem, State.resume_ip, State.instrWord]

theorem Effect.rb_eq {i : Instr} {s t : State} (h : Effect i s t) (hi : ∀ m1 m2 m3, i ≠ .adjustBase m1 m2 m3) : t.rb = s.rb := by
  cases h with
  | base m1 m2 m3 ha => exact absurd ha (hi m1 m2 m3)
  | fatal | store | jump | input | suspend | readError | output | writeError | held | halt => rfl

theorem exec_keeps_rb {i : Instr} {s t : State} (h : exec i s = .next t) (hi : ∀ m1 m2 m3, i ≠ .adjustBase m1 m2 m3) : t.rb = s.rb := by
  obtain ⟨u, hu, he⟩ := exec_effect i s
  rw [h] at hu
  cases hu
  exact he.rb_eq hi

theorem Effect.len_le {i : Instr} {s t : State} (h : Effect i s t) : s.len ≤ t.len := by
  cases h with
  | store | jump | base | input | output => exact s.le_lenAfter _
  | fatal | suspend | readError | writeError | held | halt => exact Nat.le_refl _

/-- No step makes memory shorter (R25, R47). -/
theorem step_len_le {s t : State} (h : step s = .next t) : s.len ≤ t.len := by
  rcases step_next h with ⟨-, rfl⟩ | ⟨-, he⟩
  · exact Nat.le_refl _
  · rw [← State.resume_len s]
    cases he with
    | fetchFault _ => exact Nat.le_refl _
    | illegal _ _ _ => exact Nat.le_refl _
    | instr _ _ _ _ _ he => exact he.len_le

/-- What every step keeps, any number of steps keep. -/
theorem core_run_keeps {P : State → Prop} (hP : ∀ {s t}, P s → step s = .next t → P t) (n : Nat) :
    ∀ {s t : State}, P s → Host.Core.run Sys2Proof.core n s = .next t → P t := by
  induction n with
  | zero =>
    intro s t hs h
    cases h
    exact hs
  | succ n ih =>
    intro s t hs h
    obtain ⟨u, hu⟩ : ∃ u, step s = .next u := by
      rcases step_cases s with ⟨-, h⟩ | ⟨-, u, h, -⟩
      · exact ⟨s, h⟩
      · exact ⟨u, h⟩
    rw [core_run_succ n hu] at h
    exact ih (hP hs hu) h

/-- Settles O30, by induction on the steps: none shortens memory, and none changes the parameters. -/
theorem lenNeverDecreases : Obligations.LenNeverDecreases := by
  intro n s t
  refine core_run_keeps (P := fun u => s.len ≤ u.len ∧ u.cfg = s.cfg) ?_ n ⟨Nat.le_refl _, rfl⟩
  intro u v ⟨hlen, hcfg⟩ h
  exact ⟨hlen.trans (step_len_le h), (step_keeps_cfg h).trans hcfg⟩

/-! A state with another RB and LEN. -/

/-- `s` with relative base `r` and memory length `n`. -/
def State.withRbLen (r : Int) (n : Nat) (s : State) : State := { s with rb := r, len := n }

section withRbLen
variable (r : Int) (n : Nat) (s : State)
@[simp] theorem State.withRbLen_cfg : (s.withRbLen r n).cfg = s.cfg := rfl
@[simp] theorem State.withRbLen_ip : (s.withRbLen r n).ip = s.ip := rfl
@[simp] theorem State.withRbLen_chan : (s.withRbLen r n).chan = s.chan := rfl
@[simp] theorem wordResult_withRbLen (v : Int) : wordResult (s.withRbLen r n) v = wordResult s v := rfl
theorem State.withRbLen_grow (as : List Int) : (s.withRbLen r n).grow as = (s.grow as).withRbLen r ((s.withRbLen r n).lenAfter as) := rfl
end withRbLen

/-- Growth of LEN starts from LEN alone. -/
theorem State.lenAfter_congr {s t : State} (h : t.len = s.len) (as : List Int) : t.lenAfter as = s.lenAfter as := by
  unfold State.lenAfter
  rw [h]

/-- The outcomes `o` and `o'` of one instruction from two states, with LEN `n` and `n'` and in the second RB `r`: next states that are the same but
that the second has RB `r`, and perhaps another LEN if they began with another. -/
def SameButRbLen (r : Int) (n n' : Nat) (o o' : Host.Outcome State Fault Refusal) : Prop :=
  ∃ t l, o = .next t ∧ o' = .next (t.withRbLen r l) ∧ (n' = n → l = t.len)

/-- A step that keeps LEN. -/
theorem sameButRbLen_of_len_eq (r : Int) (n' : Nat) {s t : State} (ht : t.len = s.len) :
    SameButRbLen r s.len n' (.next t) (.next (t.withRbLen r n')) :=
  ⟨t, n', rfl, rfl, fun h => h.trans ht.symm⟩

/-- A step that grows LEN by accesses at the same addresses. -/
theorem sameButRbLen_of_lenAfter (r : Int) (n' : Nat) {s t : State} {as : List Int} (ht : t.len = s.lenAfter as) :
    SameButRbLen r s.len n' (.next t) (.next (t.withRbLen r ((s.withRbLen r n').lenAfter as))) :=
  ⟨t, _, rfl, rfl, fun h => (State.lenAfter_congr h as).trans ht.symm⟩

/-- RB has no part in an address that is not Relative (R114). -/
theorem operandAddress_of_not_relative {m : Mode} (h : m ≠ .relative) {k : Nat} (r : Int) (s : State) :
    (s.withRbLen r s.len).operandAddress m k = s.operandAddress m k := by
  cases m with
  | position => rfl
  | immediate => rfl
  | relative => exact absurd rfl h

section operands
variable {r : Int} {n : Nat} {s : State} {m : Mode} {k : Nat} (h : (s.withRbLen r n).operandAddress m k = s.operandAddress m k)
include h

theorem operandAccesses_withRbLen : (s.withRbLen r n).operandAccesses m k = s.operandAccesses m k := by
  unfold State.operandAccesses
  rw [h]
  rfl

theorem operandValue_withRbLen : (s.withRbLen r n).operandValue m k = s.operandValue m k := by
  unfold State.operandValue
  rw [h]
  rfl

theorem destination_withRbLen : (s.withRbLen r n).destination m k = s.destination m k := by
  unfold State.destination
  rw [h]

end operands

/-! Instructions whose operands' addresses are the same under both. -/

section sameAddresses
variable {r : Int} {n : Nat} {s : State} {m1 m2 m3 : Mode} (h1 : (s.withRbLen r n).operandAddress m1 1 = s.operandAddress m1 1)
include h1

theorem execOutput_withRbLen : SameButRbLen r s.len n (execOutput m1 s) (execOutput m1 (s.withRbLen r n)) := by
  rw [execOutput_eq, execOutput_eq, operandAccesses_withRbLen h1, operandValue_withRbLen h1, State.withRbLen_cfg]
  cases accessFault s.cfg (s.operandAccesses m1 1) with
  | some e => exact sameButRbLen_of_len_eq r n rfl
  | none =>
    simp only [outputWord, State.withRbLen_cfg, State.withRbLen_chan]
    cases chanWrite s.cfg (s.operandValue m1 1) s.chan with
    | none => exact sameButRbLen_of_len_eq r n rfl
    | some p =>
      obtain ⟨a, c⟩ := p
      cases a with
      | ok => exact sameButRbLen_of_lenAfter r n rfl
      | error e => exact sameButRbLen_of_len_eq r n rfl

theorem execInput_withRbLen : SameButRbLen r s.len n (execInput m1 s) (execInput m1 (s.withRbLen r n)) := by
  by_cases hm : m1 = .immediate
  · subst hm
    rw [execInput_immediate, execInput_immediate]
    exact sameButRbLen_of_len_eq r n rfl
  · rw [execInput_eq hm, execInput_eq hm, operandAccesses_withRbLen h1, State.withRbLen_cfg]
    cases accessFault s.cfg (s.operandAccesses m1 1) with
    | some e => exact sameButRbLen_of_len_eq r n rfl
    | none =>
      cases hc : chanRead s.cfg.channelKind s.chan with
      | none =>
        simp only [inputTo, State.withRbLen_cfg, State.withRbLen_chan, hc]
        exact sameButRbLen_of_len_eq r n rfl
      | some p =>
        obtain ⟨a, c⟩ := p
        cases a with
        | value v =>
          rw [inputTo_value hm hc, inputTo_value hm (s := s.withRbLen r n) hc, destination_withRbLen h1, operandAccesses_withRbLen h1]
          exact sameButRbLen_of_lenAfter r n rfl
        | empty =>
          simp only [inputTo, State.withRbLen_cfg, State.withRbLen_chan, hc]
          exact sameButRbLen_of_len_eq r n rfl
        | error e =>
          simp only [inputTo, State.withRbLen_cfg, State.withRbLen_chan, hc]
          exact sameButRbLen_of_len_eq r n rfl

variable (h2 : (s.withRbLen r n).operandAddress m2 2 = s.operandAddress m2 2)
include h2

/-- The two jumps. -/
theorem commit_readReadJump_withRbLen (cond : Int → Bool) :
    SameButRbLen r s.len n (commit s (readReadJump cond m1 m2 s))
      (commit (s.withRbLen r n) (readReadJump cond m1 m2 (s.withRbLen r n))) := by
  rw [readReadJump_eq, readReadJump_eq, operandAccesses_withRbLen h1, operandAccesses_withRbLen h2, operandValue_withRbLen h1,
    operandValue_withRbLen h2, State.withRbLen_cfg]
  cases accessFault s.cfg (s.operandAccesses m1 1 ++ s.operandAccesses m2 2) with
  | some e => exact sameButRbLen_of_len_eq r n rfl
  | none =>
    dsimp only
    split
    · exact sameButRbLen_of_len_eq r n rfl
    · exact sameButRbLen_of_lenAfter r n rfl

variable (h3 : (s.withRbLen r n).operandAddress m3 3 = s.operandAddress m3 3)
include h3

/-- The four storing instructions, whose result depends on neither. -/
theorem commit_readReadWrite_withRbLen {f : State → Int → Int → Except FatalEvent Int}
    (hf : ∀ (t : State) l a b, f (t.withRbLen r l) a b = f t a b) :
    SameButRbLen r s.len n (commit s (readReadWrite f m1 m2 m3 s))
      (commit (s.withRbLen r n) (readReadWrite f m1 m2 m3 (s.withRbLen r n))) := by
  by_cases hm : m3 = .immediate
  · subst hm
    rw [readReadWrite_immediate, readReadWrite_immediate, operandAccesses_withRbLen h1, operandAccesses_withRbLen h2]
    exact sameButRbLen_of_len_eq r n rfl
  · rw [readReadWrite_eq f m1 m2 hm, readReadWrite_eq f m1 m2 hm, State.withRbLen_grow, hf, operandAccesses_withRbLen h1,
      operandAccesses_withRbLen h2, operandAccesses_withRbLen h3, operandValue_withRbLen h1, operandValue_withRbLen h2,
      destination_withRbLen h3, State.withRbLen_cfg]
    cases accessFault s.cfg (s.operandAccesses m1 1 ++ (s.operandAccesses m2 2 ++ s.operandAccesses m3 3)) with
    | some e => exact sameButRbLen_of_len_eq r n rfl
    | none =>
      dsimp only [State.withRbLen_ip]
      cases f _ (s.operandValue m1 1) (s.operandValue m2 2) with
      | error e => exact sameButRbLen_of_len_eq r n rfl
      | ok v => exact sameButRbLen_of_lenAfter r n rfl

end sameAddresses

/-- An instruction other than ADJUST-BASE does the same under any RB and LEN that leave its operands' addresses the same. -/
theorem exec_withRbLen {i : Instr} {r : Int} {n : Nat} {s : State} (hi : ∀ m1 m2 m3, i ≠ .adjustBase m1 m2 m3)
    (h : ∀ p ∈ Instr.operands i, (s.withRbLen r n).operandAddress p.1 p.2 = s.operandAddress p.1 p.2) :
    SameButRbLen r s.len n (exec i s) (exec i (s.withRbLen r n)) := by
  cases i with
  | add m1 m2 m3 | mul m1 m2 m3 =>
    exact commit_readReadWrite_withRbLen (h _ (.head _)) (h _ (.tail _ (.head _)))
      (h _ (.tail _ (.tail _ (.head _)))) fun t l a b => wordResult_withRbLen r l t _
  | lessThan m1 m2 m3 | equals m1 m2 m3 =>
    exact commit_readReadWrite_withRbLen (h _ (.head _)) (h _ (.tail _ (.head _)))
      (h _ (.tail _ (.tail _ (.head _)))) fun _ _ _ _ => rfl
  | jumpIfTrue m1 m2 m3 => exact commit_readReadJump_withRbLen (h _ (.head _)) (h _ (.tail _ (.head _))) testNonZero
  | jumpIfFalse m1 m2 m3 => exact commit_readReadJump_withRbLen (h _ (.head _)) (h _ (.tail _ (.head _))) testZero
  | input m1 m2 m3 => exact execInput_withRbLen (h _ (.head _))
  | output m1 m2 m3 => exact execOutput_withRbLen (h _ (.head _))
  | adjustBase m1 m2 m3 => exact absurd rfl (hi m1 m2 m3)
  | halt m1 m2 m3 => exact sameButRbLen_of_len_eq r n rfl

/-! Relative mode reads RB (R114), and nothing reads LEN (R53). -/

/-- Settles O28: of the effects of a step only ADJUST-BASE's writes RB; and without a Relative operand RB has no part in an address. -/
theorem rbIsReadOnlyByRelativeMode : Obligations.RbIsReadOnlyByRelativeMode := by
  refine ⟨fun s t h hne => ?_, fun s i r hi hp => ?_⟩
  · rcases step_next h with ⟨-, rfl⟩ | ⟨-, he⟩
    · exact absurd rfl hne
    · rw [← State.resume_rb s] at hne
      rw [← State.resume_instrWord s]
      cases he with
      | fetchFault _ => exact absurd rfl hne
      | illegal _ _ _ => exact absurd rfl hne
      | instr i _ _ hd _ he =>
        rw [hd]
        by_contra hno
        exact hne (he.rb_eq fun m1 m2 m3 hi => hno ⟨m1, m2, m3, congrArg _ hi⟩)
  · obtain ⟨t, l, ht, ht', hl⟩ := exec_withRbLen (r := r) (n := s.len) hi fun p hm => operandAddress_of_not_relative (hp p hm) r s
    refine ⟨t, ht, ?_⟩
    rw [hl rfl] at ht'
    exact ht'

/-- `s` with memory length `n`. -/
def State.withLen (n : Nat) (s : State) : State := { s with len := n }

section withLen
variable (n : Nat) (s : State)
@[simp] theorem State.withLen_cfg : (s.withLen n).cfg = s.cfg := rfl
@[simp] theorem State.withLen_rb : (s.withLen n).rb = s.rb := rfl
@[simp] theorem State.withLen_operandValue (m : Mode) (k : Nat) : (s.withLen n).operandValue m k = s.operandValue m k := rfl
@[simp] theorem State.withLen_operandAccesses (m : Mode) (k : Nat) : (s.withLen n).operandAccesses m k = s.operandAccesses m k := rfl
@[simp] theorem overflowFault_withLen (v : Int) : overflowFault (s.withLen n) v = overflowFault s v := rfl
@[simp] theorem fetchWord_withLen : fetchWord (s.withLen n) = fetchWord s := rfl
theorem State.withLen_resume : (s.withLen n).resume = s.resume.withLen n := by
  rw [State.resume_eq, State.resume_eq]
  rfl
end withLen

/-- Two outcomes that are next states and differ in LEN only. -/
def SameButLen (o o' : Host.Outcome State Fault Refusal) : Prop := ∃ t l, o = .next t ∧ o' = .next (t.withLen l)

theorem execAdjustBase_withLen (m1 : Mode) (n : Nat) (s : State) : SameButLen (execAdjustBase m1 s) (execAdjustBase m1 (s.withLen n)) := by
  rw [execAdjustBase_eq, execAdjustBase_eq]
  simp only [State.withLen_cfg, State.withLen_rb, State.withLen_operandValue, State.withLen_operandAccesses, overflowFault_withLen]
  cases accessFault s.cfg (s.operandAccesses m1 1) with
  | some e => exact ⟨_, _, rfl, rfl⟩
  | none =>
    cases overflowFault s (s.rb + s.operandValue m1 1) with
    | some e => exact ⟨_, _, rfl, rfl⟩
    | none => exact ⟨_, _, rfl, rfl⟩

/-- Every instruction does the same whatever LEN is. -/
theorem exec_withLen (i : Instr) (n : Nat) (s : State) : SameButLen (exec i s) (exec i (s.withLen n)) := by
  by_cases hi : ∃ m1 m2 m3, i = .adjustBase m1 m2 m3
  · obtain ⟨m1, m2, m3, rfl⟩ := hi
    exact execAdjustBase_withLen m1 n s
  · have hi' : ∀ m1 m2 m3, i ≠ .adjustBase m1 m2 m3 := fun m1 m2 m3 h => hi ⟨m1, m2, m3, h⟩
    obtain ⟨t, l, ht, ht', -⟩ := exec_withRbLen (r := s.rb) (n := n) hi' fun _ _ => rfl
    have hl : t.withRbLen s.rb l = t.withLen l := by rw [← exec_keeps_rb ht hi']; rfl
    exact ⟨t, l, ht, hl ▸ ht'⟩

/-- So does a step of a Running machine: neither the fetch nor the decoder looks at LEN. -/
theorem stepRunning_withLen (n : Nat) (s : State) : SameButLen (stepRunning s) (stepRunning (s.withLen n)) := by
  unfold stepRunning
  rw [fetchWord_withLen]
  cases fetchWord s with
  | error e => exact ⟨_, _, rfl, rfl⟩
  | ok w =>
    dsimp only
    cases decode w with
    | error e => exact ⟨_, _, rfl, rfl⟩
    | ok i => exact exec_withLen i n s

theorem step_withLen (n : Nat) (s : State) : SameButLen (step s) (step (s.withLen n)) := by
  rcases step_cases s with ⟨hs, ht⟩ | ⟨hs, -⟩
  · exact ⟨s, n, ht, step_of_terminal (s := s.withLen n) hs⟩
  · rw [step_of_live hs, step_of_live (s := s.withLen n) hs, State.withLen_resume]
    exact stepRunning_withLen n s.resume

/-- Settles O29: a step from another LEN answers the same state with another LEN. -/
theorem lenIsInvisibleToTheProgram : Obligations.LenIsInvisibleToTheProgram := by
  intro s n
  obtain ⟨t, l, ht, ht'⟩ := step_withLen n s
  exact ⟨t, t.withLen l, ht, ht', rfl⟩

end Sys2Proof.Machine
end

section
/-! PROOFS. A canonical memory is what it reads; the reset state; what ReadState shows. -/

namespace Sys2Proof.Machine

/-! The canonical form (R24). -/

namespace Memory

theorem wfFrom_cons {low b : Nat} {u : Int} {rest : Memory} :
    wfFrom low ((b, u) :: rest) = true ↔ low ≤ b ∧ u ≠ 0 ∧ wfFrom (b + 1) rest = true := by
  simp only [wfFrom, Bool.and_eq_true, decide_eq_true_eq, and_assoc]

@[simp] theorem read_cons_self (b : Nat) (u : Int) (rest : Memory) : read ((b, u) :: rest) b = u := by
  simp [read]

/-- The first listed address is the least one that reads anything but 0. -/
theorem head_le_of_read_ne_zero {low a b : Nat} {u : Int} {rest : Memory} (h : wfFrom low ((b, u) :: rest) = true)
    (ha : read ((b, u) :: rest) a ≠ 0) : b ≤ a := by
  obtain ⟨-, hu, hrest⟩ := wfFrom_cons.1 h
  by_contra hlt
  exact ha (read_of_lt_low (wfFrom_cons.2 ⟨Nat.le_refl b, hu, hrest⟩) (by omega))

/-- The rest of a canonical memory reads what the whole does, but 0 at the first listed address. -/
theorem read_rest {low b : Nat} {u : Int} {rest : Memory} (h : wfFrom low ((b, u) :: rest) = true) (a : Nat) :
    rest.read a = if a = b then 0 else read ((b, u) :: rest) a := by
  by_cases hab : a = b
  · rw [if_pos hab]
    exact read_of_lt_low (wfFrom_cons.1 h).2.2 (by omega)
  · simp [read, hab]

/-- Canonical memories that read alike have the same first cell, and their rests read alike. -/
theorem eq_of_read_eq {m m' : Memory} {low low' : Nat} (h : wfFrom low m = true) (h' : wfFrom low' m' = true)
    (hread : ∀ a, m.read a = m'.read a) : m = m' := by
  induction m generalizing low low' m' with
  | nil =>
    cases m' with
    | nil => rfl
    | cons q rest' => exact absurd ((read_cons_self q.1 q.2 rest').symm.trans (hread q.1).symm) (wfFrom_cons.1 h').2.1
  | cons p rest ih =>
    obtain ⟨b, u⟩ := p
    obtain ⟨-, hu, hrest⟩ := wfFrom_cons.1 h
    have hb := hread b
    rw [read_cons_self] at hb
    cases m' with
    | nil => exact absurd hb hu
    | cons q rest' =>
      obtain ⟨c, v⟩ := q
      obtain ⟨-, hv, hrest'⟩ := wfFrom_cons.1 h'
      have hc := hread c
      rw [read_cons_self] at hc
      obtain rfl : b = c := Nat.le_antisymm (head_le_of_read_ne_zero h (hc ▸ hv)) (head_le_of_read_ne_zero h' (hb ▸ hu))
      rw [read_cons_self] at hb
      rw [hb, ih hrest hrest' fun a => by rw [read_rest h, read_rest h', hread]]

end Memory

/-- Settles O43, by induction on the two lists of cells. -/
theorem memoriesThatReadAlikeAreEqual : Obligations.MemoriesThatReadAlikeAreEqual :=
  fun _ _ h h' hread => Memory.eq_of_read_eq h h' hread

/-! Reset and ReadState (R240, R246). -/

/-- Settles O39: nothing is loaded, every register is 0 and every list is empty. -/
theorem resetMeetsTheInvariant : Obligations.ResetMeetsTheInvariant where
  width := by rintro w ⟨⟩; decide
  memory := Memory.wf_nil
  cellsBelowLen := nofun
  cellsAreWords := nofun
  lenWithinCap n _ := Nat.zero_le n
  ipRange := by rintro w ⟨⟩; decide
  rbIsWord := by decide
  causeIffFatal := by decide
  infoZero _ := rfl
  infoRange := by rintro w ⟨⟩; decide
  channel := ⟨nofun, nofun, nofun, nofun, nofun, nofun⟩
  interactiveNeverWaits := nofun
  waitsAtInput := nofun
  haltedAtHalt := nofun

/-- ReadState of one cell (R42, R246). -/
theorem readCell_of_valid {s : State} {a : Int} (h : ValidAddr s.cfg a) : readCell s a = some (s.mem.read a.toNat) := by
  rw [readCell, checkAddr_of_valid h]

theorem readCell_of_not_valid {s : State} {a : Int} (h : ¬ ValidAddr s.cfg a) : readCell s a = none := by
  rw [readCell, checkAddr_eq]
  cases ha : addrFault s.cfg a with
  | none => exact absurd (addrFault_eq_none.1 ha) h
  | some e => rfl

/-- ReadState lists the cells below LEN in order (R246). -/
theorem readState_cells_getElem? (s : State) {a : Nat} (h : a < s.len) : (readState s).cells[a]? = some (s.mem.read a) := by
  simp [readState, h]

/-- Settles O49: the codes by evaluation, ReadState field by field, and one cell through the range check. -/
theorem statusRegistersReadAsTheirCodes : Obligations.StatusRegistersReadAsTheirCodes := by
  refine ⟨⟨rfl, rfl, rfl, rfl⟩, rfl, fun s => ⟨rfl, rfl, rfl, rfl, rfl, rfl, ?_, fun a => readState_cells_getElem? s⟩,
    fun s a => ⟨readCell_of_valid, readCell_of_not_valid⟩⟩
  simp [readState]

end Sys2Proof.Machine
end

section
/-! PROOFS. Networks (R34, R152): what the host builds, and what a step of one member leaves alone. -/

namespace Sys2Proof.Machine

namespace Network

theorem build_cases {members : List Member} {queues : List (List Int)} {concurrent : Bool} {n : Network}
    (h : Network.build members queues concurrent = .ok n) : n.members = members ∧ n.accepted = true ∧ n.queuesAreWords = true := by
  unfold Network.build at h
  dsimp only at h
  split at h
  · cases h
  · split at h
    · cases h
    · rename_i ha hq
      cases h
      exact ⟨rfl, by simpa using ha, by simpa using hq⟩

/-- The queues a member is wired to hold words of its width (R155). -/
theorem queue_isWord {n : Network} (h : n.queuesAreWords = true) {m : Member} (hm : m ∈ n.members) {w : Wiring} (hw : m.wiring = some w) :
    (∀ v ∈ n.queue w.inQueue, m.vm.cfg.isWord v = true) ∧ ∀ v ∈ n.queue w.outQueue, m.vm.cfg.isWord v = true := by
  have := List.all_eq_true.1 h m hm
  simpa only [hw, Bool.and_eq_true, List.all_eq_true] using this

/-- A machine meets the invariant with its queues in place if it does alone and the queues hold words. -/
theorem attach_inv {n : Network} {m : Member} (h : m.vm.Inv) (hq : n.queuesAreWords = true) (hm : m ∈ n.members) : (n.attach m).Inv := by
  cases hw : m.wiring with
  | none => rw [attach_of_lone n hw]; exact h
  | some w =>
    obtain ⟨hin, hout⟩ := queue_isWord hq hm hw
    rw [attach_of_wired n hw]
    exact h.withChan { h.channel with inq := hin, outq := hout }

/-- A step of a member replaces no queue but the two it is wired to (R152). -/
theorem queue_detach_of_ne {n : Network} {i k : Nat} {m : Member} (t : State)
    (hk : ∀ w, m.wiring = some w → k ≠ w.inQueue ∧ k ≠ w.outQueue) : (n.detach i m t).queue k = n.queue k := by
  unfold Network.queue
  cases hw : m.wiring with
  | none => rw [detach_queues_of_lone n hw]
  | some w =>
    obtain ⟨hin, hout⟩ := hk w hw
    rw [detach_queues_of_wired n hw]
    simp [Network.queuesAfter, List.getD, Ne.symm hin, Ne.symm hout]

end Network

/-- Settles O55: an accepted wiring and words in every wired queue are what `Network.build` asks. -/
theorem builtNetworksMeetTheInvariant : Obligations.BuiltNetworksMeetTheInvariant := by
  intro members queues concurrent n hinv hb
  obtain ⟨hmem, hacc, hq⟩ := Network.build_cases hb
  subst hmem
  exact ⟨hacc, fun m hm => Network.attach_inv (hinv m hm) hq hm⟩

/-- Settles O51: a step of member `i` puts the state its machine reached in the place of the old one, and its two queues back. -/
theorem instancesShareOnlyQueues : Obligations.InstancesShareOnlyQueues := by
  refine fun n i => ⟨fun hacc hi => ⟨n.stepMember i, by simp [Network.step, Network.admits, hacc, hi]⟩, fun n' h => ?_⟩
  obtain ⟨-, m, hm, rfl⟩ := Network.step_cases h
  obtain ⟨t, ht, hd⟩ := Network.stepMember_cases hm
  rw [hd, Network.detach_members]
  refine ⟨fun j hj => List.getElem?_set_ne hj.symm, fun k hk => Network.queue_detach_of_ne t fun w => hk m w hm, fun m' hm' => ⟨m, hm, ?_⟩,
    Network.detach_queues_length n i m t, Network.detach_concurrent n i m t⟩
  rw [List.getElem?_set_self (List.getElem?_eq_some_iff.1 hm).1] at hm'
  cases hm'
  exact ⟨rfl, by rw [Network.stepped_cfg, step_keeps_cfg ht, Network.attach_cfg]⟩

end Sys2Proof.Machine
end

section
/-! PROOFS. The access primitives (R43, R44) through the range check, and what the host's commands and the environment's answers make of a machine
(R155, R156, R246). -/

namespace Sys2Proof.Machine

/-! The range check's cases, and the cells beyond memory. -/

theorem addrFault_of_neg {c : Config} {a : Int} (h : a < 0) : addrFault c a = some ⟨.negativeAddress, a⟩ := by
  rw [addrFault, if_neg (fun hv : ValidAddr c a => by have := hv.1; omega), if_pos h]

theorem addrFault_of_cap_le {c : Config} {a : Int} {cap : Nat} (hc : c.cap = some cap) (h : cap ≤ a) :
    addrFault c a = some ⟨.capacityExceeded, a⟩ := by
  rw [addrFault, if_neg (fun hv : ValidAddr c a => by have := validAddr_lt_cap hv hc; omega), if_neg (by omega)]

/-- The valid addresses are those from 0 up to the capacity, if there is one (R42). -/
theorem validAddr_iff {c : Config} {a : Int} : ValidAddr c a ↔ 0 ≤ a ∧ ∀ cap : Nat, c.cap = some cap → a < cap := by
  refine and_congr_right fun h0 => ?_
  cases c.cap with
  | none => simp [below]
  | some n =>
    simp only [below, decide_eq_true_eq, Option.some.injEq, forall_eq']
    omega

/-- MemRead and the write check raise the same condition (R45, R46). -/
theorem access_of_addrFault {s : State} {a : Int} {e : FatalEvent} (h : addrFault s.cfg a = some e) :
    memRead a s = .error e ∧ checkAddr s.cfg a = .error e := by
  rw [memRead_eq, checkAddr_eq, h]
  exact ⟨rfl, rfl⟩

/-- No cell at or above LEN is listed, so each reads 0 (R24). -/
theorem State.Inv.read_of_len_le {s : State} (h : s.Inv) {b : Nat} (hb : s.len ≤ b) : s.mem.read b = 0 := by
  by_contra hne
  have : b < s.len := h.cellsBelowLen _ (Memory.mem_of_read_ne_zero hne)
  omega

/-- Settles O13: the range check by its three cases, and the laws of a write to canonical memory. -/
theorem memoryAccessesReadStoreAndGrow : Obligations.MemoryAccessesReadStoreAndGrow := by
  refine fun s a => ⟨fun h => access_of_addrFault (addrFault_of_neg h), fun cap hc h => access_of_addrFault (addrFault_of_cap_le hc h),
    fun h b => h.read_of_len_le, fun h0 hcap => ?_⟩
  have hv : ValidAddr s.cfg a := validAddr_iff.2 ⟨h0, hcap⟩
  refine ⟨by rw [memRead_eq, addrFault_eq_none.2 hv]; rfl, checkAddr_of_valid hv, fun hm v => ⟨?_, ?_, fun b hb => ?_, rfl⟩⟩
  · exact Memory.read_write_self _ v hm
  · exact Memory.wf_write _ v hm
  · exact Memory.read_write_of_ne v hb

/-! The environment's answers arriving: each is added after the ones already there, and nothing else changes (R150, R153). -/

theorem supplyPrompt_cases {v : Int} {s t : State} (h : supplyPrompt v s = some t) :
    s.cfg.isWord v = true ∧ t = { s with chan := { s.chan with prompt := s.chan.prompt ++ [v] } } := by
  unfold supplyPrompt at h
  split at h
  · rename_i hc
    cases h
    exact ⟨hc.2, rfl⟩
  · cases h

theorem supplyDeviceRead_cases {a : ReadAnswer} {s t : State} (h : supplyDeviceRead a s = some t) :
    readAnswerOk s.cfg a = true ∧ t = { s with chan := { s.chan with deviceReads := s.chan.deviceReads ++ [a] } } := by
  unfold supplyDeviceRead at h
  split at h
  · rename_i hc
    cases h
    exact ⟨hc.2, rfl⟩
  · cases h

theorem supplyDeviceWrite_cases {a : WriteAnswer} {s t : State} (h : supplyDeviceWrite a s = some t) :
    writeAnswerOk s.cfg a = true ∧ t = { s with chan := { s.chan with deviceWrites := s.chan.deviceWrites ++ [a] } } := by
  unfold supplyDeviceWrite at h
  split at h
  · rename_i hc
    cases h
    exact ⟨hc.2, rfl⟩
  · cases h

/-- What holds of every value waiting, and of the one that arrives, holds of every value then waiting. -/
theorem forall_mem_arrived {α : Type} {p : α → Prop} {l : List α} {a : α} (hl : ∀ x ∈ l, p x) (ha : p a) : ∀ x ∈ l ++ [a], p x :=
  List.forall_mem_append.2 ⟨hl, List.forall_mem_singleton.2 ha⟩

theorem State.Inv.appendInput {s t : State} {v : Int} (h : s.Inv) (ht : Machine.appendInput v s = some t) : t.Inv := by
  obtain ⟨-, hv, rfl⟩ := appendInput_cases ht
  exact h.withChan { h.channel with inq := forall_mem_arrived h.channel.inq hv }

theorem State.Inv.takeOutput {s t : State} {v : Int} (h : s.Inv) (ht : Machine.takeOutput s = .taken v t) : t.Inv := by
  obtain ⟨-, hq, hs⟩ := takeOutput_cases ht
  rw [hs]
  exact h.withChan { h.channel with outq := fun u hu => h.channel.outq u (hq ▸ List.mem_cons_of_mem v hu) }

theorem State.Inv.supplyPrompt {s t : State} {v : Int} (h : s.Inv) (ht : Machine.supplyPrompt v s = some t) : t.Inv := by
  obtain ⟨hv, rfl⟩ := supplyPrompt_cases ht
  exact h.withChan { h.channel with prompt := forall_mem_arrived h.channel.prompt hv }

theorem State.Inv.supplyDeviceRead {s t : State} {a : ReadAnswer} (h : s.Inv) (ht : Machine.supplyDeviceRead a s = some t) : t.Inv := by
  obtain ⟨ha, rfl⟩ := supplyDeviceRead_cases ht
  exact h.withChan { h.channel with reads := forall_mem_arrived h.channel.reads ha }

theorem State.Inv.supplyDeviceWrite {s t : State} {a : WriteAnswer} (h : s.Inv) (ht : Machine.supplyDeviceWrite a s = some t) : t.Inv := by
  obtain ⟨ha, rfl⟩ := supplyDeviceWrite_cases ht
  exact h.withChan { h.channel with writes := forall_mem_arrived h.channel.writes ha }

/-- Settles O42: a command or an answer only adds a word to a list of the channel or takes one away, and resuming is `State.Inv.resume`. -/
theorem hostCommandsKeepTheInvariant : Obligations.HostCommandsKeepTheInvariant :=
  fun _ _ h => ⟨fun _ => h.appendInput, fun _ => h.takeOutput, fun _ => h.supplyPrompt, fun _ => h.supplyDeviceRead,
    fun _ => h.supplyDeviceWrite, fun ht => ht ▸ h.resume⟩

end Sys2Proof.Machine
end

section
/-! PROOFS. The order of the queues (R58, R151, R157): a step takes at most one value from the front of one list and adds at most one at the end of
another; so along any run, and in a network for the queues a member is wired to (R59, R152). -/

namespace Sys2Proof.Machine

/-! Queues that lose values at the front or gain some at the end. -/

/-- `q'` is `q` less at most `n` values from the front. -/
def TakenFrom (n : Nat) (q q' : List Int) : Prop := ∃ k, q' = q.drop k ∧ k ≤ n

/-- `q'` is `q` with at most `n` values after it. -/
def AddedTo (n : Nat) (q q' : List Int) : Prop := ∃ ws, q' = q ++ ws ∧ ws.length ≤ n

section lists
variable {m n : Nat} {q q' q'' : List Int}

theorem TakenFrom.refl (n : Nat) (q : List Int) : TakenFrom n q q := ⟨0, rfl, Nat.zero_le n⟩

theorem TakenFrom.head {v : Int} (h : q = v :: q') : TakenFrom 1 q q' := ⟨1, by rw [h]; rfl, Nat.le_refl 1⟩

theorem TakenFrom.trans (h : TakenFrom m q q') (h' : TakenFrom n q' q'') : TakenFrom (m + n) q q'' := by
  obtain ⟨j, rfl, hj⟩ := h
  obtain ⟨k, rfl, hk⟩ := h'
  exact ⟨j + k, List.drop_drop, Nat.add_le_add hj hk⟩

theorem AddedTo.refl (n : Nat) (q : List Int) : AddedTo n q q := ⟨[], (List.append_nil q).symm, Nat.zero_le n⟩

theorem AddedTo.last (q : List Int) (v : Int) : AddedTo 1 q (q ++ [v]) := ⟨[v], rfl, Nat.le_refl 1⟩

theorem AddedTo.trans (h : AddedTo m q q') (h' : AddedTo n q' q'') : AddedTo (m + n) q q'' := by
  obtain ⟨vs, rfl, hv⟩ := h
  obtain ⟨ws, rfl, hw⟩ := h'
  exact ⟨vs ++ ws, List.append_assoc q vs ws, by rw [List.length_append]; exact Nat.add_le_add hv hw⟩

end lists

/-- Channel `c'` is `c` after at most `n` values were read from each list of values to come and at most `n` written to each list of values
output. -/
structure QueuesMoved (n : Nat) (c c' : Channel) : Prop where
  inq : TakenFrom n c.inq c'.inq
  prompt : TakenFrom n c.prompt c'.prompt
  outq : AddedTo n c.outq c'.outq
  emitted : AddedTo n c.emitted c'.emitted

theorem QueuesMoved.refl (n : Nat) (c : Channel) : QueuesMoved n c c := ⟨.refl n _, .refl n _, .refl n _, .refl n _⟩

theorem QueuesMoved.trans {m n : Nat} {c c' c'' : Channel} (h : QueuesMoved m c c') (h' : QueuesMoved n c' c'') :
    QueuesMoved (m + n) c c'' :=
  ⟨h.inq.trans h'.inq, h.prompt.trans h'.prompt, h.outq.trans h'.outq, h.emitted.trans h'.emitted⟩

/-! One transaction, one step, any number of steps. -/

theorem chanRead_queuesMoved {k : ChannelKind} {c c' : Channel} {a : ReadAnswer} (h : chanRead k c = some (a, c')) :
    QueuesMoved 1 c c' := by
  rcases chanRead_cases h with ⟨-, v, -, hp, hc⟩ | ⟨-, -, -, rfl⟩ | ⟨-, v, -, hq, hc⟩ | ⟨-, -, hc⟩
  · rw [hc]
    exact { QueuesMoved.refl 1 c with prompt := .head hp }
  · exact .refl 1 c'
  · rw [hc]
    exact { QueuesMoved.refl 1 c with inq := .head hq }
  · rw [hc]
    exact { QueuesMoved.refl 1 c with }

theorem chanWrite_queuesMoved {cfg : Config} {v : Int} {c c' : Channel} {a : WriteAnswer} (h : chanWrite cfg v c = some (a, c')) :
    QueuesMoved 1 c c' := by
  rcases chanWrite_cases h with ⟨-, -, hc⟩ | ⟨-, -, hc⟩ | ⟨-, -, -, hc⟩ | ⟨-, -, -, hc⟩ <;> rw [hc]
  · exact { QueuesMoved.refl 1 c with emitted := .last _ v }
  · exact { QueuesMoved.refl 1 c with outq := .last _ v }
  · exact { QueuesMoved.refl 1 c with emitted := .last _ v }
  · exact { QueuesMoved.refl 1 c with }

theorem Effect.queuesMoved {i : Instr} {s t : State} (h : Effect i s t) : QueuesMoved 1 s.chan t.chan := by
  cases h with
  | input _ _ _ _ _ _ _ _ _ hr | suspend _ _ _ _ _ _ _ hr | readError _ _ _ _ _ _ _ hr => exact chanRead_queuesMoved hr
  | output _ _ _ _ _ _ hr | writeError _ _ _ _ _ _ _ hr => exact chanWrite_queuesMoved hr
  | fatal | store | jump | base | held | halt => exact .refl 1 _

/-- A step is at most one transaction with the channel (R100). -/
theorem step_queuesMoved {s t : State} (h : step s = .next t) : QueuesMoved 1 s.chan t.chan := by
  rcases step_next h with ⟨-, rfl⟩ | ⟨-, he⟩
  · exact .refl 1 _
  · rw [← State.resume_chan s]
    cases he with
    | fetchFault _ => exact .refl 1 _
    | illegal _ _ _ => exact .refl 1 _
    | instr _ _ _ _ _ he => exact he.queuesMoved

/-- `n + 1` Steps that end in `t` pass through the state after the first. -/
theorem core_run_succ_cases {n : Nat} {s t : State} (h : Host.Core.run Sys2Proof.core (n + 1) s = .next t) :
    ∃ u, step s = .next u ∧ Host.Core.run Sys2Proof.core n u = .next t := by
  rcases step_cases s with ⟨-, hs⟩ | ⟨-, u, hs, -⟩
  · exact ⟨s, hs, core_run_succ n hs ▸ h⟩
  · exact ⟨u, hs, core_run_succ n hs ▸ h⟩

theorem core_run_queuesMoved (n : Nat) {s t : State} (h : Host.Core.run Sys2Proof.core n s = .next t) : QueuesMoved n s.chan t.chan := by
  induction n generalizing s with
  | zero =>
    cases h
    exact .refl 0 _
  | succ n ih =>
    obtain ⟨u, hs, hu⟩ := core_run_succ_cases h
    rw [Nat.add_comm]
    exact (step_queuesMoved hs).trans (ih hu)

/-- Settles O34, by induction on the steps: each is at most one transaction, and what transactions do to the queues adds up. -/
theorem queuesKeepTheirOrder : Obligations.QueuesKeepTheirOrder := by
  intro n s t h
  obtain ⟨hinq, hprompt, houtq, hemitted⟩ := core_run_queuesMoved n h
  exact ⟨hinq, hprompt, houtq, hemitted⟩

/-! A member's step in a network. -/

namespace Network

/-- The queues a member of an accepted network is wired to exist (entry 23). -/
theorem wired_lt_of_accepted {n : Network} (h : n.accepted = true) {m : Member} (hm : m ∈ n.members) {w : Wiring}
    (hw : m.wiring = some w) : w.inQueue < n.queues.length ∧ w.outQueue < n.queues.length := by
  simp only [Network.accepted, Bool.and_eq_true, List.all_eq_true] at h
  have := h.1.2 m hm
  simp only [Network.wired, hw, Bool.and_eq_true, decide_eq_true_eq] at this
  exact ⟨this.1.2, this.2⟩

/-- A member's machine after a step is what the step made of it, but for the channel: a wired one gets its own unused queues back. -/
theorem stepped_eq (m : Member) (t : State) : ∃ c, stepped m t = { t with chan := c } := by
  unfold stepped
  cases m.wiring with
  | none => exact ⟨t.chan, rfl⟩
  | some w => exact ⟨_, rfl⟩

theorem stepped_of_lone {m : Member} (h : m.wiring = none) (t : State) : stepped m t = t := by
  unfold stepped
  rw [h]

/-- The two queues after a step that wrote `ws`: the one read is what the step left of it, and `ws` stands at the end of the one written. -/
theorem queue_detach {n : Network} {m : Member} {w : Wiring} (hw : m.wiring = some w) (hin : w.inQueue < n.queues.length)
    (hout : w.outQueue < n.queues.length) (i : Nat) {t : State} {ws : List Int} (ht : t.chan.outq = n.queue w.outQueue ++ ws) (k : Nat) :
    (n.detach i m t).queue k =
      if k = w.outQueue then (if w.outQueue = w.inQueue then t.chan.inq else n.queue w.outQueue) ++ ws
      else if k = w.inQueue then t.chan.inq
      else n.queue k := by
  have hwritten : t.chan.outq.drop (n.queue w.outQueue).length = ws := by rw [ht, List.drop_left]
  have htaken (j : Nat) : (n.queues.set w.inQueue t.chan.inq).getD j [] = if j = w.inQueue then t.chan.inq else n.queue j :=
    queue_set n hin t.chan.inq j
  have hlen : w.outQueue < (n.queues.set w.inQueue t.chan.inq).length := by rwa [List.length_set]
  have hset := queue_set { n with queues := n.queues.set w.inQueue t.chan.inq } hlen
  unfold Network.queue at hset ⊢
  rw [detach_queues_of_wired n hw, Network.queuesAfter, hwritten, hset, htaken, htaken]
  rfl

end Network

/-- Settles O52: a member's step is its machine's own, and of the two shared queues it moves at most one value each. -/
theorem sharedQueuesChainInOrder : Obligations.SharedQueuesChainInOrder := by
  intro n i m hacc hm
  obtain ⟨hi, -⟩ := List.getElem?_eq_some_iff.1 hm
  obtain ⟨t, ht, hd⟩ := Network.stepMember_cases hm
  obtain ⟨c, hc⟩ := Network.stepped_eq m t
  have hstep : n.step i = some (n.detach i m t) := by simp [Network.step, Network.admits, hacc, hi, hd]
  have hm' : (n.detach i m t).members[i]? = some { m with vm := { t with chan := c } } := by
    rw [Network.detach_members, List.getElem?_set_self hi, hc]
  refine ⟨t, _, _, ht, hstep, hm', rfl, rfl, rfl, rfl, rfl, rfl, rfl, fun hw => ?_, fun w hw => ?_⟩
  · exact ⟨Network.attach_of_lone n hw, hc.symm.trans (Network.stepped_of_lone hw t), Network.detach_queues_of_lone n hw i t⟩
  · obtain ⟨hin, hout⟩ := Network.wired_lt_of_accepted hacc (List.mem_of_getElem? hm) hw
    obtain ⟨⟨k, hk, hk1⟩, -, ⟨ws, hws, hws1⟩, -⟩ := step_queuesMoved ht
    rw [Network.attach_of_wired n hw] at hk hws
    have hq := Network.queue_detach hw hin hout i hws
    refine ⟨by rw [Network.attach_of_wired n hw], k, ws, hk1, hws1, hk, hws, fun hne => ⟨?_, ?_⟩, fun heq => ?_⟩
    · rw [hq, if_neg hne, if_pos rfl, hk]
    · rw [hq, if_pos rfl, if_neg hne.symm]
    · rw [hq, if_pos heq, if_pos heq.symm, hk]

end Sys2Proof.Machine
end

section
/-! PROOFS. The encoding (30_encoding.md): what a word's digits say of the instruction it decodes to, what makes a word illegal and which check says
so first, and the round trip of words and of streams. -/

namespace Sys2Proof

/-! A word and the instruction its digits spell. -/

/-- The digits of a word spell an instruction: its opcode and its three mode digits (R71), legal or not. -/
structure Spells (w : Int) (i : Instr) : Prop where
  opcode : w % 100 = i.opcode
  mode1 : w / 100 % 10 = i.modes.1.digit
  mode2 : w / 1000 % 10 = i.modes.2.1.digit
  mode3 : w / 10000 % 10 = i.modes.2.2.digit

/-- `digit` of a word that is not negative, as the spec writes it on integers (R7). -/
theorem digit_toNat {w : Int} (hw : 0 ≤ w) (k : Nat) : (digit w.toNat k : Int) = w / 10 ^ k % 10 := by
  simp [digit, Int.toNat_of_nonneg hw]

theorem spells_iff_digits {w : Int} {i : Instr} (hw : 0 ≤ w) :
    Spells w i ↔ w.toNat % 100 = i.opcode ∧ digit w.toNat 2 = i.modes.1.digit ∧ digit w.toNat 3 = i.modes.2.1.digit ∧
      digit w.toNat 4 = i.modes.2.2.digit := by
  have h1 := digit_toNat hw 2
  have h2 := digit_toNat hw 3
  have h3 := digit_toNat hw 4
  norm_num only at h1 h2 h3
  exact ⟨fun ⟨ho, hm1, hm2, hm3⟩ => by omega, fun ⟨ho, hm1, hm2, hm3⟩ => ⟨by omega, by omega, by omega, by omega⟩⟩

/-- A legal word is one that is not negative and spells a well-formed instruction. -/
theorem decode_eq_ok_iff_spells {w : Int} {i : Instr} : decode w = .ok i ↔ 0 ≤ w ∧ i.wellFormed = true ∧ Spells w i := by
  rw [decode_eq_ok]
  exact and_congr_right fun hw => and_congr_right fun _ => (spells_iff_digits hw).symm

/-- The words that spell an instruction are its canonical word and any digits at 10^5 and above (R71, R83). -/
theorem spells_iff_encodeWord {w : Int} {i : Instr} : 0 ≤ w ∧ Spells w i ↔ ∃ h : Nat, w = encodeWord i + 100000 * h := by
  have ho := i.opcode_lt
  have h1 := i.modes.1.digit_le
  have h2 := i.modes.2.1.digit_le
  have h3 := i.modes.2.2.digit_le
  unfold encodeWord
  constructor
  · rintro ⟨hw, hs, hs1, hs2, hs3⟩
    exact ⟨(w / 100000).toNat, by omega⟩
  · rintro ⟨h, rfl⟩
    exact ⟨by omega, by omega, by omega, by omega, by omega⟩

/-- Settles O2: decoding reads the digits of the word, and the words with an instruction's digits are its encodings. -/
theorem decodeInvertsEncode : Obligations.DecodeInvertsEncode := by
  intro w i
  rw [decode_eq_ok_iff_spells, and_left_comm, spells_iff_encodeWord]

/-! The digits at 10^5 and above (R83). -/

theorem digit_mod_of_lt {k : Nat} (hk : k < 5) (n : Nat) : digit (n % 100000) k = digit n k := by
  unfold digit
  interval_cases k <;> omega

theorem decode_mod {w : Int} (hw : 0 ≤ w) : decode (w % 100000) = decode w := by
  have hn : (w % 100000).toNat = w.toNat % 100000 := by omega
  have hop : w.toNat % 100000 % 100 = w.toNat % 100 := by omega
  unfold decode
  rw [if_neg (by omega), if_neg (by omega), hn, hop, digit_mod_of_lt (by decide), digit_mod_of_lt (by decide), digit_mod_of_lt (by decide)]

theorem encodeWord_range (i : Instr) : 0 ≤ encodeWord i ∧ encodeWord i < 100000 := by
  have ho := i.opcode_lt
  have h1 := i.modes.1.digit_le
  have h2 := i.modes.2.1.digit_le
  have h3 := i.modes.2.2.digit_le
  unfold encodeWord
  omega

/-- Settles O3: the decoder looks at the digits below 10^5 alone, and an instruction's canonical word has no others. -/
theorem highDigitsHaveNoEffect : Obligations.HighDigitsHaveNoEffect :=
  ⟨fun _ hw => (decode_mod hw).symm, encodeWord_range⟩

/-! Illegal words, check by check in the order of R105. -/

/-- The opcodes of the instruction set (R76). -/
def knownOpcodes : List Int := [1, 2, 3, 4, 5, 6, 7, 8, 9, 99]

/-- Every mode digit of a word, used or not, is one of a mode (R73, R81). -/
def ModeDigitsOk (w : Int) : Prop := w / 100 % 10 ≤ 2 ∧ w / 1000 % 10 ≤ 2 ∧ w / 10000 % 10 ≤ 2

theorem instrOfOpcode_isSome {op : Nat} : (instrOfOpcode op).isSome = true ↔ (op : Int) ∈ knownOpcodes := by
  unfold instrOfOpcode knownOpcodes
  simp only [List.mem_cons, List.not_mem_nil, or_false]
  split_ifs <;> simp only [Option.isSome_some, Option.isSome_none, Bool.false_eq_true, true_iff, false_iff] <;> omega

/-- The opcode map has an entry for the known opcodes and no other (R79). -/
theorem opcode_mem_known {w : Int} (hw : 0 ≤ w) : w % 100 ∈ knownOpcodes ↔ ∃ mk, instrOfOpcode (w.toNat % 100) = some mk := by
  have hop : ((w.toNat % 100 : Nat) : Int) = w % 100 := by omega
  rw [← hop, ← instrOfOpcode_isSome, Option.isSome_iff_exists]

theorem exists_mode_of_digit {d : Int} (h0 : 0 ≤ d) (h2 : d ≤ 2) : ∃ m : Mode, d = m.digit := by
  obtain rfl | rfl | rfl : d = 0 ∨ d = 1 ∨ d = 2 := by omega
  · exact ⟨.position, rfl⟩
  · exact ⟨.immediate, rfl⟩
  · exact ⟨.relative, rfl⟩

/-- A known opcode and three mode digits up to 2 spell an instruction. -/
theorem exists_spells {w : Int} (hw : 0 ≤ w) (hop : w % 100 ∈ knownOpcodes) (hm : ModeDigitsOk w) : ∃ i, Spells w i := by
  obtain ⟨h1, h2, h3⟩ := hm
  obtain ⟨m1, h1⟩ := exists_mode_of_digit (by omega) h1
  obtain ⟨m2, h2⟩ := exists_mode_of_digit (by omega) h2
  obtain ⟨m3, h3⟩ := exists_mode_of_digit (by omega) h3
  obtain ⟨mk, hmk⟩ := (opcode_mem_known hw).1 hop
  obtain ⟨ho, hmodes⟩ := instrOfOpcode_spec hmk m1 m2 m3
  exact ⟨mk m1 m2 m3, by omega, by rw [hmodes, h1], by rw [hmodes, h2], by rw [hmodes, h3]⟩

theorem Spells.modeDigitsOk {w : Int} {i : Instr} (h : Spells w i) : ModeDigitsOk w := by
  have h1 := i.modes.1.digit_le
  have h2 := i.modes.2.1.digit_le
  have h3 := i.modes.2.2.digit_le
  rw [ModeDigitsOk, h.mode1, h.mode2, h.mode3]
  omega

theorem Mode.digit_eq_one {m : Mode} : m.digit = 1 ↔ m = .immediate := by cases m <;> decide

/-- The ill-formed instructions by their digits: an Immediate parameter 3 of ADD, MUL, LESS-THAN or EQUALS, an Immediate parameter 1 of INPUT (R82). -/
theorem Spells.wellFormed_iff {w : Int} {i : Instr} (h : Spells w i) : i.wellFormed = true ↔
    ¬ ((w % 100 ∈ ([1, 2, 7, 8] : List Int) ∧ w / 10000 % 10 = 1) ∨ (w % 100 = 3 ∧ w / 100 % 10 = 1)) := by
  rw [h.opcode, h.mode1, h.mode3]
  cases i <;> simp [Instr.wellFormed, Instr.writeMode, Instr.opcode, Instr.modes, Mode.digit_eq_one]

theorem decode_of_neg {w : Int} (h : w < 0) : decode w = .error .unknownOpcode := if_pos h

theorem decode_of_unknownOpcode {w : Int} (hw : 0 ≤ w) (hop : w % 100 ∉ knownOpcodes) : decode w = .error .unknownOpcode := by
  have hnone : instrOfOpcode (w.toNat % 100) = none := by
    rwa [opcode_mem_known hw, ← Option.isSome_iff_exists, Option.not_isSome_iff_eq_none] at hop
  rw [decode, if_neg (by omega), hnone]

/-- Were all three digits those of modes, the word would spell an instruction. -/
theorem decode_of_invalidMode {w : Int} (hw : 0 ≤ w) (hop : w % 100 ∈ knownOpcodes) (hm : ¬ ModeDigitsOk w) :
    decode w = .error .invalidMode := by
  obtain ⟨mk, hmk⟩ := (opcode_mem_known hw).1 hop
  rw [decode, if_neg (by omega), hmk]
  dsimp only
  split
  · rename_i m1 m2 m3 h1 h2 h3
    obtain ⟨ho, hmodes⟩ := instrOfOpcode_spec hmk m1 m2 m3
    have hs : Spells w (mk m1 m2 m3) := by
      rw [spells_iff_digits hw, hmodes]
      exact ⟨ho.symm, modeOfDigit_eq_some.1 h1, modeOfDigit_eq_some.1 h2, modeOfDigit_eq_some.1 h3⟩
    exact absurd hs.modeDigitsOk hm
  · rfl

/-- A word whose digits spell an ill-formed instruction passes every check but the last. -/
theorem Spells.decode_of_not_wellFormed {w : Int} {i : Instr} (h : Spells w i) (hw : 0 ≤ w) (hwf : ¬ i.wellFormed = true) :
    decode w = .error .immediateWriteTarget := by
  obtain ⟨mk, hmk, hi⟩ := instrOfOpcode_opcode i
  obtain ⟨ho, h1, h2, h3⟩ := (spells_iff_digits hw).1 h
  rw [decode, if_neg (by omega), ho, hmk]
  simp only [modeOfDigit_eq_some.2 h1, modeOfDigit_eq_some.2 h2, modeOfDigit_eq_some.2 h3, hi, if_neg hwf]

end Sys2Proof

namespace Sys2Proof.Machine

theorem step_of_decode_error {s : State} {e : DecodeError} (hr : s.runState = .running) (hv : ValidAddr s.cfg s.ip)
    (h : decode s.instrWord = .error e) : step s = .next (s.enterFatal ⟨decodeCause e, s.instrWord⟩) := by
  rw [step_of_live (.inl hr), State.resume_of_running s hr]
  rcases stepRunning_cases s with ⟨hn, -⟩ | ⟨-, e', he, hs⟩ | ⟨-, i, hi, -⟩
  · exact absurd hv hn
  · rw [h] at he
    cases he
    exact hs
  · rw [h] at hi
    cases hi

theorem step_of_decode_ok {s : State} {i : Instr} (hr : s.runState = .running) (hv : ValidAddr s.cfg s.ip)
    (h : decode s.instrWord = .ok i) : step s = exec i s := by
  rw [step_of_live (.inl hr), State.resume_of_running s hr]
  rcases stepRunning_cases s with ⟨hn, -⟩ | ⟨-, e, he, -⟩ | ⟨-, j, hj, hs⟩
  · exact absurd hv hn
  · rw [h] at he
    cases he
  · rw [h] at hj
    cases hj
    exact hs

/-- Settles O4: one lemma for each check of R105, and the step of a word the decoder refuses or takes. -/
theorem illegalWordFaultsInOrder : Obligations.IllegalWordFaultsInOrder := by
  intro s hr hv w known modesOk immediateWrite
  refine ⟨fun hw => ?_, fun hw hop => ?_, fun hw hop hm => ?_, fun hw hop hm himm => ?_, fun hw hop hm himm => ?_⟩
  · exact step_of_decode_error hr hv (decode_of_neg hw)
  · exact step_of_decode_error hr hv (decode_of_unknownOpcode hw hop)
  · exact step_of_decode_error hr hv (decode_of_invalidMode hw hop hm)
  · obtain ⟨i, hi⟩ := exists_spells hw hop hm
    exact step_of_decode_error hr hv (hi.decode_of_not_wellFormed hw (fun hwf => hi.wellFormed_iff.1 hwf himm))
  · obtain ⟨i, hi⟩ := exists_spells hw hop hm
    have hd : decode w = .ok i := decode_eq_ok_iff_spells.2 ⟨hw, hi.wellFormed_iff.2 himm, hi⟩
    exact ⟨i, hd, step_of_decode_ok hr hv hd⟩

end Sys2Proof.Machine

namespace Sys2Proof

/-! Streams of words, and sample words. -/

/-- The canonical word of a well-formed instruction decodes to it (R71). -/
theorem decode_encodeWord {i : Instr} (h : i.wellFormed = true) : decode (encodeWord i) = .ok i :=
  (decodeInvertsEncode _ i).2 ⟨h, 0, by simp⟩

theorem decodeWords_encode_append {i : Instr} {params : List Int} (rest : List Int) (hwf : i.wellFormed = true)
    (hlen : params.length = i.paramCount) : decodeWords (encode i params ++ rest) = .ok (i, params, rest) := by
  simp [encode, decodeWords, decode_encodeWord hwf, ← hlen]

/-- Settles O5: each parameter count is its format's, and the first word of an encoding tells how many words are parameters. -/
theorem streamDecodeReturnsOperandsAndRest : Obligations.StreamDecodeReturnsOperandsAndRest := by
  refine ⟨fun m1 m2 m3 => ?_, fun i params rest hwf hlen => ⟨?_, decodeWords_encode_append rest hwf hlen⟩⟩
  · simp [Instr.paramCount]
  · rw [encode, List.length_cons, hlen, Nat.add_comm]

/-- Settles O1, by evaluating the decoder on each word. -/
theorem sampleWordsDecode : Obligations.SampleWordsDecode := by
  unfold Obligations.SampleWordsDecode
  decide

end Sys2Proof
end

section
/-! PROOFS. The step (40_step_decode_operands.md): the instruction it runs, the four ways it can end, the order in which it can fault (R118), and what
each instruction leaves unchanged. -/

namespace Sys2Proof.Machine

/-! The instruction a step runs (R100, R213). -/

/-- A suspended machine steps as the Running one it becomes (R213, R247). -/
theorem step_of_awaiting {s : State} (h : s.runState = .awaitingInput) : step s = step { s with runState := .running } := by
  rw [step_of_live (.inr h), State.resume_of_awaiting s h, step_of_live (.inl rfl), State.resume_of_running _ rfl]

theorem step_of_not_validAddr {s : State} (hr : s.runState = .running) (hv : ¬ ValidAddr s.cfg s.ip) :
    step s = .next (s.enterFatal ⟨.capacityExceeded, s.ip⟩) := by
  rw [step_of_live (.inl hr), State.resume_of_running s hr]
  rcases stepRunning_cases s with ⟨-, hs⟩ | ⟨hv', -⟩ | ⟨hv', -⟩
  · exact hs
  · exact absurd hv' hv
  · exact absurd hv' hv

/-- Settles O6: a Running machine runs the decoded instruction, and a suspended one steps as the Running one it resumes to. -/
theorem stepRunsTheDecodedInstruction : Obligations.StepRunsTheDecodedInstruction := by
  refine fun s i hv hd => ⟨fun hr => step_of_decode_ok hr hv hd, fun ha => ?_⟩
  rw [step_of_awaiting ha]
  exact step_of_decode_ok (s := { s with runState := .running }) rfl hv hd

/-! The four outcomes (R101). -/

theorem SameButAnswers.refl (s : State) : SameButAnswers s s := ⟨s.chan.deviceReads, s.chan.deviceWrites, rfl⟩

/-- An answer to a read that supplies no value leaves the channel as it was, but for a device's list (entry 7). -/
theorem SameButAnswers.of_chanRead {s : State} {k : ChannelKind} {a : ReadAnswer} {c : Channel} (h : chanRead k s.chan = some (a, c))
    (ha : ∀ v, a ≠ .value v) : SameButAnswers s { s with chan := c } := by
  rcases chanRead_cases h with ⟨-, v, hv, -⟩ | ⟨-, -, -, rfl⟩ | ⟨-, v, hv, -⟩ | ⟨-, -, hc⟩
  · exact absurd hv (ha v)
  · exact .refl s
  · exact absurd hv (ha v)
  · exact ⟨_, _, by rw [hc]⟩

/-- What instruction `i` can make of state `s` as a run goes: it runs on with the status registers as they were, it halts, it is suspended at an Empty
answer, or it is Fatal with all else kept (R101, R102). -/
inductive RunOutcome (i : Instr) (s t : State) : Prop where
  | runsOn (hr : t.runState = s.runState) (hc : t.faultCause = s.faultCause) (hi : t.faultInfo = s.faultInfo)
  | halts (m1 m2 m3 : Mode) (hi : i = .halt m1 m2 m3) (ht : t = { s with runState := .halted })
  | suspends (m1 m2 m3 : Mode) (c : Channel) (hi : i = .input m1 m2 m3) (hc : chanRead s.cfg.channelKind s.chan = some (.empty, c))
      (ht : t = { s with runState := .awaitingInput, chan := c })
  | faults (e : FatalEvent) (ht : SameButAnswers (s.enterFatal e) t)

theorem Effect.runOutcome {i : Instr} {s t : State} (h : Effect i s t) : RunOutcome i s t := by
  cases h with
  | store | jump | base | input | output | held => exact .runsOn rfl rfl rfl
  | fatal e => exact .faults e (.refl _)
  | suspend m1 m2 m3 c hi _ _ hc => exact .suspends m1 m2 m3 c hi hc rfl
  | readError _ _ _ e c _ _ hc =>
    exact .faults ⟨.deviceError, e⟩ (.of_chanRead (s := s.enterFatal ⟨.deviceError, e⟩) hc nofun)
  | writeError _ _ _ e c _ _ hc =>
    obtain ⟨-, -, hc⟩ := chanWrite_error hc
    exact .faults ⟨.deviceError, e⟩ ⟨_, _, by rw [hc]; rfl⟩
  | halt m1 m2 m3 hi => exact .halts m1 m2 m3 hi rfl

/-- A step ends as its decoded instruction does, or is Fatal before there is one. -/
theorem StepEffect.runOutcome {s t : State} (h : StepEffect s t) :
    (∃ i, decode s.instrWord = .ok i ∧ RunOutcome i s t) ∨ ∃ e, SameButAnswers (s.enterFatal e) t := by
  cases h with
  | fetchFault _ => exact .inr ⟨_, .refl _⟩
  | illegal _ _ _ => exact .inr ⟨_, .refl _⟩
  | instr i _ _ hd _ he => exact .inl ⟨i, hd, he.runOutcome⟩

/-- Settles O7: the outcome of the decoded instruction, or the Fatal entry at the fetch or the decoder. -/
theorem stepHasOneOfFourOutcomes : Obligations.StepHasOneOfFourOutcomes := by
  intro s hr
  obtain ⟨t, ht, he⟩ := stepRunning_effect s
  have hstep : step s = .next t := by rw [step_of_live (.inl hr), State.resume_of_running s hr, ht]
  refine ⟨t, hstep, ?_⟩
  rcases he.runOutcome with ⟨i, hd, ho⟩ | hfatal
  · cases ho with
    | runsOn hr' hc hi => exact .inl ⟨hr'.trans hr, hc, hi, step_keeps_cfg hstep⟩
    | halts m1 m2 m3 hi ht => exact .inr (.inl ⟨ht, m1, m2, m3, hi ▸ hd⟩)
    | suspends m1 m2 m3 c hi hc ht =>
      have hsame := SameButAnswers.of_chanRead (s := { s with runState := .awaitingInput }) hc nofun
      exact .inr (.inr (.inl ⟨c, hc, ht, ht ▸ hsame, m1, m2, m3, hi ▸ hd⟩))
    | faults e ht => exact .inr (.inr (.inr ⟨e, ht⟩))
  · exact .inr (.inr (.inr hfatal))

/-- Resuming leaves no trace in the Fatal entry, which writes RUN_STATE anew. -/
theorem State.resume_enterFatal (s : State) (e : FatalEvent) : s.resume.enterFatal e = s.enterFatal e := by
  rw [State.resume_eq]
  rfl

theorem StepEffect.fatal_entry {s t : State} (h : StepEffect s t) (hs : s.runState ≠ .fatal) (ht : t.runState = .fatal) :
    ∃ e, SameButAnswers (s.enterFatal e) t := by
  rcases h.runOutcome with ⟨i, -, ho⟩ | hfatal
  · cases ho with
    | runsOn hr _ _ => exact absurd (hr.symm.trans ht) hs
    | halts _ _ _ _ h => rw [h] at ht; cases ht
    | suspends _ _ _ _ _ _ h => rw [h] at ht; cases ht
    | faults e h => exact ⟨e, h⟩
  · exact hfatal

/-- Settles O9: of the four outcomes only the Fatal entry of the resumed state is Fatal. -/
theorem faultedStepKeepsEverything : Obligations.FaultedStepKeepsEverything := by
  intro s t hs h ht
  rcases step_next h with ⟨-, rfl⟩ | ⟨hl, he⟩
  · exact absurd ht hs
  · obtain ⟨e, hsame⟩ := he.fatal_entry (by rw [State.resume_running hl]; nofun) ht
    rw [State.resume_enterFatal] at hsame
    obtain ⟨reads, writes, rfl⟩ := hsame
    exact ⟨e, rfl, rfl, reads, writes, rfl⟩

/-! The channel's answer, once nothing before it faults (R118 item 4). -/

/-- The channel answers instruction `i`, an INPUT or OUTPUT, with Error(e). -/
def AnswersError (i : Instr) (s : State) (e : Int) : Prop :=
  ((∃ m1 m2 m3, i = .input m1 m2 m3) ∧ ∃ c, chanRead s.cfg.channelKind s.chan = some (.error e, c)) ∨
    ∃ m1 m2 m3 c, i = .output m1 m2 m3 ∧ chanWrite s.cfg (s.operandValue m1 1) s.chan = some (.error e, c)

/-- The channel answers instruction `i`, an INPUT, with Empty. -/
def AnswersEmpty (i : Instr) (s : State) : Prop :=
  (∃ m1 m2 m3, i = .input m1 m2 m3) ∧ ∃ c, chanRead s.cfg.channelKind s.chan = some (.empty, c)

/-- Only an Empty answer suspends a Running machine (R212). -/
theorem Effect.answersEmpty_of_awaiting {i : Instr} {s t : State} (h : Effect i s t) (hr : s.runState = .running)
    (ht : t.runState = .awaitingInput) : AnswersEmpty i s := by
  cases h with
  | suspend m1 m2 m3 c hi _ _ hc => exact ⟨⟨m1, m2, m3, hi⟩, c, hc⟩
  | store | jump | base | input | output | held => cases hr.symm.trans ht
  | fatal | readError | writeError | halt => cases ht

/-- With no fault before the channel is asked, only an Error answer is fatal. -/
theorem Effect.answersError_of_fatal {i : Instr} {s t : State} (h : Effect i s t) (hw : i.wellFormed = true) (hf : firstFault i s = none)
    (hr : s.runState = .running) (ht : t.runState = .fatal) : ∃ e, AnswersError i s e := by
  cases h with
  | fatal e he => simp [hf, hw] at he
  | readError m1 m2 m3 e c hi _ hc => exact ⟨e, .inl ⟨⟨m1, m2, m3, hi⟩, c, hc⟩⟩
  | writeError m1 m2 m3 e c hi _ hc => exact ⟨e, .inr ⟨m1, m2, m3, c, hi, hc⟩⟩
  | store | jump | base | input | output | held => cases hr.symm.trans ht
  | suspend | halt => cases ht

theorem accessFault_of_firstFault {i : Instr} {s : State} (hf : firstFault i s = none) :
    accessFault s.cfg ((Instr.operands i).flatMap (fun p => s.operandAccesses p.1 p.2)) = none := by
  rw [firstFault_eq] at hf
  split at hf
  · cases hf
  · assumption

theorem accessFault_one_of_firstFault {i : Instr} {s : State} {m1 : Mode} (ho : Instr.operands i = [(m1, 1)])
    (hf : firstFault i s = none) : accessFault s.cfg (s.operandAccesses m1 1) = none := by
  have ha := accessFault_of_firstFault hf
  rwa [ho, List.flatMap_singleton] at ha

/-- INPUT that meets no fault does what the channel's answer makes of it. -/
theorem exec_input_of_no_fault {s : State} {m1 m2 m3 : Mode} (hw : (Instr.input m1 m2 m3).wellFormed = true)
    (hf : firstFault (.input m1 m2 m3) s = none) :
    exec (.input m1 m2 m3) s = .next (inputTo (s.destination m1 1) (s.grow [((s.ip + 1 : Nat) : Int)]) s) := by
  have hm : m1 ≠ .immediate := fun hm => Bool.false_ne_true (((wellFormed_writeMode m1).2 hm).symm.trans hw)
  rw [exec, execInput_eq hm, accessFault_one_of_firstFault rfl hf]

/-- OUTPUT that meets no fault does what the channel's answer makes of it. -/
theorem exec_output_of_no_fault {s : State} {m1 m2 m3 : Mode} (hf : firstFault (.output m1 m2 m3) s = none) :
    exec (.output m1 m2 m3) s = .next (outputWord (s.operandValue m1 1) (s.grow (s.operandAccesses m1 1)) s) := by
  rw [exec, execOutput_eq, accessFault_one_of_firstFault rfl hf]

section answers
variable {i : Instr} {s : State} (hw : i.wellFormed = true) (hf : firstFault i s = none)
include hw hf

theorem exec_of_answersError {e : Int} (h : AnswersError i s e) :
    ∃ c, exec i s = .next ({ s with chan := c }.enterFatal ⟨.deviceError, e⟩) := by
  rcases h with ⟨⟨m1, m2, m3, rfl⟩, c, hc⟩ | ⟨m1, m2, m3, c, rfl, hc⟩
  · exact ⟨c, by rw [exec_input_of_no_fault hw hf, inputTo, hc]⟩
  · exact ⟨c, by rw [exec_output_of_no_fault hf, outputWord, hc]⟩

theorem exec_of_answersEmpty (h : AnswersEmpty i s) : ∃ c, exec i s = .next { s with chan := c }.suspend := by
  obtain ⟨⟨m1, m2, m3, rfl⟩, c, hc⟩ := h
  exact ⟨c, by rw [exec_input_of_no_fault hw hf, inputTo, hc]⟩

end answers

/-- Settles O11: the step at each stage of R118's list, and the channel's answer at the last. -/
theorem firstConditionMetIsReported : Obligations.FirstConditionMetIsReported := by
  intro s hr
  refine ⟨step_of_not_validAddr hr, fun hv e => step_of_decode_error hr hv, fun hv i hd => ?_⟩
  have hw : i.wellFormed = true := (decode_eq_ok.1 hd).2.1
  rw [step_of_decode_ok hr hv hd]
  refine ⟨fun e he => exec_of_firstFault hw he, fun hf => ?_⟩
  obtain ⟨t, ht, h⟩ := exec_effect i s
  refine ⟨t, ht, fun e he => ?_, h.answersError_of_fatal hw hf hr, h.answersEmpty_of_awaiting hr, fun he => ?_⟩
  · obtain ⟨c, hc⟩ := exec_of_answersError hw hf he
    cases ht.symm.trans hc
    exact ⟨rfl, rfl, rfl⟩
  · obtain ⟨c, hc⟩ := exec_of_answersEmpty hw hf he
    cases ht.symm.trans hc
    rfl

/-! Frames: cells and the two sides of the channel. -/

theorem effect_of_exec {i : Instr} {s t : State} (h : exec i s = .next t) : Effect i s t := by
  obtain ⟨u, hu, he⟩ := exec_effect i s
  cases h.symm.trans hu
  exact he

/-- An instruction that meets no fault stores at no negative address. -/
theorem storedAddress_nonneg {i : Instr} {s : State} {a : Int} (hf : firstFault i s = none) (ha : storedAddress i s = some a) : 0 ≤ a := by
  rcases List.mem_cons.1 (storedAddress_mem_accesses ha) with rfl | hmem
  · exact Int.natCast_nonneg _
  · exact (accessFault_eq_none.1 (accessFault_of_firstFault hf) a hmem).1

theorem read_write_of_stored_ne {i : Instr} {s : State} {a : Int} {b : Nat} (v : Int) (hf : firstFault i s = none)
    (ha : storedAddress i s = some a) (hb : storedAddress i s ≠ some (b : Int)) : (s.mem.write a.toNat v).read b = s.mem.read b := by
  have h0 := storedAddress_nonneg hf ha
  refine Memory.read_write_of_ne v fun hab => hb ?_
  rw [ha, hab, Int.toNat_of_nonneg h0]

/-- Every cell but the one stored to reads as before. -/
theorem Effect.read_eq {i : Instr} {s t : State} (h : Effect i s t) {b : Nat} (hb : storedAddress i s ≠ some (b : Int)) :
    t.mem.read b = s.mem.read b := by
  cases h with
  | store a v _ ha _ hf => exact read_write_of_stored_ne v hf ha hb
  | input _ _ _ a v _ _ ha hf => exact read_write_of_stored_ne v hf ha hb
  | fatal | jump | base | suspend | readError | output | writeError | held | halt => rfl

/-- A read transaction changes nothing on the write side. -/
theorem chanRead_writeSide {k : ChannelKind} {c c' : Channel} {a : ReadAnswer} (h : chanRead k c = some (a, c')) :
    c'.outq = c.outq ∧ c'.emitted = c.emitted ∧ c'.deviceWrites = c.deviceWrites := by
  rcases chanRead_cases h with ⟨-, v, -, -, hc⟩ | ⟨-, -, -, hc⟩ | ⟨-, v, -, -, hc⟩ | ⟨-, -, hc⟩ <;> rw [hc]
  all_goals exact ⟨rfl, rfl, rfl⟩

/-- A write transaction changes nothing on the read side. -/
theorem chanWrite_readSide {cfg : Config} {v : Int} {c c' : Channel} {a : WriteAnswer} (h : chanWrite cfg v c = some (a, c')) :
    c'.inq = c.inq ∧ c'.prompt = c.prompt ∧ c'.deviceReads = c.deviceReads := by
  rcases chanWrite_cases h with ⟨-, -, hc⟩ | ⟨-, -, hc⟩ | ⟨-, -, -, hc⟩ | ⟨-, -, -, hc⟩ <;> rw [hc]
  all_goals exact ⟨rfl, rfl, rfl⟩

theorem Effect.writeSide_eq {m1 m2 m3 : Mode} {s t : State} (h : Effect (.input m1 m2 m3) s t) :
    t.chan.outq = s.chan.outq ∧ t.chan.emitted = s.chan.emitted ∧ t.chan.deviceWrites = s.chan.deviceWrites := by
  cases h with
  | input _ _ _ _ _ _ _ _ _ hr | suspend _ _ _ _ _ _ _ hr | readError _ _ _ _ _ _ _ hr => exact chanRead_writeSide hr
  | fatal | store | jump | held => exact ⟨rfl, rfl, rfl⟩
  | base _ _ _ hi | output _ _ _ _ hi | writeError _ _ _ _ _ hi | halt _ _ _ hi => cases hi

theorem Effect.readSide_eq {m1 m2 m3 : Mode} {s t : State} (h : Effect (.output m1 m2 m3) s t) :
    t.chan.inq = s.chan.inq ∧ t.chan.prompt = s.chan.prompt ∧ t.chan.deviceReads = s.chan.deviceReads := by
  cases h with
  | output _ _ _ _ _ _ hr | writeError _ _ _ _ _ _ _ hr => exact chanWrite_readSide hr
  | fatal | store | jump | held => exact ⟨rfl, rfl, rfl⟩
  | base _ _ _ hi | input _ _ _ _ _ _ hi | suspend _ _ _ _ hi | readError _ _ _ _ _ hi | halt _ _ _ hi => cases hi

/-! The frames, each from the effect's parts and the four outcomes. -/

/-- An instruction other than INPUT and HALT runs on, or is Fatal. -/
theorem RunOutcome.runsOn_or_faults {i : Instr} {s t : State} (h : RunOutcome i s t) (hin : ∀ m1 m2 m3, i ≠ .input m1 m2 m3)
    (hhalt : ∀ m1 m2 m3, i ≠ .halt m1 m2 m3) :
    (t.runState = s.runState ∧ t.faultCause = s.faultCause ∧ t.faultInfo = s.faultInfo) ∨ ∃ e, SameButAnswers (s.enterFatal e) t := by
  cases h with
  | runsOn hr hc hi => exact .inl ⟨hr, hc, hi⟩
  | halts m1 m2 m3 hi => exact absurd hi (hhalt m1 m2 m3)
  | suspends m1 m2 m3 _ hi => exact absurd hi (hin m1 m2 m3)
  | faults e ht => exact .inr ⟨e, ht⟩

theorem paramCount_of_storing {i : Instr} {m1 m2 m3 : Mode}
    (hi : i ∈ [Instr.add m1 m2 m3, .mul m1 m2 m3, .lessThan m1 m2 m3, .equals m1 m2 m3]) : i.paramCount = 3 := by
  simp only [List.mem_cons, List.not_mem_nil, or_false] at hi
  rcases hi with rfl | rfl | rfl | rfl <;> rfl

/-- Settles O25: the cells by the stored address, the status registers by the outcome; the other instructions have fewer parameters. -/
theorem frameOfStoringInstructions : Obligations.FrameOfStoringInstructions := by
  intro s t i m1 m2 m3 hi h
  have he := effect_of_exec h
  have hcount : ∀ j, i = j → j.paramCount = 3 := fun j hj => hj ▸ paramCount_of_storing hi
  have hio : ¬ Instr.IsIo i := fun hio => by cases hio <;> cases hcount _ rfl
  refine ⟨he.cfg_eq, he.rb_eq (fun _ _ _ hb => nomatch hcount _ hb), exec_keeps_chan hio h, fun b => he.read_eq, ?_⟩
  rcases he.runOutcome.runsOn_or_faults (fun _ _ _ hin => nomatch hcount _ hin) (fun _ _ _ hh => nomatch hcount _ hh) with hrun |
    ⟨e, reads, writes, rfl⟩
  · exact .inl hrun
  · exact .inr ⟨rfl, rfl, rfl, rfl⟩

/-- INPUT also suspends, which leaves the fault registers alone (R212). -/
theorem Effect.input_status {s t : State} {m1 m2 m3 : Mode} (he : Effect (.input m1 m2 m3) s t) :
    (t.faultCause = s.faultCause ∧ t.faultInfo = s.faultInfo ∧ (t.runState = s.runState ∨ t.runState = .awaitingInput)) ∨
      ∃ e, SameButAnswers (s.enterFatal e) t := by
  cases he.runOutcome with
  | runsOn hr hc hi => exact .inl ⟨hc, hi, .inl hr⟩
  | halts _ _ _ hh => cases hh
  | suspends _ _ _ _ _ _ ht => rw [ht]; exact .inl ⟨rfl, rfl, .inr rfl⟩
  | faults e ht => exact .inr ⟨e, ht⟩

/-- Settles O26: a transaction keeps the other side of the channel, and OUTPUT has no stored address. -/
theorem frameOfInputAndOutput : Obligations.FrameOfInputAndOutput := by
  refine ⟨fun s t m1 m2 m3 h => ?_, fun s t m1 m2 m3 h => ?_⟩
  · have he := effect_of_exec h
    obtain ⟨houtq, hemitted, hwrites⟩ := he.writeSide_eq
    refine ⟨he.cfg_eq, he.rb_eq nofun, houtq, hemitted, hwrites, fun b => he.read_eq, ?_⟩
    rcases he.input_status with hlive | ⟨e, reads, writes, rfl⟩
    · exact .inl hlive
    · exact .inr ⟨rfl, rfl, rfl, rfl⟩
  · have he := effect_of_exec h
    obtain ⟨hinq, hprompt, hreads⟩ := he.readSide_eq
    refine ⟨he.cfg_eq, he.rb_eq nofun, hinq, hprompt, hreads, fun b => he.read_eq nofun, ?_⟩
    rcases he.runOutcome.runsOn_or_faults nofun nofun with ⟨hr, hc, hi⟩ | ⟨e, reads, writes, rfl⟩
    · exact .inl ⟨hc, hi, hr⟩
    · exact .inr ⟨rfl, rfl, rfl⟩

/-- Settles O27: none of these instructions has a stored address or uses the channel, and HALT is known exactly. -/
theorem frameOfJumpsBaseAndHalt : Obligations.FrameOfJumpsBaseAndHalt := by
  intro s t i m1 m2 m3 hi h
  have he := effect_of_exec h
  simp only [List.mem_cons, List.not_mem_nil, or_false] at hi
  have hio : ¬ Instr.IsIo i := by rcases hi with rfl | rfl | rfl | rfl <;> nofun
  have hstored : storedAddress i s = none := by rcases hi with rfl | rfl | rfl | rfl <;> rfl
  refine ⟨he.cfg_eq, exec_keeps_chan hio h, fun b => he.read_eq (by rw [hstored]; nofun), fun hne => ?_, ?_, ?_⟩
  · rcases hi with rfl | rfl | rfl | rfl
    · exact he.rb_eq nofun
    · exact he.rb_eq nofun
    · exact absurd rfl hne
    · exact he.rb_eq nofun
  · rintro rfl
    cases h
    exact ⟨rfl, rfl⟩
  · cases he.runOutcome with
    | runsOn hr hc hinfo => exact .inl ⟨hc, hinfo, .inl hr⟩
    | halts n1 n2 n3 hh ht =>
      subst hh ht
      exact .inl ⟨rfl, rfl, .inr ⟨by simpa using hi, rfl⟩⟩
    | suspends n1 n2 n3 _ hin => subst hin; exact absurd (.input n1 n2 n3) hio
    | faults e ht =>
      obtain ⟨reads, writes, rfl⟩ := ht
      exact .inr ⟨rfl, rfl, rfl, rfl⟩

end Sys2Proof.Machine
end

section
/-! PROOFS. ADD and MUL (41_arithmetic.md), from what any instruction that reads two operands and stores a result does when it meets no fault. -/

namespace Sys2Proof.Machine

/-- The words with a well-formed instruction's opcode and mode digits spell it, and so decode to it. -/
theorem encodedAs_opcode {i : Instr} (hw : i.wellFormed = true) : EncodedAs i.opcode i :=
  fun _ h0 hop h1 h2 h3 => decode_eq_ok_iff_spells.2 ⟨h0, hw, hop, h1, h2, h3⟩

theorem wellFormed_of_writeMode {i : Instr} {m : Mode} (hi : i.writeMode = some m) (hm : m ≠ .immediate) : i.wellFormed = true :=
  bne_iff_ne.2 fun h => hm (Option.some.inj (hi.symm.trans h))

theorem executeFault_of_firstFault {i : Instr} {s : State} (hf : firstFault i s = none) : executeFault i s = none := by
  have ha := accessFault_of_firstFault hf
  rwa [firstFault_eq, ha] at hf

/-- A result that does not overflow is a word, whatever LEN has grown to. -/
theorem wordResult_grow_of_no_overflow {s : State} {r : Int} (h : overflowFault s r = none) (as : List Int) :
    wordResult (s.grow as) r = .ok r := by
  have hgrow : overflowFault (s.grow as) r = none := h
  rw [wordResult_eq, hgrow]

/-- A storing instruction that meets no fault stores its result, grows LEN over its accesses and advances past its three parameters (R100, R47). -/
theorem commit_readReadWrite_of_no_fault {i : Instr} {s : State} {f : State → Int → Int → Except FatalEvent Int} {m1 m2 m3 : Mode} {r : Int}
    (ho : Instr.operands i = [(m1, 1), (m2, 2), (m3, 3)]) (hm : m3 ≠ .immediate) (hf : firstFault i s = none)
    (hr : ∀ as, f (s.grow as) (s.operandValue m1 1) (s.operandValue m2 2) = .ok r) :
    commit s (readReadWrite f m1 m2 m3 s) = .next { s with
      mem := s.mem.write (s.destination m3 3) r
      len := s.lenAfter (accesses i s)
      ip := s.ip + 4 } := by
  have ha := accessFault_of_firstFault hf
  simp only [ho, List.flatMap_cons, List.flatMap_nil, List.append_nil] at ha
  rw [readReadWrite_eq f m1 m2 hm, ha]
  simp only [hr, commit_ok, lenAfter_three ho]

/-- Settles O14: with no fault the sum is a word, and the storing frame stores it. -/
theorem addStoresTheSum : Obligations.AddStoresTheSum := by
  intro s m1 m2 m3 hm i
  have hw : i.wellFormed = true := wellFormed_of_writeMode rfl hm
  refine ⟨encodedAs_opcode hw, fun e => exec_of_firstFault hw, fun hf => ?_⟩
  have hsum : overflowFault s (s.operandValue m1 1 + s.operandValue m2 2) = none := executeFault_of_firstFault hf
  exact commit_readReadWrite_of_no_fault (i := i) rfl hm hf (wordResult_grow_of_no_overflow hsum)

/-- Settles O15: with no fault the product is a word, and the storing frame stores it. -/
theorem mulStoresTheProduct : Obligations.MulStoresTheProduct := by
  intro s m1 m2 m3 hm i
  have hw : i.wellFormed = true := wellFormed_of_writeMode rfl hm
  refine ⟨encodedAs_opcode hw, fun e => exec_of_firstFault hw, fun hf => ?_⟩
  have hproduct : overflowFault s (s.operandValue m1 1 * s.operandValue m2 2) = none := executeFault_of_firstFault hf
  exact commit_readReadWrite_of_no_fault (i := i) rfl hm hf (wordResult_grow_of_no_overflow hproduct)

end Sys2Proof.Machine
end

section
/-! PROOFS. INPUT, OUTPUT and the channel (42_io.md): what each answer makes of the instruction, what each kind of channel answers, and that the channel
is seen through its answer alone (R148). -/

namespace Sys2Proof.Machine

/-! The execute phases of INPUT and OUTPUT, one equation per answer; a read that is answered a value is `inputTo_value`. -/

section execute
variable {d : Nat} {v : Int} {s s1 : State} {c : Channel}

theorem inputTo_of_unanswered (h : chanRead s.cfg.channelKind s.chan = none) : inputTo d s1 s = s := by
  rw [inputTo, h]

theorem inputTo_empty (h : chanRead s.cfg.channelKind s.chan = some (.empty, c)) :
    inputTo d s1 s = { s with runState := .awaitingInput, chan := c } := by
  rw [inputTo, h]
  rfl

theorem inputTo_error {e : Int} (h : chanRead s.cfg.channelKind s.chan = some (.error e, c)) :
    inputTo d s1 s = { s with runState := .fatal, faultCause := some .deviceError, faultInfo := e, chan := c } := by
  rw [inputTo, h]
  rfl

theorem outputWord_of_unanswered (h : chanWrite s.cfg v s.chan = none) : outputWord v s1 s = s := by
  rw [outputWord, h]

theorem outputWord_ok (h : chanWrite s.cfg v s.chan = some (.ok, c)) :
    outputWord v s1 s = { s1 with ip := s1.ip + 2, chan := c } := by
  rw [outputWord, h]
  rfl

theorem outputWord_error {e : Int} (h : chanWrite s.cfg v s.chan = some (.error e, c)) :
    outputWord v s1 s = { s with runState := .fatal, faultCause := some .deviceError, faultInfo := e, chan := c } := by
  rw [outputWord, h]
  rfl

end execute

/-- Settles O16: with no fault INPUT is its execute phase, whose three equations are the three answers. -/
theorem inputFollowsTheChannelsAnswer : Obligations.InputFollowsTheChannelsAnswer := by
  intro s m1 m2 m3 hm i
  have hw : i.wellFormed = true := wellFormed_of_writeMode rfl hm
  refine ⟨encodedAs_opcode hw, fun e => exec_of_firstFault hw, fun hf => ?_⟩
  rw [exec_input_of_no_fault hw hf]
  refine ⟨fun v c hc => ?_, fun c hc => ?_, fun e c hc => ?_⟩
  · rw [inputTo_value hm hc, lenAfter_one (i := i) rfl]
  · rw [inputTo_empty hc]
  · rw [inputTo_error hc]

/-- Settles O17: with no fault OUTPUT is its execute phase, whose equations are the two answers. -/
theorem outputWritesToTheChannel : Obligations.OutputWritesToTheChannel := by
  intro s m1 m2 m3 i
  refine ⟨encodedAs_opcode (i := i) rfl, fun e => exec_of_firstFault rfl, fun hf => ?_⟩
  rw [exec_output_of_no_fault hf]
  refine ⟨fun c hc => ?_, fun e c hc => ?_⟩
  · rw [outputWord_ok hc, ← lenAfter_one (i := i) rfl]
    rfl
  · rw [outputWord_error hc]

/-- Settles O18: with no fault the instruction is its execute phase, and that of an unanswered transaction is the state itself. -/
theorem unansweredTransactionsHold : Obligations.UnansweredTransactionsHold := by
  refine ⟨fun s m1 m2 m3 hm hf hc => ?_, fun s m1 m2 m3 hf hc => ?_⟩
  · rw [exec_input_of_no_fault (wellFormed_of_writeMode rfl hm) hf, inputTo_of_unanswered hc]
  · rw [exec_output_of_no_fault hf, outputWord_of_unanswered hc]

/-! Another channel (R148). -/

/-- Settles O31: an instruction that is no transaction does the same on every channel, and leaves the one it has. -/
theorem onlyIoInstructionsSeeTheChannel : Obligations.OnlyIoInstructionsSeeTheChannel := by
  intro s i kind c hin hout
  have hio : ¬ Instr.IsIo i := by
    rintro (⟨m1, m2, m3⟩ | ⟨m1, m2, m3⟩)
    · exact hin m1 m2 m3 rfl
    · exact hout m1 m2 m3 rfl
  obtain ⟨t, ht, ht'⟩ := exec_onChannel kind c hio s
  exact ⟨t, ht, exec_keeps_chan hio ht, ht'⟩

/-- INPUT on two channels that give the same answer reaches the same state, but for the channel and its kind. -/
theorem execInput_onChannel {s : State} {kind : ChannelKind} {a : ReadAnswer} {c c1 c2 : Channel} (m1 : Mode)
    (hs : chanRead s.cfg.channelKind s.chan = some (a, c1)) (hc : chanRead kind c = some (a, c2)) :
    ∃ t c', execInput m1 s = .next t ∧ execInput m1 (s.onChannel kind c) = .next (t.onChannel kind c') := by
  by_cases hm : m1 = .immediate
  · subst hm
    exact ⟨_, c, execInput_immediate s, execInput_immediate (s.onChannel kind c)⟩
  · rw [execInput_eq hm, execInput_eq hm, accessFault_onChannel, State.onChannel_operandAccesses]
    cases accessFault s.cfg (s.operandAccesses m1 1) with
    | some e => exact ⟨_, c, rfl, rfl⟩
    | none =>
      have hc' : chanRead (s.onChannel kind c).cfg.channelKind (s.onChannel kind c).chan = some (a, c2) := hc
      cases a with
      | value v => exact ⟨_, c2, congrArg _ (inputTo_value hm hs), congrArg _ (inputTo_value hm hc')⟩
      | empty => exact ⟨_, c2, congrArg _ (inputTo_empty hs), congrArg _ (inputTo_empty hc')⟩
      | error e => exact ⟨_, c2, congrArg _ (inputTo_error hs), congrArg _ (inputTo_error hc')⟩

/-- Settles O32: the two states differ in the channel and its kind, which the statement sets alike. -/
theorem inputDependsOnTheAnswerAlone : Obligations.InputDependsOnTheAnswerAlone := by
  intro s m1 m2 m3 kind c a c1 c2 hs hc
  obtain ⟨t, c', ht, ht'⟩ := execInput_onChannel m1 hs hc
  exact ⟨t, t.onChannel kind c', ht, ht', rfl⟩

/-! What each kind of channel answers. -/

theorem below_iff {n : Nat} {bound : Option Nat} : below n bound = true ↔ ∀ b, bound = some b → n < b := by
  cases bound <;> simp [below]

theorem not_below {n b : Nat} {bound : Option Nat} (hb : bound = some b) (h : b ≤ n) : ¬ below n bound = true :=
  fun hn => Nat.not_lt.2 h (below_iff.1 hn b hb)

section read
variable {c : Channel}

theorem chanRead_interactive_nil (h : c.prompt = []) : chanRead .interactive c = none := by
  simp only [chanRead, h]

theorem chanRead_interactive_cons {v : Int} {rest : List Int} (h : c.prompt = v :: rest) :
    chanRead .interactive c = some (.value v, { c with prompt := rest }) := by
  simp only [chanRead, h]

theorem chanRead_buffered_nil (h : c.inq = []) : chanRead .buffered c = some (.empty, c) := by
  simp only [chanRead, h]

theorem chanRead_buffered_cons {v : Int} {rest : List Int} (h : c.inq = v :: rest) :
    chanRead .buffered c = some (.value v, { c with inq := rest }) := by
  simp only [chanRead, h]

theorem chanRead_device_nil (h : c.deviceReads = []) : chanRead .device c = none := by
  simp only [chanRead, h]

theorem chanRead_device_cons {a : ReadAnswer} {rest : List ReadAnswer} (h : c.deviceReads = a :: rest) :
    chanRead .device c = some (a, { c with deviceReads := rest }) := by
  simp only [chanRead, h]

end read

section write
variable {cfg : Config} {v : Int} {c : Channel}

theorem chanWrite_interactive (hk : cfg.channelKind = .interactive) : chanWrite cfg v c = some (.ok, { c with emitted := c.emitted ++ [v] }) := by
  simp only [chanWrite, hk]

theorem chanWrite_buffered (hk : cfg.channelKind = .buffered) :
    chanWrite cfg v c = if below c.outq.length cfg.outqCap = true then some (.ok, { c with outq := c.outq ++ [v] }) else none := by
  simp only [chanWrite, hk]

variable (hk : cfg.channelKind = .device)
include hk

theorem chanWrite_device_nil (h : c.deviceWrites = []) : chanWrite cfg v c = none := by
  simp only [chanWrite, hk, h]

theorem chanWrite_device_ok {rest : List WriteAnswer} (h : c.deviceWrites = .ok :: rest) :
    chanWrite cfg v c = some (.ok, { c with deviceWrites := rest, emitted := c.emitted ++ [v] }) := by
  simp only [chanWrite, hk, h]

theorem chanWrite_device_error {e : Int} {rest : List WriteAnswer} (h : c.deviceWrites = .error e :: rest) :
    chanWrite cfg v c = some (.error e, { c with deviceWrites := rest }) := by
  simp only [chanWrite, hk, h]

end write

/-- Settles O33: the equations of the two transactions, kind by kind, the finite OUTQ below and at its capacity. -/
theorem channelKindsAnswer : Obligations.ChannelKindsAnswer := by
  refine ⟨fun _ => chanRead_interactive_nil, fun _ _ _ => chanRead_interactive_cons, fun _ => chanRead_buffered_nil,
    fun _ _ _ => chanRead_buffered_cons, fun _ _ _ => chanRead_device_cons, fun _ _ _ => chanWrite_interactive,
    fun _ => chanRead_device_nil, fun cfg c v hk h => ?_, fun cfg c v n hk hn h => ?_, fun _ _ _ => chanWrite_device_nil,
    fun _ _ _ _ hk => chanWrite_device_ok hk, fun _ _ _ _ _ hk => chanWrite_device_error hk⟩
  · rw [chanWrite_buffered hk, if_pos (below_iff.2 h)]
  · rw [chanWrite_buffered hk, if_neg (not_below hn h)]

/-! A suspended INPUT that is supplied (R156, R213). -/

/-- An INPUT whose destination may be written meets no fault before the channel is asked. -/
theorem firstFault_input_of_writeLegal {s : State} {m1 m2 m3 : Mode} (h : WriteLegal s m1 1) : firstFault (.input m1 m2 m3) s = none := by
  rw [firstFault_one (m1 := m1) rfl, accessFault_eq_none.2 h.2]
  rfl

/-- A suspended machine whose channel now answers a value completes the INPUT at IP in its next step. -/
theorem State.Inv.step_of_awaiting_value {s : State} (h : s.Inv) (ha : s.runState = .awaitingInput) {v : Int} {c : Channel}
    (hc : chanRead s.cfg.channelKind s.chan = some (.value v, c)) :
    ∃ m1 m2 m3, decode s.instrWord = .ok (.input m1 m2 m3) ∧ step s = .next { s with
      runState := .running
      mem := s.mem.write (s.destination m1 1) v
      len := s.lenAfter (s.operandAccesses m1 1)
      ip := s.ip + 2
      chan := c } := by
  obtain ⟨hv, m1, m2, m3, hd, hw⟩ := h.waitsAtInput ha
  refine ⟨m1, m2, m3, hd, ?_⟩
  have hf : firstFault (.input m1 m2 m3) { s with runState := .running } = none := firstFault_input_of_writeLegal hw
  rw [step_of_awaiting ha, step_of_decode_ok (s := { s with runState := .running }) rfl hv hd,
    exec_input_of_no_fault (decode_eq_ok.1 hd).2.1 hf]
  exact congrArg _ (inputTo_value hw.1 (s := { s with runState := .running }) hc)

/-- Settles O36: the value appended is the whole queue, so the INPUT at IP is answered with it and stores it. -/
theorem suppliedInputCompletesOnce : Obligations.SuppliedInputCompletesOnce := by
  intro s s' v h ha hk hq hs'
  have h' : s'.Inv := h.appendInput hs'
  obtain ⟨-, -, rfl⟩ := appendInput_cases hs'
  have hread : chanRead s.cfg.channelKind { s.chan with inq := s.chan.inq ++ [v] } = some (.value v, { s.chan with inq := [] }) := by
    rw [hk, hq]
    exact chanRead_buffered_cons rfl
  obtain ⟨m1, m2, m3, hd, hstep⟩ := h'.step_of_awaiting_value ha hread
  exact ⟨_, m1, m2, m3, hd, hstep, rfl, Memory.read_write_self _ v h.memory, rfl, rfl, rfl⟩

end Sys2Proof.Machine
end

section
/-! PROOFS. The host's queue commands (R155, R156, R246) to one machine. -/

namespace Sys2Proof.Machine

theorem appendInput_of_below {s : State} {v : Int} (hk : s.cfg.channelKind = .buffered) (hv : s.cfg.isWord v = true)
    (h : ∀ n, s.cfg.inqCap = some n → s.chan.inq.length < n) :
    appendInput v s = some { s with chan := { s.chan with inq := s.chan.inq ++ [v] } } :=
  if_pos ⟨hk, hv, below_iff.2 h⟩

theorem takeOutput_of_cons {s : State} {v : Int} {rest : List Int} (hk : s.cfg.channelKind = .buffered) (h : s.chan.outq = v :: rest) :
    takeOutput s = .taken v { s with chan := { s.chan with outq := rest } } := by
  simp only [takeOutput, hk, h, if_true]

theorem takeOutput_of_nil {s : State} (hk : s.cfg.channelKind = .buffered) (h : s.chan.outq = []) : takeOutput s = .queueEmpty := by
  simp only [takeOutput, hk, h, if_true]

/-- Settles O50: what a successful command is, by the two inversion lemmas, and when there is one, by the commands' own conditions. -/
theorem hostCommandsKeepQueueDiscipline : Obligations.HostCommandsKeepQueueDiscipline := by
  refine ⟨fun s s' v h => ?_, fun s v hk hv h => ⟨_, appendInput_of_below hk hv h⟩, fun s v h => if_neg ?_, fun s s' v h => ?_,
    fun s v rest => takeOutput_of_cons, fun s => takeOutput_of_nil, fun s hk => if_neg hk⟩
  · obtain ⟨hk, hv, rfl⟩ := appendInput_cases h
    exact ⟨hk, hv, rfl, rfl⟩
  · rintro ⟨hk, hv, hb⟩
    rcases h with ⟨n, hn, hfull⟩ | hv' | hk'
    · exact not_below hn hfull hb
    · rw [hv] at hv'
      cases hv'
    · exact hk' hk
  · obtain ⟨hk, hq, hs⟩ := takeOutput_cases h
    refine ⟨hk, hq, ?_⟩
    rw [hs]

end Sys2Proof.Machine
end

section
/-! PROOFS. The host's commands to a network: which networks have them (R152, U8), what AppendInput and TakeOutput do to a shared queue (R156, R246), and
that every command keeps words in the queues (R155). -/

namespace Sys2Proof.Machine

namespace Network

/-! Which networks are accepted, and when there is a command. -/

theorem wired_iff {n : Network} {m : Member} : n.wired m = true ↔ ∀ w, m.wiring = some w →
    m.vm.cfg.channelKind = .buffered ∧ w.inQueue < n.queues.length ∧ w.outQueue < n.queues.length := by
  unfold Network.wired
  cases m.wiring <;> simp [and_assoc]

theorem sameWidth_iff {m m' : Member} : m.sameWidth m' = true ↔ ∀ w w', m.wiring = some w → m'.wiring = some w' →
    w.outQueue = w'.inQueue → m.vm.cfg.width = m'.vm.cfg.width := by
  unfold Member.sameWidth
  cases m.wiring with
  | none => simp
  | some w =>
    cases m'.wiring with
    | none => simp
    | some w' =>
      rw [decide_eq_true_eq]
      refine ⟨fun h u u' hu hu' => ?_, fun h => h w w' rfl rfl⟩
      cases hu
      cases hu'
      exact h

theorem accepted_iff {n : Network} : n.accepted = true ↔ n.readers.Nodup ∧ n.writers.Nodup ∧
    (∀ m ∈ n.members, ∀ w, m.wiring = some w →
      m.vm.cfg.channelKind = .buffered ∧ w.inQueue < n.queues.length ∧ w.outQueue < n.queues.length) ∧
    (∀ m ∈ n.members, ∀ m' ∈ n.members, ∀ w w', m.wiring = some w → m'.wiring = some w' → w.outQueue = w'.inQueue →
      m.vm.cfg.width = m'.vm.cfg.width) := by
  simp only [Network.accepted, Network.exclusive, Bool.and_eq_true, decide_eq_true_eq, List.all_eq_true, wired_iff, sameWidth_iff,
    and_assoc]

theorem admits_of_lt {n : Network} {i : Nat} (h : n.accepted = true) (hi : i < n.members.length) : n.admits i = true := by
  rw [Network.admits, h, decide_eq_true hi]
  rfl

theorem admits_of_getElem? {n : Network} {i : Nat} {m : Member} (h : n.accepted = true) (hm : n.members[i]? = some m) : n.admits i = true :=
  admits_of_lt h (List.getElem?_eq_some_iff.1 hm).1

theorem not_admits {n : Network} (h : n.accepted = false) (i : Nat) : ¬ n.admits i = true := by
  rw [Network.admits, h]
  exact Bool.false_ne_true

end Network

/-- Settles O53: the conditions `accepted` checks one by one, and each command's test of it. -/
theorem concurrencyNeedsExclusiveQueues : Obligations.ConcurrencyNeedsExclusiveQueues := by
  refine fun n => ⟨Network.accepted_iff, fun h i v fuel schedule => ?_, fun h i hi => if_pos (Network.admits_of_lt h hi),
    fun hc h schedule => if_pos ⟨hc, h⟩, fun hc schedule => if_neg fun hs => ?_⟩
  · have hi := Network.not_admits h i
    refine ⟨if_neg hi, if_neg hi, if_neg hi, if_neg hi, if_neg fun hs => ?_⟩
    exact Bool.false_ne_true (h.symm.trans hs.2)
  · exact Bool.false_ne_true (hc.symm.trans hs.1)

/-! AppendInput and TakeOutput to a wired member. -/

namespace Network

section wired
variable {n : Network} {i : Nat} {v : Int} {m : Member} {w : Wiring} (hm : n.members[i]? = some m) (hw : m.wiring = some w)
include hm hw

theorem appendInput_eq_of_wired {n' : Network} (h : n.appendInput i v = some n') :
    m.vm.cfg.isWord v = true ∧ n' = { n with queues := n.queues.set w.inQueue (n.queue w.inQueue ++ [v]) } := by
  obtain ⟨-, m', hm', hv, hcase⟩ := appendInput_cases h
  cases hm.symm.trans hm'
  rcases hcase with ⟨hlone, -⟩ | ⟨w', hw', hn'⟩
  · cases hw.symm.trans hlone
  · cases hw.symm.trans hw'
    exact ⟨hv, hn'⟩

theorem takeOutput_eq_of_wired {n' : Network} (h : n.takeOutput i = .taken v n') :
    ∃ rest, n.queue w.outQueue = v :: rest ∧ n' = { n with queues := n.queues.set w.outQueue rest } := by
  obtain ⟨-, m', hm', hcase⟩ := takeOutput_cases h
  cases hm.symm.trans hm'
  rcases hcase with ⟨hlone, -⟩ | ⟨w', rest, hw', hq, hn'⟩
  · cases hw.symm.trans hlone
  · cases hw.symm.trans hw'
    exact ⟨rest, hq, hn'⟩

variable (hacc : n.accepted = true)
include hacc

theorem attach_buffered : (n.attach m).cfg.channelKind = .buffered := by
  obtain ⟨-, -, hwired, -⟩ := accepted_iff.1 hacc
  rw [attach_cfg]
  exact (hwired m (List.mem_of_getElem? hm) w hw).1

theorem appendInput_of_below (hv : m.vm.cfg.isWord v = true)
    (hc : ∀ c, m.vm.cfg.inqCap = some c → (n.queue w.inQueue).length < c) : ∃ n', n.appendInput i v = some n' := by
  have ha := Machine.appendInput_of_below (s := n.attach m) (v := v) (attach_buffered hm hw hacc) (by rwa [attach_cfg])
    (by rwa [attach_of_wired n hw])
  rw [Network.appendInput, if_pos (admits_of_getElem? hacc hm), hm]
  simp only [ha, hw, Option.some.injEq, exists_eq']

theorem takeOutput_of_cons {rest : List Int} (hq : n.queue w.outQueue = v :: rest) :
    n.takeOutput i = .taken v { n with queues := n.queues.set w.outQueue rest } := by
  have ht := Machine.takeOutput_of_cons (s := n.attach m) (attach_buffered hm hw hacc) (by rw [attach_of_wired n hw, hq])
  rw [Network.takeOutput, if_pos (admits_of_getElem? hacc hm), hm]
  simp only [ht, hw]

theorem takeOutput_of_nil (hq : n.queue w.outQueue = []) : n.takeOutput i = .queueEmpty := by
  have ht := Machine.takeOutput_of_nil (s := n.attach m) (attach_buffered hm hw hacc) (by rw [attach_of_wired n hw, hq])
  rw [Network.takeOutput, if_pos (admits_of_getElem? hacc hm), hm]
  simp only [ht]

end wired

end Network

/-- Settles O54: a member's commands are its machine's on the shared queues, and what changes is put back into the one queue. -/
theorem networkCommandsKeepQueueDiscipline : Obligations.NetworkCommandsKeepQueueDiscipline :=
  fun _ _ _ _ _ _ hm hw => ⟨Network.appendInput_eq_of_wired hm hw, Network.appendInput_of_below hm hw,
    Network.takeOutput_eq_of_wired hm hw, fun hacc _ => Network.takeOutput_of_cons hm hw hacc, Network.takeOutput_of_nil hm hw⟩

/-! Words in the queues of a network (R155). -/

/-- `m` reads or writes queue `k`. -/
def Member.Wires (m : Member) (k : Nat) : Prop := ∃ w, m.wiring = some w ∧ (k = w.inQueue ∨ k = w.outQueue)

theorem isWord_congr {c c' : Config} (h : c.width = c'.width) (v : Int) : c.isWord v = c'.isWord v := by
  unfold Config.isWord
  rw [h]

/-- Where no value is named twice, two members that name the same one are the same. -/
theorem eq_of_nodup_filterMap {α β : Type} {f : α → Option β} {l : List α} (h : (l.filterMap f).Nodup) {a a' : α} (ha : a ∈ l)
    (ha' : a' ∈ l) {b : β} (hb : f a = some b) (hb' : f a' = some b) : a = a' := by
  by_contra hne
  have : Std.Symm fun x y : α => ∀ u, f x = some u → ∀ u', f y = some u' → u ≠ u' :=
    ⟨fun _ _ hxy u hu u' hu' => (hxy u' hu' u hu).symm⟩
  exact (List.pairwise_filterMap.1 h).forall ha ha' hne b hb b hb' rfl

namespace Network

/-- Members that share a queue have one width: they are its writer and its reader, or the same member (R152, entry 23). -/
theorem width_eq_of_wires {n : Network} (hacc : n.accepted = true) {m m' : Member} (hm : m ∈ n.members) (hm' : m' ∈ n.members) {k : Nat}
    (hk : m.Wires k) (hk' : m'.Wires k) : m.vm.cfg.width = m'.vm.cfg.width := by
  obtain ⟨hreaders, hwriters, -, hwidth⟩ := accepted_iff.1 hacc
  obtain ⟨w, hw, hin | hout⟩ := hk <;> obtain ⟨w', hw', hin' | hout'⟩ := hk'
  · rw [eq_of_nodup_filterMap hreaders hm hm' (b := k) (by rw [hw, hin]; rfl) (by rw [hw', hin']; rfl)]
  · exact (hwidth m' hm' m hm w' w hw' hw (hout'.symm.trans hin)).symm
  · exact hwidth m hm m' hm' w w' hw hw' (hout.symm.trans hin')
  · rw [eq_of_nodup_filterMap hwriters hm hm' (b := k) (by rw [hw, hout]; rfl) (by rw [hw', hout']; rfl)]

/-- A member that meets the invariant with its queues in place finds words in them. -/
theorem queue_isWord_of_attach_inv {n : Network} {m : Member} (h : (n.attach m).Inv) {k : Nat} (hk : m.Wires k) :
    ∀ v ∈ n.queue k, m.vm.cfg.isWord v = true := by
  obtain ⟨w, hw, hk⟩ := hk
  have hc := h.channel
  rw [attach_of_wired n hw] at hc
  rcases hk with rfl | rfl
  · exact hc.inq
  · exact hc.outq

/-- It meets the invariant with other queues in place if they hold words. -/
theorem attach_inv_of_queues {n n' : Network} {m : Member} (h : (n.attach m).Inv)
    (hq : ∀ k, m.Wires k → ∀ v ∈ n'.queue k, m.vm.cfg.isWord v = true) : (n'.attach m).Inv := by
  cases hw : m.wiring with
  | none =>
    rw [attach_of_lone n hw] at h
    rwa [attach_of_lone n' hw]
  | some w =>
    rw [attach_of_wired n hw] at h
    rw [attach_of_wired n' hw]
    exact h.withChan { h.channel with inq := hq _ ⟨w, hw, .inl rfl⟩, outq := hq _ ⟨w, hw, .inr rfl⟩ }

section replace
variable {n : Network} (h : n.Inv)
include h

/-- A network in which one member has changed, with its wiring and parameters kept, and no queue but its own, meets the invariant if that
member does: whoever shares a queue with it has its width. -/
theorem Inv.replace {n' : Network} {i : Nat} {m m' : Member} (hm : n.members[i]? = some m) (hset : n'.members = n.members.set i m')
    (hw : m'.wiring = m.wiring) (hcfg : m'.vm.cfg = m.vm.cfg) (hlen : n'.queues.length = n.queues.length)
    (hother : ∀ k, ¬ m.Wires k → n'.queue k = n.queue k) (hinv : (n'.attach m').Inv) : n'.Inv where
  accepted := by rw [accepted_of_shape (hset ▸ shape_set hm hw hcfg) hlen, h.accepted]
  members u hu := by
    rw [hset] at hu
    rcases List.mem_or_eq_of_mem_set hu with hu | rfl
    · refine attach_inv_of_queues (h.members u hu) fun k hk => ?_
      by_cases hmk : m.Wires k
      · have hmk' : m'.Wires k := by unfold Member.Wires at hmk ⊢; rwa [hw]
        have hwidth := width_eq_of_wires h.accepted hu (List.mem_of_getElem? hm) hk hmk
        intro v hv
        rw [isWord_congr hwidth, ← hcfg]
        exact queue_isWord_of_attach_inv hinv hmk' v hv
      · rw [hother k hmk]
        exact queue_isWord_of_attach_inv (h.members u hu) hk
    · exact hinv

variable {i : Nat} {m : Member} (hm : n.members[i]? = some m)
include hm

/-- A member's machine is changed and no queue. -/
theorem Inv.setMachine {t : State} (hcfg : t.cfg = m.vm.cfg) (hinv : (n.attach { m with vm := t }).Inv) :
    Network.Inv { n with members := n.members.set i { m with vm := t } } :=
  h.replace hm rfl rfl hcfg rfl (fun _ _ => rfl) hinv

/-- A machine that is not wired does what keeps its own invariant. -/
theorem Inv.setLoneMachine {t : State} (hw : m.wiring = none) (hcfg : t.cfg = m.vm.cfg) (ht : m.vm.Inv → t.Inv) :
    Network.Inv { n with members := n.members.set i { m with vm := t } } := by
  refine h.setMachine hm hcfg ?_
  have hinv := h.members m (List.mem_of_getElem? hm)
  rw [attach_of_lone n hw] at hinv
  rw [attach_of_lone n (m := { m with vm := t }) hw]
  exact ht hinv

/-- A queue that a member is wired to is given other words of its width. -/
theorem Inv.setQueue {k : Nat} {q : List Int} (hk : m.Wires k) (hq : ∀ v ∈ q, m.vm.cfg.isWord v = true) :
    Network.Inv { n with queues := n.queues.set k q } := by
  have hmem := List.mem_of_getElem? hm
  have hlt : k < n.queues.length := by
    obtain ⟨w, hw, rfl | rfl⟩ := hk
    · exact (wired_lt_of_accepted h.accepted hmem hw).1
    · exact (wired_lt_of_accepted h.accepted hmem hw).2
  have hset : n.members = n.members.set i m := by
    obtain ⟨hi, rfl⟩ := List.getElem?_eq_some_iff.1 hm
    exact (List.set_getElem_self hi).symm
  refine h.replace hm hset rfl rfl List.length_set (fun j hj => ?_) (attach_inv_of_queues (h.members m hmem) fun j hj => ?_)
  · rw [queue_set n hlt, if_neg (fun hjk : j = k => hj (hjk ▸ hk))]
  · rw [queue_set n hlt]
    split
    · exact hq
    · exact queue_isWord_of_attach_inv (h.members m hmem) hj

end replace

/-! Each command keeps the invariant. -/

/-- After a member's step its queues hold what its machine was left with. -/
theorem mem_queue_detach {n : Network} {m : Member} (hacc : n.accepted = true) (hm : m ∈ n.members) {t : State}
    (ht : Machine.step (n.attach m) = .next t) {i k : Nat} (hk : m.Wires k) {v : Int} (hv : v ∈ (n.detach i m t).queue k) :
    v ∈ t.chan.inq ∨ v ∈ t.chan.outq := by
  obtain ⟨w, hw, hk⟩ := hk
  obtain ⟨hin, hout⟩ := wired_lt_of_accepted hacc hm hw
  obtain ⟨ws, hws, -⟩ := (step_queuesMoved ht).outq
  rw [attach_of_wired n hw] at hws
  rw [queue_detach hw hin hout i hws] at hv
  rw [hws, List.mem_append]
  split_ifs at hv with hko hio hki
  · exact (List.mem_append.1 hv).imp_right .inr
  · exact .inr (List.mem_append.1 hv)
  · exact .inl hv
  · exact absurd hk (by simp [hko, hki])

/-- A member's machine after its step meets the invariant with its queues in place if these hold words. -/
theorem attach_stepped_inv {n : Network} {m : Member} {t : State} (h : t.Inv)
    (hq : ∀ k, m.Wires k → ∀ v ∈ n.queue k, t.cfg.isWord v = true) : (n.attach { m with vm := stepped m t }).Inv := by
  cases hw : m.wiring with
  | none => rwa [attach_of_lone n rfl, stepped_of_lone hw]
  | some w =>
    rw [attach_of_wired n rfl, stepped, hw]
    exact h.withChan { h.channel with inq := hq _ ⟨w, hw, .inl rfl⟩, outq := hq _ ⟨w, hw, .inr rfl⟩ }

/-- A step of a member, if there is one (R155). -/
theorem Inv.stepMember {n : Network} (h : n.Inv) (i : Nat) : (n.stepMember i).Inv := by
  cases hm : n.members[i]? with
  | none => simpa only [Network.stepMember, hm] using h
  | some m =>
    have hmem := List.mem_of_getElem? hm
    obtain ⟨t, ht, hd⟩ := stepMember_cases hm
    have hinv : t.Inv := everyStepKeepsTheInvariant _ t (h.members m hmem) ht
    have hcfg : t.cfg = m.vm.cfg := (step_keeps_cfg ht).trans (attach_cfg n m)
    rw [hd]
    refine h.replace hm (detach_members n i m t) rfl ((stepped_cfg m t).trans hcfg) (detach_queues_length n i m t)
      (fun k hk => queue_detach_of_ne t fun w hw => ?_) (attach_stepped_inv hinv fun k hk v hv => ?_)
    · exact ⟨fun hin => hk ⟨w, hw, .inl hin⟩, fun hout => hk ⟨w, hw, .inr hout⟩⟩
    · exact (mem_queue_detach h.accepted hmem ht hk hv).elim (hinv.channel.inq v) (hinv.channel.outq v)

theorem Inv.appendInput {n n' : Network} (h : n.Inv) {i : Nat} {v : Int} (hn' : n.appendInput i v = some n') : n'.Inv := by
  obtain ⟨-, m, hm, hv, ⟨hw, t, ht, rfl⟩ | ⟨w, hw, rfl⟩⟩ := appendInput_cases hn'
  · refine h.setLoneMachine hm hw ?_ fun hinv => hinv.appendInput ht
    obtain ⟨-, -, rfl⟩ := Machine.appendInput_cases ht
    rfl
  · have hk : m.Wires w.inQueue := ⟨w, hw, .inl rfl⟩
    exact h.setQueue hm hk (forall_mem_arrived (queue_isWord_of_attach_inv (h.members m (List.mem_of_getElem? hm)) hk) hv)

theorem Inv.takeOutput {n n' : Network} (h : n.Inv) {i : Nat} {v : Int} (hn' : n.takeOutput i = .taken v n') : n'.Inv := by
  obtain ⟨-, m, hm, ⟨hw, t, ht, rfl⟩ | ⟨w, rest, hw, hq, rfl⟩⟩ := takeOutput_cases hn'
  · refine h.setLoneMachine hm hw ?_ fun hinv => hinv.takeOutput ht
    obtain ⟨-, -, hs⟩ := Machine.takeOutput_cases ht
    rw [hs]
  · have hk : m.Wires w.outQueue := ⟨w, hw, .inr rfl⟩
    have hwords := queue_isWord_of_attach_inv (h.members m (List.mem_of_getElem? hm)) hk
    rw [hq] at hwords
    exact h.setQueue hm hk fun u hu => hwords u (List.mem_cons_of_mem v hu)

/-- Resuming and putting the queues in place may be done in either order. -/
theorem attach_resume (n : Network) (m : Member) : n.attach { m with vm := m.vm.resume } = (n.attach m).resume := by
  unfold Network.attach
  cases m.wiring with
  | none => rfl
  | some w => rw [State.resume_eq, State.resume_eq]

theorem Inv.resume {n : Network} (h : n.Inv) (i : Nat) : (n.resume i).Inv := by
  cases hm : n.members[i]? with
  | none => simpa only [Network.resume, hm] using h
  | some m =>
    have hinv := (h.members m (List.mem_of_getElem? hm)).resume
    rw [← attach_resume] at hinv
    simpa only [Network.resume, hm] using h.setMachine hm (State.resume_cfg m.vm) hinv

theorem Inv.runLoop {n' : Network} {i : Nat} (fuel : Nat) : ∀ {n : Network}, n.Inv → Network.runLoop fuel i n = .returned n' → n'.Inv := by
  induction fuel with
  | zero =>
    intro n h hr
    rw [Network.runLoop] at hr
    split at hr
    · cases hr
    · cases hr
      exact h
  | succ fuel ih =>
    intro n h hr
    rw [Network.runLoop] at hr
    split at hr
    · exact ih (h.stepMember i) hr
    · cases hr
      exact h

theorem Inv.run {n n' : Network} (h : n.Inv) {fuel i : Nat} (hr : n.run fuel i = .returned n') : n'.Inv := by
  unfold Network.run at hr
  split at hr
  · exact (h.resume i).runLoop fuel hr
  · cases hr

theorem Inv.foldl_stepMember {n : Network} (h : n.Inv) (schedule : List Nat) : (schedule.foldl Network.stepMember n).Inv := by
  induction schedule generalizing n with
  | nil => exact h
  | cons i schedule ih => exact ih (h.stepMember i)

/-- The host appends to a queue by AppendInput to the member that reads it. -/
theorem append_cases {n n' : Network} {k : Nat} {v : Int} (h : n.append k v = some n') : ∃ i, n.appendInput i v = some n' := by
  unfold Network.append at h
  split at h
  · cases h
  · exact ⟨_, h⟩

theorem interleave_cases {n n' : Network} {schedule : List Nat} (h : n.interleave schedule = some n') :
    n' = schedule.foldl Network.stepMember n := by
  unfold Network.interleave at h
  split at h
  · exact (Option.some.inj h).symm
  · cases h

end Network

/-- Settles O56: each command is a step of a member, a queue given other words, or a machine's own command, and a run is steps. -/
theorem networkCommandsKeepTheInvariant : Obligations.NetworkCommandsKeepTheInvariant := by
  refine fun n h => ⟨fun i n' hn' => ?_, fun i v n' => h.appendInput, fun k v n' hn' => ?_, fun i v n' => h.takeOutput,
    fun fuel i n' => h.run, fun schedule n' hn' => ?_⟩
  · obtain ⟨-, -, -, rfl⟩ := Network.step_cases hn'
    exact h.stepMember i
  · obtain ⟨i, hi⟩ := Network.append_cases hn'
    exact h.appendInput hi
  · rw [Network.interleave_cases hn']
    exact h.foldl_stepMember schedule

end Sys2Proof.Machine
end

section
/-! PROOFS. JUMP-IF-TRUE and JUMP-IF-FALSE (43_jumps.md), from what a jump does when it meets no fault, and the fetch that judges where it lands (R173). -/

namespace Sys2Proof.Machine

/-- A jump meets no target fault exactly when it is not taken to a negative target (R172). -/
theorem targetFault_eq_none {taken : Prop} [Decidable taken] {t : Int} : targetFault taken t = none ↔ (taken → 0 ≤ t) := by
  simp [targetFault]

/-- A jump that meets no fault goes to its target if it is taken and else advances past its two parameters, LEN grown over its accesses either way
(R113, R47). -/
theorem commit_readReadJump_of_no_fault {i : Instr} {s : State} {cond : Int → Bool} {m1 m2 : Mode} {taken : Prop} [Decidable taken]
    (ho : Instr.operands i = [(m1, 1), (m2, 2)]) (hc : cond (s.operandValue m1 1) = true ↔ taken)
    (hx : executeFault i s = targetFault taken (s.operandValue m2 2)) (hf : firstFault i s = none) :
    commit s (readReadJump cond m1 m2 s) = .next { s with
      len := s.lenAfter (accesses i s)
      ip := if taken then (s.operandValue m2 2).toNat else s.ip + 3 } := by
  have ha := accessFault_of_firstFault hf
  simp only [ho, List.flatMap_cons, List.flatMap_nil, List.append_nil] at ha
  have htarget : taken → 0 ≤ s.operandValue m2 2 := targetFault_eq_none.1 (hx.symm.trans (executeFault_of_firstFault hf))
  have hno : ¬ (taken ∧ s.operandValue m2 2 < 0) := fun h => Int.not_lt.2 (htarget h.1) h.2
  rw [readReadJump_eq, ha]
  simp only [hc, if_neg hno, commit_ok, lenAfter_two ho]

/-- Settles O19: with no fault the jump frame is taken when the word tested is not 0. -/
theorem jumpIfTrueJumpsOnNonZero : Obligations.JumpIfTrueJumpsOnNonZero := by
  intro s m1 m2 m3 i
  exact ⟨encodedAs_opcode (i := i) rfl, fun e => exec_of_firstFault rfl, commit_readReadJump_of_no_fault (i := i) rfl bne_iff_ne rfl⟩

/-- Settles O20: with no fault the jump frame is taken when the word tested is 0. -/
theorem jumpIfFalseJumpsOnZero : Obligations.JumpIfFalseJumpsOnZero := by
  intro s m1 m2 m3 i
  exact ⟨encodedAs_opcode (i := i) rfl, fun e => exec_of_firstFault rfl, commit_readReadJump_of_no_fault (i := i) rfl beq_iff_eq rfl⟩

/-- With both operands readable, all that can fault is the execute phase. -/
theorem firstFault_of_readLegal_two {i : Instr} {s : State} {m1 m2 : Mode} (ho : Instr.operands i = [(m1, 1), (m2, 2)])
    (h1 : ReadLegal s m1 1) (h2 : ReadLegal s m2 2) : firstFault i s = executeFault i s := by
  rw [firstFault_two ho, accessFault_append, accessFault_eq_none.2 h1, accessFault_eq_none.2 h2]

/-- A fetch at or beyond LEN reads the word 0, which names no instruction (R24, R79). -/
theorem State.Inv.step_of_len_le_ip {s : State} (h : s.Inv) (hr : s.runState = .running) (hv : ValidAddr s.cfg s.ip) (hip : s.len ≤ s.ip) :
    step s = .next (s.enterFatal ⟨.unknownOpcode, 0⟩) := by
  have hword : s.instrWord = 0 := h.read_of_len_le hip
  have hdecode : decode s.instrWord = .error .unknownOpcode := by
    rw [hword]
    rfl
  rw [step_of_decode_error hr hv hdecode, hword]
  rfl

/-- Settles O37: a taken jump to a target that is not negative meets no fault, so its own statement gives IP; the next fetch faults at or above the
capacity, and reads 0 from LEN on. -/
theorem jumpTargetsAreJudgedByTheNextFetch : Obligations.JumpTargetsAreJudgedByTheNextFetch := by
  refine ⟨fun s m1 m2 m3 h1 h2 ht => ⟨fun hc => ?_, fun hc => ?_⟩, fun s h hr => ⟨step_of_not_validAddr hr, h.step_of_len_le_ip hr⟩⟩
  · have hf : firstFault (.jumpIfTrue m1 m2 m3) s = none :=
      (firstFault_of_readLegal_two rfl h1 h2).trans (targetFault_eq_none.2 fun _ => ht)
    exact ⟨_, (jumpIfTrueJumpsOnNonZero s m1 m2 m3).2.2 hf, if_pos hc, rfl⟩
  · have hf : firstFault (.jumpIfFalse m1 m2 m3) s = none :=
      (firstFault_of_readLegal_two rfl h1 h2).trans (targetFault_eq_none.2 fun _ => ht)
    exact ⟨_, (jumpIfFalseJumpsOnZero s m1 m2 m3).2.2 hf, if_pos hc, rfl⟩

end Sys2Proof.Machine
end

section
/-! PROOFS. LESS-THAN and EQUALS (44_compare.md). Their result raises nothing of its own, so the storing frame stores it whenever no access faults. -/

namespace Sys2Proof.Machine

/-- The order tested is that of signed integers (R180). -/
theorem lessThanWord_eq (a b : Int) : lessThanWord a b = if a < b then 1 else 0 := rfl

/-- Whole words are compared (R181). -/
theorem equalsWord_eq (a b : Int) : equalsWord a b = if a = b then 1 else 0 := rfl

/-- Settles O21: with no fault the storing frame stores the word the signed comparison gives. -/
theorem lessThanStoresOneOrZero : Obligations.LessThanStoresOneOrZero := by
  intro s m1 m2 m3 hm i
  have hw : i.wellFormed = true := wellFormed_of_writeMode rfl hm
  refine ⟨encodedAs_opcode hw, fun e => exec_of_firstFault hw, fun hf => ?_⟩
  rw [← lessThanWord_eq]
  exact commit_readReadWrite_of_no_fault (i := i) rfl hm hf fun _ => rfl

/-- Settles O22: with no fault the storing frame stores the word the test for equality gives. -/
theorem equalsStoresOneOrZero : Obligations.EqualsStoresOneOrZero := by
  intro s m1 m2 m3 hm i
  have hw : i.wellFormed = true := wellFormed_of_writeMode rfl hm
  refine ⟨encodedAs_opcode hw, fun e => exec_of_firstFault hw, fun hf => ?_⟩
  rw [← equalsWord_eq]
  exact commit_readReadWrite_of_no_fault (i := i) rfl hm hf fun _ => rfl

end Sys2Proof.Machine
end

section
/-! PROOFS. ADJUST-BASE and HALT (45_base_halt.md): the one instruction that writes RB, and the one that has no operand to fault at. -/

namespace Sys2Proof.Machine

/-- With no fault ADJUST-BASE adds its operand, read with the RB in force before the instruction, and advances past its one parameter (R190). -/
theorem exec_adjustBase_of_no_fault {s : State} {m1 m2 m3 : Mode} (hf : firstFault (.adjustBase m1 m2 m3) s = none) :
    exec (.adjustBase m1 m2 m3) s = .next { s with
      rb := s.rb + s.operandValue m1 1
      len := s.lenAfter (accesses (.adjustBase m1 m2 m3) s)
      ip := s.ip + 2 } := by
  have hsum : overflowFault s (s.rb + s.operandValue m1 1) = none := executeFault_of_firstFault hf
  rw [exec, execAdjustBase_eq, accessFault_one_of_firstFault rfl hf, hsum, ← lenAfter_one (i := .adjustBase m1 m2 m3) rfl]

/-- Settles O23: with no fault neither the operand's accesses nor the sum raises, and the new base is the sum. -/
theorem adjustBaseAddsToRb : Obligations.AdjustBaseAddsToRb := by
  intro s m1 m2 m3 i
  exact ⟨encodedAs_opcode (i := i) rfl, fun e => exec_of_firstFault rfl, exec_adjustBase_of_no_fault⟩

/-- HALT accesses nothing and is the transition to Halted (R191, R201). -/
theorem exec_halt (s : State) (m1 m2 m3 : Mode) : exec (.halt m1 m2 m3) s = .next s.halt := rfl

/-- Settles O24: HALT has no write operand, so any mode digits are legal, and the transition to Halted writes RUN_STATE only. -/
theorem haltChangesRunStateOnly : Obligations.HaltChangesRunStateOnly := by
  intro s m1 m2 m3
  exact ⟨encodedAs_opcode (i := .halt m1 m2 m3) rfl, exec_halt s m1 m2 m3⟩

end Sys2Proof.Machine
end

section
/-! PROOFS. Run states and fatal conditions (60_exceptions.md): where Halted comes from, which instruction can raise which cause (R206), what resuming a
suspended machine does (R213), and when Run returns (R248). -/

namespace Sys2Proof.Machine

/-! Halted is entered by HALT alone (R201). -/

/-- A live machine at a HALT halts, suspended or not. -/
theorem step_of_decode_halt {s : State} {m1 m2 m3 : Mode} (hl : s.runState = .running ∨ s.runState = .awaitingInput)
    (hv : ValidAddr s.cfg s.ip) (hd : decode s.instrWord = .ok (.halt m1 m2 m3)) : step s = .next { s with runState := .halted } := by
  obtain ⟨hrun, hawait⟩ := stepRunsTheDecodedInstruction s _ hv hd
  rcases hl with hr | ha
  · exact (hrun hr).trans (exec_halt s m1 m2 m3)
  · exact (hawait ha).trans (exec_halt _ m1 m2 m3)

/-- Of the effects of a step only a HALT's leads to Halted. -/
theorem StepEffect.halt_of_halted {s t : State} (h : StepEffect s t) (hs : s.runState ≠ .halted) (ht : t.runState = .halted) :
    ValidAddr s.cfg s.ip ∧ (∃ m1 m2 m3, decode s.instrWord = .ok (.halt m1 m2 m3)) ∧ t = { s with runState := .halted } := by
  cases h with
  | fetchFault _ => cases ht
  | illegal _ _ _ => cases ht
  | instr i _ hv hd _ he =>
    cases he.runOutcome with
    | runsOn hr _ _ => exact absurd (hr.symm.trans ht) hs
    | halts m1 m2 m3 hi h => exact ⟨hv, ⟨m1, m2, m3, hi ▸ hd⟩, h⟩
    | suspends _ _ _ _ _ _ h => rw [h] at ht; cases ht
    | faults e h => obtain ⟨_, _, rfl⟩ := h; cases ht

/-- A step that leads to Halted is one of a live machine at a HALT. -/
theorem halt_of_step_halted {s t : State} (hs : s.runState ≠ .halted) (h : step s = .next t) (ht : t.runState = .halted) :
    (s.runState = .running ∨ s.runState = .awaitingInput) ∧ ValidAddr s.cfg s.ip ∧
      (∃ m1 m2 m3, decode s.instrWord = .ok (.halt m1 m2 m3)) ∧ t = { s with runState := .halted } := by
  rcases step_next h with ⟨-, rfl⟩ | ⟨hl, he⟩
  · exact absurd ht hs
  · obtain ⟨hv, hd, h⟩ := he.halt_of_halted (by rw [State.resume_running hl]; nofun) ht
    rw [State.resume_cfg, State.resume_ip] at hv
    rw [State.resume_instrWord] at hd
    rw [State.resume_eq] at h
    exact ⟨hl, hv, hd, h⟩

/-- Settles O8: a step that leads to Halted has a HALT's effect on the resumed machine, and a HALT at IP has it on every live one. -/
theorem haltedOnlyByHalt : Obligations.HaltedOnlyByHalt := by
  refine fun s t hs h => ⟨⟨fun ht => ?_, fun ⟨hl, hv, m1, m2, m3, hd⟩ => ?_⟩, fun ht => ?_⟩
  · obtain ⟨hl, hv, hd, -⟩ := halt_of_step_halted hs h ht
    exact ⟨hl, hv, hd⟩
  · cases h.symm.trans (step_of_decode_halt hl hv hd)
    rfl
  · obtain ⟨-, -, -, h⟩ := halt_of_step_halted hs h ht
    exact h

/-! Causes by instruction (R206). -/

theorem addrFault_cause {c : Config} {a : Int} {e : FatalEvent} (h : addrFault c a = some e) :
    e.cause = .negativeAddress ∨ e.cause = .capacityExceeded := by
  unfold addrFault at h
  split_ifs at h
  · cases h; exact .inl rfl
  · cases h; exact .inr rfl

theorem accessFault_cause {c : Config} {as : List Int} {e : FatalEvent} (h : accessFault c as = some e) :
    e.cause = .negativeAddress ∨ e.cause = .capacityExceeded := by
  obtain ⟨o, ho, rfl⟩ := List.exists_of_findSome?_eq_some h
  obtain ⟨a, -, ha⟩ := List.mem_map.1 ho
  exact addrFault_cause ha

theorem overflowFault_cause {s : State} {r : Int} {e : FatalEvent} (h : overflowFault s r = some e) : e.cause = .arithmeticOverflow := by
  unfold overflowFault at h
  split at h <;> cases h
  rfl

theorem targetFault_cause {taken : Prop} [Decidable taken] {t : Int} {e : FatalEvent} (h : targetFault taken t = some e) :
    e.cause = .negativeAddress := by
  unfold targetFault at h
  split at h <;> cases h
  rfl

/-- The cause an instruction's execute phase can raise, the channel's answer included (R118 item 4). -/
def Instr.executeCause : Instr → Option FaultCause
  | .add _ _ _ | .mul _ _ _ | .adjustBase _ _ _ => some .arithmeticOverflow
  | .input _ _ _ | .output _ _ _ => some .deviceError
  | .jumpIfTrue _ _ _ | .jumpIfFalse _ _ _ => some .negativeAddress
  | .lessThan _ _ _ | .equals _ _ _ | .halt _ _ _ => none

theorem executeFault_cause {i : Instr} {s : State} {e : FatalEvent} (h : executeFault i s = some e) :
    Instr.executeCause i = some e.cause := by
  cases i with
  | add | mul | adjustBase => exact congrArg some (overflowFault_cause h).symm
  | jumpIfTrue | jumpIfFalse => exact congrArg some (targetFault_cause h).symm
  | input | output | lessThan | equals | halt => cases h

/-- The causes an instruction can raise: those of an access, and its execute phase's. -/
def MayRaise (i : Instr) (c : FaultCause) : Prop := c = .negativeAddress ∨ c = .capacityExceeded ∨ Instr.executeCause i = some c

theorem mayRaise_of_firstFault {i : Instr} {s : State} {e : FatalEvent} (h : firstFault i s = some e) : MayRaise i e.cause := by
  rw [firstFault_eq] at h
  split at h
  · rename_i hacc
    cases h
    rcases accessFault_cause hacc with hn | hc
    · exact .inl hn
    · exact .inr (.inl hc)
  · exact .inr (.inr (executeFault_cause h))

/-- A well-formed instruction that is Fatal met its first fault, or the channel answered with an error. -/
theorem Effect.mayRaise {i : Instr} {s t : State} (h : Effect i s t) (hw : i.wellFormed = true) (hr : s.runState = .running)
    (ht : t.runState = .fatal) : ∃ c, t.faultCause = some c ∧ MayRaise i c := by
  cases h with
  | fatal e he =>
    rcases he with hf | hf
    · exact ⟨e.cause, rfl, mayRaise_of_firstFault hf⟩
    · cases hw.symm.trans hf
  | readError _ _ _ _ _ hi | writeError _ _ _ _ _ hi => subst hi; exact ⟨.deviceError, rfl, .inr (.inr rfl)⟩
  | store | jump | base | input | output | held => cases hr.symm.trans ht
  | suspend | halt => cases ht

/-- Settles O12: the causes an instruction may raise are its row of the table, and HALT ends in Halted. -/
theorem instructionsRaiseOnlyTheirCauses : Obligations.InstructionsRaiseOnlyTheirCauses := by
  intro s t i hw hr h ht
  obtain ⟨c, hc, hmay⟩ := (effect_of_exec h).mayRaise hw hr ht
  cases i with
  | halt => cases h; cases ht
  | add | mul | input | output | jumpIfTrue | jumpIfFalse | lessThan | equals | adjustBase =>
    rw [hc]
    rcases hmay with rfl | rfl | hown
    · simp
    · simp
    · cases hown <;> simp

/-! Resuming (R213). -/

/-- A suspended machine runs as the Running one it becomes. -/
theorem run_of_awaiting {s : State} (h : s.runState = .awaitingInput) (fuel : Nat) : run fuel s = run fuel { s with runState := .running } := by
  rw [run, run, State.resume_of_awaiting s h, State.resume_of_running _ rfl]

/-- A suspended machine whose channel still answers Empty is suspended again in its next step. -/
theorem State.Inv.step_of_awaiting_empty {s : State} (h : s.Inv) (ha : s.runState = .awaitingInput) {c : Channel}
    (hc : chanRead s.cfg.channelKind s.chan = some (.empty, c)) : step s = .next { s with chan := c } := by
  obtain ⟨hv, m1, m2, m3, hd, hw⟩ := h.waitsAtInput ha
  have hf : firstFault (.input m1 m2 m3) { s with runState := .running } = none := firstFault_input_of_writeLegal hw
  rw [step_of_awaiting ha, step_of_decode_ok (s := { s with runState := .running }) rfl hv hd,
    exec_input_of_no_fault (decode_eq_ok.1 hd).2.1 hf, inputTo_empty (s := { s with runState := .running }) hc, ← ha]

/-- Settles O35: a suspended machine stands at its INPUT and steps as the Running one, so the channel's answer now decides. -/
theorem resumeReattemptsTheInput : Obligations.ResumeReattemptsTheInput := by
  intro s h ha
  obtain ⟨-, m1, m2, m3, hd, -⟩ := h.waitsAtInput ha
  refine ⟨step_of_awaiting ha, run_of_awaiting ha, m1, m2, m3, hd, fun v c hc => ?_, fun c => h.step_of_awaiting_empty ha⟩
  obtain ⟨n1, n2, n3, hd', hstep⟩ := h.step_of_awaiting_value ha hc
  cases hd.symm.trans hd'
  exact ⟨_, hstep, rfl, Memory.read_write_self _ v h.memory, fun b => Memory.read_write_of_ne v, rfl, rfl, rfl⟩

/-! Run, and the states it does not start from (R200, R248). -/

theorem runLoop_of_not_running {s : State} (h : s.runState ≠ .running) (fuel : Nat) : runLoop fuel s = .returned s := by
  cases fuel with
  | zero => exact if_neg h
  | succ _ => exact if_neg h

theorem runLoop_succ_of_running {s t : State} (hr : s.runState = .running) (h : step s = .next t) (fuel : Nat) :
    runLoop (fuel + 1) s = runLoop fuel t := by
  rw [step_of_live (.inl hr), State.resume_of_running s hr] at h
  rw [runLoop, if_pos hr, h]

theorem State.resume_of_not_awaiting {s : State} (h : s.runState ≠ .awaitingInput) : s.resume = s := by
  rw [State.resume_eq, if_neg h]

/-- Settles O10: no Step changes a terminal state (by induction on their number), and Run's loop is not entered. -/
theorem terminalStatesNeverChange : Obligations.TerminalStatesNeverChange := by
  intro s hs
  have hlive : s.runState ≠ .running ∧ s.runState ≠ .awaitingInput := by
    rcases hs with hs | hs <;> rw [hs] <;> exact ⟨nofun, nofun⟩
  obtain ⟨hr, ha⟩ := hlive
  refine ⟨fun n => ?_, fun fuel => ?_⟩
  · induction n with
    | zero => rfl
    | succ n ih => rw [core_run_succ n (step_of_terminal hs), ih]
  · rw [run, State.resume_of_not_awaiting ha]
    exact runLoop_of_not_running hr fuel

theorem step_resume (s : State) : step s.resume = step s := by
  by_cases ha : s.runState = .awaitingInput
  · rw [State.resume_of_awaiting s ha, step_of_awaiting ha]
  · rw [State.resume_of_not_awaiting ha]

/-- Steps that lead out of Running from the resumed state do so from the state itself: the first of them resumes it, and with no step it was not
suspended. -/
theorem core_run_of_resume {n : Nat} {s t : State} (h : Host.Core.run Sys2Proof.core n s.resume = .next t) (ht : t.runState ≠ .running) :
    Host.Core.run Sys2Proof.core n s = .next t := by
  cases n with
  | zero =>
    cases h
    rw [core_run_zero, State.resume_of_not_awaiting fun ha => ht (State.resume_running (.inr ha))]
  | succ n =>
    obtain ⟨u, hs, hu⟩ := core_run_succ_cases h
    rw [core_run_succ n ((step_resume s).symm.trans hs), hu]

/-- `t` is what Run's loop returns from `s` under this fuel or more: it is out of Running, and Steps lead to it. -/
structure LoopReturns (fuel : Nat) (s t : State) : Prop where
  leaves : t.runState ≠ .running
  steps : ∃ n, n ≤ fuel ∧ Host.Core.run Sys2Proof.core n s = .next t
  returned : ∀ more, runLoop (fuel + more) s = .returned t

theorem LoopReturns.of_not_running {s : State} (hr : s.runState ≠ .running) (fuel : Nat) : LoopReturns fuel s s :=
  ⟨hr, ⟨0, Nat.zero_le fuel, rfl⟩, fun _ => runLoop_of_not_running hr _⟩

theorem LoopReturns.of_step {fuel : Nat} {s u t : State} (hr : s.runState = .running) (hs : step s = .next u) (h : LoopReturns fuel u t) :
    LoopReturns (fuel + 1) s t := by
  obtain ⟨ht, ⟨n, hn, hrun⟩, hmore⟩ := h
  refine ⟨ht, ⟨n + 1, Nat.succ_le_succ hn, by rw [core_run_succ n hs, hrun]⟩, fun more => ?_⟩
  rw [Nat.succ_add, runLoop_succ_of_running hr hs, hmore]

theorem loopReturns_of_runLoop {fuel : Nat} {s t : State} (h : runLoop fuel s = .returned t) : LoopReturns fuel s t := by
  induction fuel generalizing s with
  | zero =>
    rw [runLoop] at h
    split at h <;> cases h
    exact .of_not_running ‹_› 0
  | succ fuel ih =>
    by_cases hr : s.runState = .running
    · obtain ⟨u, hs, -⟩ := stepHasOneOfFourOutcomes s hr
      rw [runLoop_succ_of_running hr hs] at h
      exact (ih h).of_step hr hs
    · rw [runLoop_of_not_running hr] at h
      cases h
      exact .of_not_running hr _

/-- Run's loop takes the Steps that lead out of Running when it has the fuel for them. -/
theorem runLoop_of_core_run {n : Nat} {s t : State} (h : Host.Core.run Sys2Proof.core n s = .next t) (ht : t.runState ≠ .running)
    (hbefore : ∀ k u, k < n → Host.Core.run Sys2Proof.core k s = .next u → u.runState = .running) : runLoop n s = .returned t := by
  induction n generalizing s with
  | zero =>
    cases h
    exact runLoop_of_not_running ht 0
  | succ n ih =>
    obtain ⟨u, hs, hu⟩ := core_run_succ_cases h
    rw [runLoop_succ_of_running (hbefore 0 s n.succ_pos rfl) hs]
    exact ih hu fun k v hk hv => hbefore (k + 1) v (Nat.succ_lt_succ hk) ((core_run_succ k hs).trans hv)

/-- Settles O48, by induction on the fuel one way and on the steps the other; Run is its loop from the resumed state. -/
theorem runReturnsOnlyOutsideRunning : Obligations.RunReturnsOnlyOutsideRunning := by
  refine ⟨fun fuel s t h => ?_, fun n s t => runLoop_of_core_run⟩
  obtain ⟨ht, ⟨n, hn, hrun⟩, hmore⟩ := loopReturns_of_runLoop h
  exact ⟨ht, ⟨n, hn, core_run_of_resume hrun ht⟩, hmore⟩

end Sys2Proof.Machine
end

section
/-! PROOFS. The program text (R243): what each part of the parser takes, from a digit up to the whole text, as an equivalence with the text written
out. Splitting at commas and joining with them are the library's `splitOn` and `intercalate`, which invert each other. -/

namespace Sys2Proof.Machine

/-! Digits and integers. -/

/-- The character of a decimal digit. -/
def digitChar (d : Fin 10) : Char := Char.ofNat (48 + d.val)

theorem IntText.chars_eq (t : IntText) : t.chars = (if t.negative then ['-'] else []) ++ t.digits.map digitChar := rfl

/-- No digit is a minus sign, a comma or a line feed. -/
theorem digitChar_ne_separator : ∀ d : Fin 10, digitChar d ≠ '-' ∧ digitChar d ≠ ',' ∧ digitChar d ≠ '\n' := by
  decide

theorem digitValue_digitChar : ∀ d : Fin 10, digitValue (digitChar d) = some d.val := by
  decide

/-- The characters with a value are the ten digits. -/
theorem digitValue_eq_some {c : Char} {n : Nat} : digitValue c = some n ↔ ∃ d : Fin 10, c = digitChar d ∧ n = d.val := by
  constructor
  · intro h
    unfold digitValue at h
    split_ifs at h with hc
    cases h
    refine ⟨⟨c.toNat - 48, by omega⟩, ?_, rfl⟩
    rw [digitChar, Nat.add_sub_cancel' hc.1, Char.ofNat_toNat]
  · rintro ⟨d, rfl, rfl⟩
    exact digitValue_digitChar d

theorem parseDigits_cons_eq_some {acc n : Nat} {c : Char} {cs : List Char} :
    parseDigits acc (c :: cs) = some n ↔ ∃ k, digitValue c = some k ∧ parseDigits (acc * 10 + k) cs = some n := by
  rw [parseDigits]
  cases digitValue c <;> simp

theorem parseDigits_eq_some {cs : List Char} : ∀ {acc n : Nat}, parseDigits acc cs = some n ↔
    ∃ ds : List (Fin 10), cs = ds.map digitChar ∧ n = ds.foldl (fun acc d => 10 * acc + d.val) acc := by
  induction cs with
  | nil =>
    intro acc n
    constructor
    · rintro ⟨⟩
      exact ⟨[], rfl, rfl⟩
    · rintro ⟨ds, hcs, rfl⟩
      rw [List.map_eq_nil_iff.1 hcs.symm]
      rfl
  | cons c cs ih =>
    intro acc n
    rw [parseDigits_cons_eq_some]
    constructor
    · rintro ⟨k, hk, hn⟩
      obtain ⟨d, rfl, rfl⟩ := digitValue_eq_some.1 hk
      obtain ⟨ds, rfl, rfl⟩ := ih.1 hn
      exact ⟨d :: ds, rfl, by rw [List.foldl_cons, Nat.mul_comm]⟩
    · rintro ⟨ds, hcs, rfl⟩
      obtain ⟨d, ds, rfl, rfl, rfl⟩ := List.map_eq_cons_iff.1 hcs.symm
      exact ⟨d, digitValue_digitChar d, ih.2 ⟨ds, rfl, by rw [List.foldl_cons, Nat.mul_comm]⟩⟩

theorem parseNatural_eq_some {cs : List Char} {n : Nat} : parseNatural cs = some n ↔
    ∃ ds : List (Fin 10), ds ≠ [] ∧ cs = ds.map digitChar ∧ n = ds.foldl (fun acc d => 10 * acc + d.val) 0 := by
  unfold parseNatural
  split_ifs with h
  · refine iff_of_false nofun ?_
    rintro ⟨ds, hne, hcs, -⟩
    exact hne (List.map_eq_nil_iff.1 (hcs.symm.trans h))
  · rw [parseDigits_eq_some]
    refine exists_congr fun ds => (and_iff_right_of_imp ?_).symm
    rintro ⟨rfl, -⟩ rfl
    exact h rfl

/-- An integer is parsed exactly from its characters (R243). -/
theorem parseInteger_eq_some {cs : List Char} {v : Int} : parseInteger cs = some v ↔
    ∃ t : IntText, t.digits ≠ [] ∧ cs = t.chars ∧ v = t.value := by
  constructor
  · intro h
    cases cs with
    | nil => cases h
    | cons c cs =>
      rw [parseInteger] at h
      split_ifs at h with hc
      all_goals
        obtain ⟨n, hn, rfl⟩ := Option.map_eq_some_iff.1 h
        obtain ⟨ds, hne, hcs, rfl⟩ := parseNatural_eq_some.1 hn
      · exact ⟨⟨true, ds⟩, hne, by rw [hc, hcs]; rfl, rfl⟩
      · exact ⟨⟨false, ds⟩, hne, hcs, rfl⟩
  · rintro ⟨⟨negative, ds⟩, hne, rfl, rfl⟩
    have hnat := parseNatural_eq_some.2 ⟨ds, hne, rfl, rfl⟩
    cases negative with
    | true =>
      change parseInteger ('-' :: ds.map digitChar) = _
      rw [parseInteger, if_pos rfl, hnat]
      rfl
    | false =>
      change parseInteger (ds.map digitChar) = _
      obtain ⟨d, ds, rfl⟩ := List.exists_cons_of_ne_nil hne
      rw [List.map_cons] at hnat ⊢
      rw [parseInteger, if_neg (digitChar_ne_separator d).1, hnat]
      rfl

/-- An integer is written without commas and line feeds. -/
theorem IntText.separator_notMem_chars (t : IntText) : ',' ∉ t.chars ∧ '\n' ∉ t.chars := by
  have hdigits : ',' ∉ t.digits.map digitChar ∧ '\n' ∉ t.digits.map digitChar := by
    simp only [List.mem_map, not_exists, not_and]
    exact ⟨fun d _ => (digitChar_ne_separator d).2.1, fun d _ => (digitChar_ne_separator d).2.2⟩
  rw [chars_eq]
  cases t.negative <;> simpa using hdigits

theorem parsePieces_cons_eq_some {p : List Char} {ps : List (List Char)} {vs : List Int} :
    parsePieces (p :: ps) = some vs ↔ ∃ u us, parseInteger p = some u ∧ parsePieces ps = some us ∧ vs = u :: us := by
  rw [parsePieces]
  cases parseInteger p <;> cases parsePieces ps <;> simp [eq_comm]

/-- Pieces are parsed exactly when each is an integer's characters. -/
theorem parsePieces_eq_some {ps : List (List Char)} : ∀ {vs : List Int}, parsePieces ps = some vs ↔
    ∃ items : List IntText, (∀ t ∈ items, t.digits ≠ []) ∧ ps = items.map IntText.chars ∧ vs = items.map IntText.value := by
  induction ps with
  | nil =>
    intro vs
    simp [parsePieces, eq_comm]
  | cons p ps ih =>
    intro vs
    rw [parsePieces_cons_eq_some]
    constructor
    · rintro ⟨u, us, hu, hus, rfl⟩
      obtain ⟨t, ht, rfl, rfl⟩ := parseInteger_eq_some.1 hu
      obtain ⟨items, hitems, rfl, rfl⟩ := ih.1 hus
      exact ⟨t :: items, List.forall_mem_cons.2 ⟨ht, hitems⟩, rfl, rfl⟩
    · rintro ⟨items, hitems, hps, rfl⟩
      obtain ⟨t, items, rfl, rfl, rfl⟩ := List.map_eq_cons_iff.1 hps.symm
      obtain ⟨ht, hitems⟩ := List.forall_mem_cons.1 hitems
      exact ⟨t.value, items.map IntText.value, parseInteger_eq_some.2 ⟨t, ht, rfl, rfl⟩, ih.2 ⟨items, hitems, rfl, rfl⟩, rfl⟩

/-! Commas and the final line feed. -/

theorem splitCommas_eq_splitOn (cs : List Char) : splitCommas cs = cs.splitOn ',' := by
  induction cs with
  | nil => rfl
  | cons c cs ih =>
    rw [splitCommas, ih, List.splitOn_cons_eq_if_modifyHead]
    by_cases hc : c = ','
    · simp [hc]
    · rw [if_neg hc, if_neg (by simpa using hc)]
      obtain ⟨p, ps, hps⟩ := List.exists_cons_of_ne_nil (List.splitOn_ne_nil ',' cs)
      rw [hps]
      rfl

theorem joinCommas_eq_intercalate : ∀ ps : List (List Char), joinCommas ps = [','].intercalate ps
  | [] => rfl
  | [_] => List.intercalate_singleton.symm
  | p :: q :: rest => by
    rw [joinCommas, joinCommas_eq_intercalate (q :: rest), List.intercalate_cons_cons, List.append_assoc]
    rfl

/-- Splitting at commas gives exactly the pieces that were joined, when none of them holds a comma. -/
theorem splitCommas_eq_iff {cs : List Char} {ps : List (List Char)} (h : ∀ p ∈ ps, ',' ∉ p) :
    splitCommas cs = ps ↔ ps ≠ [] ∧ cs = joinCommas ps := by
  rw [splitCommas_eq_splitOn, joinCommas_eq_intercalate]
  constructor
  · rintro rfl
    exact ⟨List.splitOn_ne_nil ',' cs, (List.intercalate_splitOn ',').symm⟩
  · rintro ⟨hne, rfl⟩
    exact List.splitOn_intercalate ',' h hne

theorem notMem_joinCommas {c : Char} (hc : c ≠ ',') : ∀ {ps : List (List Char)}, (∀ p ∈ ps, c ∉ p) → c ∉ joinCommas ps
  | [], _ => List.not_mem_nil
  | [p], h => h p List.mem_cons_self
  | p :: q :: rest, h => by
    obtain ⟨hp, hrest⟩ := List.forall_mem_cons.1 h
    simp [joinCommas, hp, hc, notMem_joinCommas hc hrest]

/-- At most one line feed is dropped, and only from the end (R243). -/
theorem dropFinalNewline_append (text : List Char) :
    ∃ lineFeed : Bool, text = dropFinalNewline text ++ (if lineFeed then ['\n'] else []) := by
  induction text with
  | nil => exact ⟨false, rfl⟩
  | cons c cs ih =>
    rw [dropFinalNewline]
    split_ifs with h
    · exact ⟨true, by rw [h.1, h.2]; rfl⟩
    · obtain ⟨lineFeed, ih⟩ := ih
      exact ⟨lineFeed, congrArg (c :: ·) ih⟩

theorem dropFinalNewline_of_append {cs : List Char} (h : '\n' ∉ cs) (lineFeed : Bool) :
    dropFinalNewline (cs ++ (if lineFeed then ['\n'] else [])) = cs := by
  induction cs with
  | nil => cases lineFeed <;> rfl
  | cons c cs ih =>
    obtain ⟨hc, hcs⟩ := not_or.1 (mt List.mem_cons.2 h)
    rw [List.cons_append, dropFinalNewline, if_neg fun hn => hc hn.1.symm, ih hcs]

theorem dropFinalNewline_eq_iff {text cs : List Char} (h : '\n' ∉ cs) :
    dropFinalNewline text = cs ↔ ∃ lineFeed : Bool, text = cs ++ (if lineFeed then ['\n'] else []) := by
  constructor
  · rintro rfl
    exact dropFinalNewline_append text
  · rintro ⟨lineFeed, rfl⟩
    exact dropFinalNewline_of_append h lineFeed

/-- The pieces of a text are the characters of these integers exactly when the text is they, joined by commas, with or without a final line feed. -/
theorem splitCommas_dropFinalNewline_eq_iff {text : List Char} {items : List IntText} :
    splitCommas (dropFinalNewline text) = items.map IntText.chars ↔
      ∃ lineFeed : Bool, items ≠ [] ∧ text = joinCommas (items.map IntText.chars) ++ (if lineFeed then ['\n'] else []) := by
  have hcomma : ∀ p ∈ items.map IntText.chars, ',' ∉ p := List.forall_mem_map.2 fun t _ => t.separator_notMem_chars.1
  have hnewline : ∀ p ∈ items.map IntText.chars, '\n' ∉ p := List.forall_mem_map.2 fun t _ => t.separator_notMem_chars.2
  rw [splitCommas_eq_iff hcomma, dropFinalNewline_eq_iff (notMem_joinCommas (by decide) hnewline), ne_eq, List.map_eq_nil_iff,
    exists_and_left]

/-- Settles O46: the pieces between the commas are integers, and the text is the pieces joined. -/
theorem programTextGrammar : Obligations.ProgramTextGrammar := by
  intro text prog
  rw [parseProgram, parsePieces_eq_some]
  constructor
  · rintro ⟨items, hdigits, hpieces, hprog⟩
    obtain ⟨lineFeed, hne, htext⟩ := splitCommas_dropFinalNewline_eq_iff.1 hpieces
    exact ⟨items, lineFeed, hne, hdigits, htext, hprog⟩
  · rintro ⟨items, lineFeed, hne, hdigits, htext, hprog⟩
    exact ⟨items, hdigits, splitCommas_dropFinalNewline_eq_iff.2 ⟨lineFeed, hne, htext⟩, hprog⟩

end Sys2Proof.Machine
end

section
/-! PROOFS. Loading and construction (R240 to R244): what memory reads once a Program is written to it, what the loader's two checks ask, and the
state a machine starts in. -/

namespace Sys2Proof.Machine

/-! Several words written to memory. -/

namespace Memory

/-- The cells written read the words, in order. -/
theorem read_writeWords_add {m : Memory} (a : Nat) {ws : List Int} {k : Nat} (h : m.wf = true) (hk : k < ws.length) :
    (m.writeWords a ws).read (a + k) = ws[k] := by
  induction ws generalizing m a k with
  | nil => cases hk
  | cons w ws ih =>
    rw [writeWords]
    cases k with
    | zero => exact (read_writeWords_of_lt ws (Nat.lt_succ_self a)).trans (read_write_self a w h)
    | succ k =>
      have hcell : a + (k + 1) = a + 1 + k := by omega
      rw [hcell]
      exact ih (a + 1) (wf_write a w h) (Nat.lt_of_succ_lt_succ hk)

/-- The cells after the last written address are as before. -/
theorem read_writeWords_of_le {m : Memory} {a b : Nat} (ws : List Int) (h : a + ws.length ≤ b) :
    (m.writeWords a ws).read b = m.read b := by
  induction ws generalizing m a with
  | nil => rfl
  | cons w ws ih =>
    rw [List.length_cons] at h
    rw [writeWords, ih (by omega), read_write_of_ne w (by omega)]

/-- A cell of the written list holds one of the words, below the address after the last one, or was there before. -/
theorem mem_writeWords {m : Memory} {a : Nat} {ws : List Int} {p : Nat × Int} (h : p ∈ m.writeWords a ws) :
    (p.1 < a + ws.length ∧ p.2 ∈ ws) ∨ p ∈ m := by
  induction ws generalizing m a with
  | nil => exact .inr h
  | cons w ws ih =>
    rw [List.length_cons]
    rcases ih h with ⟨hp, hw⟩ | hp
    · exact .inl ⟨by omega, List.mem_cons_of_mem w hw⟩
    · rcases mem_write hp with ⟨rfl, -⟩ | hp
      · exact .inl ⟨by simp, List.mem_cons_self⟩
      · exact .inr hp

end Memory

/-! The loader's checks (R155, R244). -/

theorem checkProgram_of_notAWord {cfg : Config} {prog : List Int} (h : ∃ v ∈ prog, cfg.isWord v = false) :
    checkProgram cfg prog = .error .notAWord := by
  rw [checkProgram, if_pos (List.all_eq_false.2 (by simpa using h))]

theorem checkProgram_of_tooLong {cfg : Config} {prog : List Int} (hw : ∀ v ∈ prog, cfg.isWord v = true) {n : Nat} (hn : cfg.cap = some n)
    (h : n < prog.length) : checkProgram cfg prog = .error .tooLong := by
  simp only [checkProgram, List.all_eq_true.2 hw, hn, Bool.true_eq_false, if_false, if_neg (Nat.not_le.2 h)]

theorem checkProgram_of_fits {cfg : Config} {prog : List Int} (hw : ∀ v ∈ prog, cfg.isWord v = true)
    (h : ∀ n, cfg.cap = some n → prog.length ≤ n) : checkProgram cfg prog = .ok prog := by
  simp only [checkProgram, List.all_eq_true.2 hw, Bool.true_eq_false, if_false]
  cases hn : cfg.cap with
  | none => rfl
  | some n => exact if_pos (h n hn)

/-- A Program is accepted as it stands, when it holds words only and is no longer than the capacity (R244). -/
theorem checkProgram_eq_ok {cfg : Config} {prog ws : List Int} :
    checkProgram cfg prog = .ok ws ↔ ws = prog ∧ (∀ v ∈ prog, cfg.isWord v = true) ∧ ∀ n, cfg.cap = some n → prog.length ≤ n := by
  by_cases hw : ∀ v ∈ prog, cfg.isWord v = true
  · by_cases hcap : ∀ n, cfg.cap = some n → prog.length ≤ n
    · rw [checkProgram_of_fits hw hcap, and_iff_left ⟨hw, hcap⟩, Except.ok.injEq]
      exact eq_comm
    · obtain ⟨n, hn, hlt⟩ : ∃ n, cfg.cap = some n ∧ n < prog.length := by simpa using hcap
      rw [checkProgram_of_tooLong hw hn hlt]
      exact iff_of_false nofun fun h => hcap h.2.2
  · rw [checkProgram_of_notAWord (by simpa using hw)]
    exact iff_of_false nofun fun h => hw h.2.1

theorem channelIsWords_iff {cfg : Config} {c : Channel} : channelIsWords cfg c = true ↔ ChannelWords cfg c := by
  simp only [channelIsWords, Bool.and_eq_true, List.all_eq_true]
  constructor
  · rintro ⟨⟨⟨⟨⟨hinq, houtq⟩, hprompt⟩, hreads⟩, hwrites⟩, hemitted⟩
    exact ⟨hinq, houtq, hprompt, hreads, hwrites, hemitted⟩
  · rintro ⟨hinq, houtq, hprompt, hreads, hwrites, hemitted⟩
    exact ⟨⟨⟨⟨⟨hinq, houtq⟩, hprompt⟩, hreads⟩, hwrites⟩, hemitted⟩

/-! The commands (R244, R246). -/

theorem constructCommand_of_refused {cfg : Config} {prog : List Int} {e : LoadRefusal} (h : checkProgram cfg prog = .error e) (chan : Channel) :
    constructCommand cfg chan prog = .error e := by
  rw [constructCommand, h]

theorem constructCommand_of_words {cfg : Config} {chan : Channel} {prog ws : List Int} (h : checkProgram cfg prog = .ok ws)
    (hc : ChannelWords cfg chan) : constructCommand cfg chan prog = .ok (construct cfg chan ws) := by
  simp only [constructCommand, h, if_pos (channelIsWords_iff.2 hc)]

theorem constructCommand_of_not_words {cfg : Config} {chan : Channel} {prog ws : List Int} (h : checkProgram cfg prog = .ok ws)
    (hc : ¬ ChannelWords cfg chan) : constructCommand cfg chan prog = .error .channelNotWords := by
  simp only [constructCommand, h, if_neg (mt channelIsWords_iff.1 hc)]

/-- What the Construct command answers is a machine constructed from an accepted Program and a channel of words. -/
theorem constructCommand_eq_ok {cfg : Config} {chan : Channel} {prog : List Int} {s : State} (h : constructCommand cfg chan prog = .ok s) :
    ∃ ws, checkProgram cfg prog = .ok ws ∧ ChannelWords cfg chan ∧ s = construct cfg chan ws := by
  cases hp : checkProgram cfg prog with
  | error e => cases (constructCommand_of_refused hp chan).symm.trans h
  | ok ws =>
    by_cases hc : ChannelWords cfg chan
    · cases (constructCommand_of_words hp hc).symm.trans h
      exact ⟨ws, rfl, hc, rfl⟩
    · cases (constructCommand_of_not_words hp hc).symm.trans h

theorem constructFromText_of_none {text : List Char} (h : parseProgram text = none) (cfg : Config) (chan : Channel) :
    constructFromText cfg chan text = .error .badText := by
  rw [constructFromText, h]

theorem constructFromText_of_some {text : List Char} {prog : List Int} (h : parseProgram text = some prog) (cfg : Config) (chan : Channel) :
    constructFromText cfg chan text = constructCommand cfg chan prog := by
  rw [constructFromText, h]

/-- Settles O47: a refusal for the text, for each of the two checks of the Program, and for the channel. -/
theorem loaderRefusesBadPrograms : Obligations.LoaderRefusesBadPrograms := by
  refine fun cfg chan text => ⟨fun h => constructFromText_of_none h cfg chan, fun prog h => ?_⟩
  rw [constructFromText_of_some h]
  refine ⟨fun hbad => constructCommand_of_refused (checkProgram_of_notAWord hbad) chan,
    fun hw n hn hlong => constructCommand_of_refused (checkProgram_of_tooLong hw hn hlong) chan, fun hw hcap => ?_⟩
  have hfits := checkProgram_of_fits hw hcap
  exact ⟨constructCommand_of_words hfits, constructCommand_of_not_words hfits⟩

/-! The constructed machine (R240, R241). -/

/-- A Program that the loader accepts makes memory as the invariant asks, with LEN its length. -/
theorem memoryOk_writeWords {cfg : Config} {ws : List Int} (hw : ∀ v ∈ ws, cfg.isWord v = true)
    (hcap : ∀ n, cfg.cap = some n → ws.length ≤ n) : MemoryOk cfg (Memory.writeWords [] 0 ws) ws.length where
  canonical := Memory.wf_writeWords 0 ws Memory.wf_nil
  belowLen p hp := by
    rcases Memory.mem_writeWords hp with ⟨hlt, -⟩ | hp
    · rwa [Nat.zero_add] at hlt
    · cases hp
  words p hp := by
    rcases Memory.mem_writeWords hp with ⟨-, hv⟩ | hp
    · exact hw _ hv
    · cases hp
  withinCap := hcap

/-- The empty Program's machine meets the invariant on any channel of words, as State.reset does on its own. -/
theorem construct_nil_inv {cfg : Config} {chan : Channel} (hwidth : Config.WidthOk cfg) (hchan : ChannelWords cfg chan) :
    (construct cfg chan []).Inv :=
  { resetMeetsTheInvariant with
    width := hwidth
    cellsAreWords := nofun
    lenWithinCap := fun n _ => Nat.zero_le n
    ipRange := fun w hw => by
      have := word_limits hwidth hw
      change (0 : Int) ≤ wordMax w + 4
      omega
    rbIsWord := isWord_zero hwidth
    infoRange := fitsInfo_of_isWord hwidth (isWord_zero hwidth)
    channel := hchan
    interactiveNeverWaits := nofun
    waitsAtInput := nofun
    haltedAtHalt := nofun }

/-- The machine of any Program is the empty Program's with other memory and LEN (R240). -/
theorem construct_inv {cfg : Config} {chan : Channel} {prog ws : List Int} (hwidth : Config.WidthOk cfg) (hchan : ChannelWords cfg chan)
    (h : checkProgram cfg prog = .ok ws) : (construct cfg chan ws).Inv := by
  obtain ⟨rfl, hw, hcap⟩ := checkProgram_eq_ok.1 h
  have hempty := construct_nil_inv hwidth hchan
  exact hempty.goOn rfl (memoryOk_writeWords hw hcap) hempty.ipRange hempty.rbIsWord hchan

/-- Settles O41: the Construct command gives only what `construct` makes of an accepted Program and a channel of words. -/
theorem constructionMeetsTheInvariant : Obligations.ConstructionMeetsTheInvariant := by
  refine ⟨fun cfg chan prog ws => construct_inv, fun cfg chan prog s hwidth h => ?_⟩
  obtain ⟨ws, hprog, hchan, rfl⟩ := constructCommand_eq_ok h
  exact construct_inv hwidth hchan hprog

/-- Settles O44: memory is empty before the Program is written to it, and the registers are those of State.reset. -/
theorem constructLoadsTheProgram : Obligations.ConstructLoadsTheProgram := by
  refine fun cfg chan prog => ⟨fun a h => ?_, fun a h => ?_, rfl, rfl, rfl, rfl, rfl, rfl, rfl, rfl⟩
  · have hread := Memory.read_writeWords_add 0 Memory.wf_nil h
    rwa [Nat.zero_add] at hread
  · exact Memory.read_writeWords_of_le prog (by rwa [Nat.zero_add])

/-- Settles O45: the reset state meets the invariant and fetches at address 0, where LEN already is. -/
theorem emptyProgramFaultsAtOnce : Obligations.EmptyProgramFaultsAtOnce :=
  resetMeetsTheInvariant.step_of_len_le_ip rfl (by decide) (Nat.le_refl 0)

end Sys2Proof.Machine
end
